-- ==== Sys2Proof/Word.lean ====
section
/-! DEFINITION. The word types of the controller (spec/00_scope.md R12, R7 table P1). -/

namespace Sys2Proof

/-- One byte of a wire frame (R90). -/
abbrev Byte := BitVec 8

/-- A `W`-bit data value. `W` is 64 on SC1 and 32 on DCR1 (R2); a DCR1 value is held
zero-extended, so one type serves both variants. -/
abbrev Word := BitVec 64

/-- One bit per chip of a string: a pass mask or a sample of a summary line. A string has at most
128 chips (R9, R10), so the `plat.CHIPS` bits lie in the low bits. -/
abbrev ChipBits := BitVec 128

/-- An oscillator-control pattern: `cfg.W` bits, or `2 * cfg.W` bits when split (R280). -/
abbrev Pattern := BitVec 128

end Sys2Proof
end

