-- ==== Sys2Proof/Machine/Types.lean ====
section
/-! DEFINITION. The closed enumerations and plain records that the spec names: variants, modes,
errors, targets, jobs, sequencer states, collaborator calls, commands and results. -/

namespace Sys2Proof.Machine

/-- The two ASIC variants (R2; spec/90_conflicts.md C1): SC1 is the 64-bit one. -/
inductive Variant where
  | sc1
  | dcr1
  deriving DecidableEq, Repr, Inhabited

/-- The four access modes, the values of a frame's `mode` field (R61, R95). There is no broadcast
read (spec/90_conflicts.md C2). -/
inductive Mode where
  | singleWrite
  | singleRead
  | chipWideWrite
  | multicastWrite
  deriving DecidableEq, Repr, Inhabited

/-- The logical TransferFrame register `f` (R21). Field values are plain numbers and may be wider
than their fields; encoding truncates them (R103). -/
structure Frame where
  mode : Mode
  board : Nat
  chip : Nat
  core : Nat
  reg : Nat
  data : Nat
  deriving DecidableEq, Repr, Inhabited

/-- A frame from an untyped source, whose mode value may be none of the four (R106, R141): `mode`
is a number, and only the four values `0..3` of `rawMode?` are defined. -/
structure RawFrame where
  mode : Nat
  board : Nat
  chip : Nat
  core : Nat
  reg : Nat
  data : Nat
  deriving DecidableEq, Repr, Inhabited

/-- The six error results of R300. They are results of a command, not stops of the machine. -/
inductive Err where
  | invalidArgument
  | busy
  | timeout
  | failure
  | notFound
  | unsupported
  deriving DecidableEq, Repr, Inhabited

/-- What an error records beside its name (R301, column "what it records"): diagnostic only (R300). -/
inductive Info where
  | nothing
  | lines (done nonce : ChipBits)
  | ivr (value : Word)
  | passMask (pass : ChipBits)
  | index (n : Nat)
  deriving DecidableEq, Repr, Inhabited

/-- `raise E(info)` of R12 and R300. -/
structure Raised where
  err : Err
  info : Info
  deriving DecidableEq, Repr, Inhabited

/-- The broadcast mode a job target may carry (R27). -/
inductive BMode where
  | chipWide
  | multicast
  deriving DecidableEq, Repr, Inhabited

/-- The target of a job cycle (R27). -/
structure Target where
  board : Nat
  chip : Nat
  core : Nat
  bmode : BMode
  deriving DecidableEq, Repr, Inhabited

/-- The job register file (R26). `m` holds the words of the ADMITTED M indices in ascending order
(9 on SC1, of which the last three places are then unused; 12 on DCR1): the slot of the reserved
index does not exist. `v` is sent on SC1 only (R166). -/
structure Job where
  m : Vector Word 12
  v : Vector Word 16
  lb : Word
  ub : Word
  matchVal : Word
  expected : Word
  deriving DecidableEq, Repr, Inhabited

/-- The six states of a job machine (R30). -/
inductive JState where
  | idle
  | preloaded
  | started
  | awaitingSolution
  | solutionReady
  | error
  deriving DecidableEq, Repr, Inhabited

/-- The states of a board's calibration (R40). -/
inductive CalState where
  | notInitialized
  | calPowerUp
  | calSettle
  | calSweep
  | calInit
  | calDone
  | calPartial
  | calFailed
  deriving DecidableEq, Repr, Inhabited

/-- The status code of a board's calibration (R40). -/
inductive CalStatus where
  | notInitialized
  | inProgress
  | ok
  | error (e : Err)
  deriving DecidableEq, Repr, Inhabited

/-- A bus-multiplexer target (R24). `unknown` is the memo's value after reset. -/
inductive Mux where
  | unknown
  | asic
  | other
  deriving DecidableEq, Repr, Inhabited

/-- The two aggregated summary lines (R310). -/
inductive Line where
  | done
  | nonce
  deriving DecidableEq, Repr, Inhabited

/-- The admitted clock dividers (R41, R280). -/
inductive Divider where
  | d1
  | d2
  | d4
  | d8
  deriving DecidableEq, Repr, Inhabited

/-- The admitted biases `-5..5` (R41, R280), as an index: index `n` stands for bias `n - 5`. -/
abbrev Bias := Fin 11

/-- The durations a rule hands to the delay collaborator (R326). No rule's outcome depends on one,
so they stay names (R370). -/
inductive Duration where
  | poll
  | validPulse
  | rcDelay
  | initClock
  | settle
  deriving DecidableEq, Repr, Inhabited

/-- The bytes a synchronous read brings back (R109): three header bytes that mean nothing and the
raw data bytes, of which the low `W` bits are used. -/
structure Rx where
  header : BitVec 24
  raw : Word
  deriving DecidableEq, Repr, Inhabited

/-- The log-only results of R302. -/
inductive LogMsg where
  | prestartLines (done nonce : ChipBits)
  | secondError (e : Raised)
  | residualLines (done nonce : ChipBits)
  | retriedError (e : Raised)
  deriving DecidableEq, Repr, Inhabited

/-- One call of a collaborator primitive (R320 to R327), or one move of an environment agent (R149,
R81), as the trace of a run records it. `landed` says whether the frame reached powered ASICs (R354,
R367). -/
inductive Effect where
  | muxSet (target : Mux)
  | csAssert (board : Nat)
  | csDeassert (board : Nat)
  | xferStart (board : Nat) (tx : List Byte)
  | xferSync (board : Nat) (tx : List Byte) (answer : Option (List Byte))
  | landed (board : Nat) (bytes : List Byte) (reached : Bool)
  | lines (line : Line) (board : Nat) (answer : ChipBits)
  | clockEnable (board : Nat) (on : Bool)
  | supplyEnable (board : Nat) (on : Bool)
  | supplySetLevel (board : Nat) (level : Int)
  | supplySane (board : Nat) (answer : Bool)
  | delay (d : Duration)
  | log (msg : LogMsg)
  | engine (board chip core : Nat) (found : Option (Nat × Word))
  | candidate (board chip core slot : Nat) (solution : Word)
  deriving DecidableEq, Repr, Inhabited

/-- What the last command returned to its caller (R302, table E6 of R111). -/
inductive CmdResult where
  | none
  | ok
  | bytes (buf : List Byte)
  | frame (f : Frame)
  | transferred (data : Option Word)
  | ready
  | notYet
  | solution (nonce : Word) (residual : Bool)
  | inProgress
  | partialFailure (failed : List Nat)
  | calFailed (e : Raised) (pass : ChipBits)
  | pattern (p : Pattern)
  | patternPair (lo hi : Word)
  | err (e : Raised)
  deriving DecidableEq, Repr, Inhabited

/-- The commands a caller may issue (R111 table E6). `m` names a job machine (R34), `b` a board.
`waitAndReadSolution m n` carries its timeout as the number `n` of polls that find the deadline not
yet reached (the time-free form of R207). -/
inductive Command where
  | encode (v : Variant) (f : Frame)
  | decode (v : Variant) (buf : List Byte)
  | transfer (f : RawFrame)
  | preload (job : Job) (tgt : Target)
  | preloadJob (m : Nat) (job : Job) (tgt : Target)
  | startJob (m : Nat)
  | waitPoll (m : Nat) (expired : Bool)
  | readSolution (m : Nat)
  | waitAndReadSolution (m : Nat) (polls : Nat)
  | jobReset (m : Nat)
  | boardDetect (b : Nat) (present : Bool) (variant : Variant)
  | boardReset (b : Nat)
  | calibrateString (b : Nat)
  | calibrationStep (b : Nat) (settled : Bool)
  | initializeDevice (b : Nat)
  | buildOscillatorRegister (v : Variant) (divider : Nat) (bias : Int)
  deriving DecidableEq, Repr, Inhabited

/-- The moves of the agents on the far side of the bus and of its other users (R5). One may fall between
any two actions of a command (R6, R210). -/
inductive EnvMove where
  /-- the back end completes the started write (R149) -/
  | backendDone
  /-- the started write fails physically: its end comes, its registers keep what they held, and nobody is told
  (R148; spec/93_implementation_defined.md U4) -/
  | backendLost
  /-- another user of the shared bus takes or releases it (R143) -/
  | busUser (holds : Bool)
  /-- another bus user sets the multiplexer, keeping the dispatcher's memo true or not (R144, R354) -/
  | muxUser (target : Mux) (updatesMemo : Bool)
  /-- a core finishes its computation, perhaps with a candidate in a FIFO slot (R81, U19) -/
  | engine (b c k : Nat) (found : Option (Nat × Word))
  /-- a core that goes on computing puts a candidate in a FIFO slot (R81, U19) -/
  | candidate (b c k slot : Nat) (solution : Word)
  deriving DecidableEq, Repr, Inhabited

/-- The moves of the other agents, between commands. -/
inductive Move where
  | env (m : EnvMove)
  /-- a runtime thermal-tuning caller writes a chip's divider and bias (R41, R249) -/
  | tune (b c : Nat) (d : Divider) (bias : Bias)
  /-- the persistence collaborator restores a chip's divider and bias (R41, R327, R345) -/
  | restore (b c : Nat) (d : Divider) (bias : Bias)
  deriving DecidableEq, Repr, Inhabited

/-- What the caller and the environment do next: a frame handed to the dispatcher as its bytes on
the wire, a command, or a move of another agent. -/
inductive Event where
  | frame (board : Nat) (bytes : List Byte)
  | command (c : Command)
  | move (m : Move)
  deriving DecidableEq, Repr, Inhabited

end Sys2Proof.Machine
end

