-- ==== Sys2Proof/Config.lean ====
section
/-! DEFINITION. What an implementation fixes: the parameter tables P1 (`ChipVariant`) and P2 (`Plat`)
of spec/00_scope.md, the mode codes, the example configuration `EX` of spec/95_test_vectors.md
section 0, and the free values. -/

namespace Sys2Proof.Machine

/-- `cfg.REG` (R44): the symbolic register names with their 7-bit addresses. -/
structure RegMap where
  v : Vector (BitVec 7) 16
  m0 : BitVec 7
  lb : BitVec 7
  ub : BitVec 7
  limit : BitVec 7
  stepReg : BitVec 7
  matchReg : BitVec 7
  ecr : BitVec 7
  fcr : BitVec 7
  esr : BitVec 7
  ivr : BitVec 7
  ocra : BitVec 7
  ocrb : BitVec 7
  fdr : Vector (BitVec 7) 8
  deriving DecidableEq, Repr, Inhabited

/-- `cfg.DEF` (R261). `m` holds the defaults of the admitted M indices in ascending order. -/
structure Defaults where
  v : Vector Word 16
  m : Vector Word 12
  limit : Word
  stepVal : Word
  lb : Word
  ub : Word
  matchVal : Word
  deriving DecidableEq, Repr, Inhabited

/-- The OPEN fields of `cfg : ChipVariant` (table P1 of R7). The fields the spec gives a value
(`W`, `CORES`, `M_COUNT`, ...) are functions of the variant, in Machine/Operands.lean. -/
structure ChipVariant where
  shift : Nat
  coreChipReg : BitVec 8
  gapOffset : Int
  reg : RegMap
  dflt : Defaults
  ecrResetSpi : Word
  ecrResetCore : Word
  ecrValidData : Word
  ecrReadComplete : Word
  fcrMaskAll : Word
  esrBusy : Word
  esrDone : Word
  ivrCoreLo : Nat
  ivrCoreWidth : Nat
  ivrMaskLo : Nat
  ivrMaskWidth : Nat
  ivrFirstSlot : Nat
  ocrDivBit1 : Nat
  ocrDivBit2 : Nat
  ocrDivBit4 : Nat
  ocrDivBit8 : Nat
  ocrSlowPos : Nat
  ocrFastPos : Nat
  ocrCoreEnMask : Pattern
  ocrSplit : Bool
  ocrbStartup : Word
  deriving DecidableEq, Repr, Inhabited

/-- `plat` (table P2 of R9). The durations are the names of `Duration`; the mode codes are the
four constants below. `initDivider` and `initBias` are `none` for the token `persisted`. -/
structure Plat where
  boards : Nat
  chips : Nat
  nStartPolls : Nat
  levelStart : Int
  levelFloor : Int
  levelMargin : Int
  verifyPrestart : Bool
  verifyPostread : Bool
  waitLine : Line
  activeCoreEn : Pattern
  initDivider : Option Divider
  initBias : Option Bias
  deriving DecidableEq, Repr, Inhabited

/-- The parameters of every step (R20): one `cfg` per variant and the platform. -/
structure Params where
  sc1 : ChipVariant
  dcr1 : ChipVariant
  plat : Plat
  deriving DecidableEq, Repr, Inhabited

end Sys2Proof.Machine

namespace Sys2Proof.Config

open Sys2Proof.Machine

/-- `plat.MODE_SW` (R95; decision D2): the spec's own choice. -/
def modeSW : BitVec 2 := 0
/-- `plat.MODE_SR` (R95; decision D2). -/
def modeSR : BitVec 2 := 1
/-- `plat.MODE_CW` (R95; decision D2). -/
def modeCW : BitVec 2 := 2
/-- `plat.MODE_MC` (R95; decision D2). -/
def modeMC : BitVec 2 := 3

/-- The register addresses of `EX` (spec/95_test_vectors.md section 0). -/
def exRegs : RegMap where
  v := #v[0x00, 0x01, 0x02, 0x03, 0x04, 0x05, 0x06, 0x07, 0x08, 0x09, 0x0A, 0x0B, 0x0C, 0x0D, 0x0E, 0x0F]
  m0 := 0x10
  lb := 0x20
  ub := 0x21
  limit := 0x22
  stepReg := 0x23
  matchReg := 0x24
  ecr := 0x30
  fcr := 0x33
  esr := 0x34
  ivr := 0x35
  ocra := 0x31
  ocrb := 0x32
  fdr := #v[0x38, 0x39, 0x3A, 0x3B, 0x3C, 0x3D, 0x3E, 0x3F]

/-- The defaults have no value in `EX` either (`DEF.*` is symbolic there): zeros. DESIGN CHOICE, unsafe. -/
def exDefaults : Defaults where
  v := Vector.replicate 16 0
  m := Vector.replicate 12 0
  limit := 0
  stepVal := 0
  lb := 0
  ub := 0
  matchVal := 0

/-- `EX` for either variant, with `SHIFT = 0` (the vectors state `SHIFT` one by one). -/
def exChip : ChipVariant where
  shift := 0
  coreChipReg := 0x80
  gapOffset := 2
  reg := exRegs
  dflt := exDefaults
  ecrResetSpi := 0x1
  ecrResetCore := 0x2
  ecrValidData := 0x4
  ecrReadComplete := 0x8
  fcrMaskAll := 0xFF
  esrBusy := 0x1
  esrDone := 0x2
  ivrCoreLo := 8
  ivrCoreWidth := 8
  ivrMaskLo := 0
  ivrMaskWidth := 8
  ivrFirstSlot := 1
  ocrDivBit1 := 0
  ocrDivBit2 := 1
  ocrDivBit4 := 2
  ocrDivBit8 := 3
  ocrSlowPos := 8
  ocrFastPos := 16
  ocrCoreEnMask := 0xFF000000
  ocrSplit := false
  ocrbStartup := 0x5A5A5A5A

/-- The platform of `EX`. -/
def exPlat : Plat where
  boards := 2
  chips := 4
  nStartPolls := 1000
  levelStart := 10
  levelFloor := 3
  levelMargin := 2
  verifyPrestart := false
  verifyPostread := true
  waitLine := .done
  activeCoreEn := 0xFF000000
  initDivider := some .d1
  initBias := some 5

/-- The example configuration. The spec calls it its own invention and no property of the silicon:
it is the parameter value of `State.reset` and nothing rests on it. DESIGN CHOICE, unsafe. -/
def exParams : Params where
  sc1 := exChip
  dcr1 := exChip
  plat := exPlat

/-! The free values: constants without a body, so that nothing can be proved of what they are. Each
is applied to the counter `State.draws`, which every draw advances. -/

/-- Whether the wait for the bus ends in time (R142), when no scripted answer is left. -/
opaque freeWait : Nat → Bool
/-- The answer of a synchronous read (R75, R147): a timeout or the bytes, when no scripted answer is left. -/
opaque freeRxAnswer : Nat → Option Rx
/-- What `rxbuf` holds after a write transfer (spec/93_implementation_defined.md U3) or a read cut short. -/
opaque freeRx : Nat → Rx
/-- A sample of a summary line (R58, R75), when no scripted answer is left. -/
opaque freeLine : Nat → ChipBits
/-- The answer of `Supply.sane` (R325), when no scripted answer is left. -/
opaque freeSane : Nat → Bool
/-- Whether a write abandoned by recovery reached its register (U4), when no scripted answer is left. -/
opaque freeLand : Nat → Bool
/-- The target a machine holds after jobReset (R208: "become unspecified"). -/
opaque freeTarget : Nat → Target
/-- The nonce register a machine holds after jobReset (R208). -/
opaque freeNonce : Nat → Word
/-- The error register a machine holds after jobReset (R208). -/
opaque freeErr : Nat → Err
/-- The level a board holds after its detection (R343: "stay unspecified until written"). -/
opaque freeLevel : Nat → Int
/-- The divider of a chip after its board's detection (R343), by chip. -/
opaque freeDivider : Nat → Nat → Divider
/-- The bias of a chip after its board's detection (R343), by chip. -/
opaque freeBias : Nat → Nat → Bias

end Sys2Proof.Config
end

