-- ==== Sys2Proof/Syntax.lean ====
section
/-! DEFINITION. The instructions: the wire frames of spec/opcode_table.json, one constructor a row
(R105). The four values of a frame's mode field play the part of opcodes (spec/30_encoding.md); the
format, F32 or F64, is the variant's (R104). The operands are the fields AS THEY STAND ON THE WIRE:
in a read frame `reg` is the register field after the erratum pre-shift (R98). -/

namespace Sys2Proof

/-- One wire frame. Every constructor has the fields chip, core, register and data of R91 and R93. -/
inductive Instr where
  | wr32 (chip : BitVec 7) (core : BitVec 8) (reg : BitVec 7) (data : BitVec 32)
  | rd32 (chip : BitVec 7) (core : BitVec 8) (reg : BitVec 7) (data : BitVec 32)
  | wrc32 (chip : BitVec 7) (core : BitVec 8) (reg : BitVec 7) (data : BitVec 32)
  | wra32 (chip : BitVec 7) (core : BitVec 8) (reg : BitVec 7) (data : BitVec 32)
  | wr64 (chip : BitVec 7) (core : BitVec 8) (reg : BitVec 7) (data : BitVec 64)
  | rd64 (chip : BitVec 7) (core : BitVec 8) (reg : BitVec 7) (data : BitVec 64)
  | wrc64 (chip : BitVec 7) (core : BitVec 8) (reg : BitVec 7) (data : BitVec 64)
  | wra64 (chip : BitVec 7) (core : BitVec 8) (reg : BitVec 7) (data : BitVec 64)
  deriving DecidableEq, Repr

end Sys2Proof
end

