-- ==== Sys2Proof/WellFormed.lean ====
section
/-! DEFINITION. Which wire frames are well formed. -/

namespace Sys2Proof

/-- The frames the encoder can produce (R112 "valid frames"): the core field is 0 in the two
broadcast modes (R97), and any value in the others. -/
def Instr.wf : Instr → Bool
  | .wr32 _ _ _ _ => true
  | .rd32 _ _ _ _ => true
  | .wrc32 _ core _ _ => core == 0
  | .wra32 _ core _ _ => core == 0
  | .wr64 _ _ _ _ => true
  | .rd64 _ _ _ _ => true
  | .wrc64 _ core _ _ => core == 0
  | .wra64 _ core _ _ => core == 0

end Sys2Proof
end

