-- ==== Sys2Proof/Decode.lean ====
section
/-! DEFINITION. The wire frame's layout (R91 to R93), the decoder and the encoder over it, and the
codec of spec/40_codec.md: `assemble` and `encodeFrame` (R120), `decodeFrame` (R125). -/

namespace Sys2Proof

open Sys2Proof.Machine

/-- The code of a mode (R95). -/
def modeCode : Mode → BitVec 2
  | .singleWrite => Config.modeSW
  | .singleRead => Config.modeSR
  | .chipWideWrite => Config.modeCW
  | .multicastWrite => Config.modeMC

/-- The inverse of `modeCode` (R125): total, as the four codes fill the field (R106, R10). -/
def modeOf (m : BitVec 2) : Mode :=
  if m = Config.modeSW then .singleWrite
  else if m = Config.modeSR then .singleRead
  else if m = Config.modeCW then .chipWideWrite
  else .multicastWrite

/-- The mode of an untyped frame, where its value is one of the four defined ones (R141). -/
def rawMode? (n : Nat) : Option Mode :=
  if n < 4 then some (modeOf (BitVec.ofNat 2 n)) else none

/-- Whether the core field is ignored and sent as zero (R97). -/
def broadcast : Mode → Bool
  | .singleWrite => false
  | .singleRead => false
  | .chipWideWrite => true
  | .multicastWrite => true

/-- The low `n` bytes of a number, most significant byte first (R67). -/
def beBytes : Nat → Nat → List Byte
  | 0, _ => []
  | n + 1, x => BitVec.ofNat 8 (x / 256 ^ n) :: beBytes n x

/-- The number that bytes spell, most significant byte first (R67). -/
def ofBeBytes (bs : List Byte) : Nat :=
  bs.foldl (fun a b => a * 256 + b.toNat) 0

/-- The 24-bit header word `H` (R92). -/
def headerWord (m : BitVec 2) (chip : BitVec 7) (core : BitVec 8) (reg : BitVec 7) : BitVec 24 :=
  m ++ chip ++ core ++ reg

/-- A frame of format F32 as the one 56-bit number spec/opcode_table.json numbers. -/
def frameWord32 (m : BitVec 2) (chip : BitVec 7) (core : BitVec 8) (reg : BitVec 7) (data : BitVec 32) : BitVec 56 :=
  headerWord m chip core reg ++ data

/-- A frame of format F64 as the one 88-bit number spec/opcode_table.json numbers. -/
def frameWord64 (m : BitVec 2) (chip : BitVec 7) (core : BitVec 8) (reg : BitVec 7) (data : BitVec 64) : BitVec 88 :=
  headerWord m chip core reg ++ data

/-- The instruction of format F32 with given fields. -/
def instr32 (m : Mode) (chip : BitVec 7) (core : BitVec 8) (reg : BitVec 7) (data : BitVec 32) : Instr :=
  match m with
  | .singleWrite => .wr32 chip core reg data
  | .singleRead => .rd32 chip core reg data
  | .chipWideWrite => .wrc32 chip core reg data
  | .multicastWrite => .wra32 chip core reg data

/-- The instruction of format F64 with given fields. -/
def instr64 (m : Mode) (chip : BitVec 7) (core : BitVec 8) (reg : BitVec 7) (data : BitVec 64) : Instr :=
  match m with
  | .singleWrite => .wr64 chip core reg data
  | .singleRead => .rd64 chip core reg data
  | .chipWideWrite => .wrc64 chip core reg data
  | .multicastWrite => .wra64 chip core reg data

/-- The instruction a 56-bit frame number stands for: the field places of spec/opcode_table.json. -/
def decodeWord32 (w : BitVec 56) : Instr :=
  instr32 (modeOf (w.extractLsb' 54 2)) (w.extractLsb' 47 7) (w.extractLsb' 39 8) (w.extractLsb' 32 7)
    (w.extractLsb' 0 32)

/-- The instruction an 88-bit frame number stands for: the field places of spec/opcode_table.json. -/
def decodeWord64 (w : BitVec 88) : Instr :=
  instr64 (modeOf (w.extractLsb' 86 2)) (w.extractLsb' 79 7) (w.extractLsb' 71 8) (w.extractLsb' 64 7)
    (w.extractLsb' 0 64)

/-- Why bytes are no frame: their number is neither 7 (F32) nor 11 (F64) (R90). Every buffer of a
right length decodes (R106). -/
inductive DecodeRefusal where
  | badLength (n : Nat)
  deriving DecidableEq, Repr

/-- The decoder: bytes in the order of the wire, the first sent first (R102). The length names the
format, which both ends know beforehand (R104). -/
def decode (bs : List Byte) : Except DecodeRefusal Instr :=
  if bs.length = 7 then .ok (decodeWord32 (BitVec.ofNat 56 (ofBeBytes bs)))
  else if bs.length = 11 then .ok (decodeWord64 (BitVec.ofNat 88 (ofBeBytes bs)))
  else .error (.badLength bs.length)

/-- The encoder: the bytes of a frame on the wire (R91 to R93). The core field of a broadcast frame is
sent as 0 whatever the instruction holds (R97). -/
def encode : Instr → List Byte
  | .wr32 c k r d => beBytes 7 (frameWord32 Config.modeSW c k r d).toNat
  | .rd32 c k r d => beBytes 7 (frameWord32 Config.modeSR c k r d).toNat
  | .wrc32 c _ r d => beBytes 7 (frameWord32 Config.modeCW c 0 r d).toNat
  | .wra32 c _ r d => beBytes 7 (frameWord32 Config.modeMC c 0 r d).toNat
  | .wr64 c k r d => beBytes 11 (frameWord64 Config.modeSW c k r d).toNat
  | .rd64 c k r d => beBytes 11 (frameWord64 Config.modeSR c k r d).toNat
  | .wrc64 c _ r d => beBytes 11 (frameWord64 Config.modeCW c 0 r d).toNat
  | .wra64 c _ r d => beBytes 11 (frameWord64 Config.modeMC c 0 r d).toNat

/-- The instruction of a table word: `w` numbered as spec/opcode_table.json numbers it, bit 7 of byte
0 (the first byte on the wire) its most significant bit. -/
def decodeTableWord (nbits w : Nat) : Option Instr :=
  if nbits = 56 ∨ nbits = 88 then (decode (beBytes (nbits / 8) w)).toOption else none

/-! ## The fields of an instruction -/

/-- The fields of a wire frame, read off an instruction. -/
structure Wire where
  fmt : Variant
  mode : Mode
  chip : BitVec 7
  core : BitVec 8
  reg : BitVec 7
  data : Word
  deriving DecidableEq, Repr

/-- The format, mode and fields of an instruction. -/
def wireOf : Instr → Wire
  | .wr32 c k r d => ⟨.dcr1, .singleWrite, c, k, r, d.setWidth 64⟩
  | .rd32 c k r d => ⟨.dcr1, .singleRead, c, k, r, d.setWidth 64⟩
  | .wrc32 c k r d => ⟨.dcr1, .chipWideWrite, c, k, r, d.setWidth 64⟩
  | .wra32 c k r d => ⟨.dcr1, .multicastWrite, c, k, r, d.setWidth 64⟩
  | .wr64 c k r d => ⟨.sc1, .singleWrite, c, k, r, d⟩
  | .rd64 c k r d => ⟨.sc1, .singleRead, c, k, r, d⟩
  | .wrc64 c k r d => ⟨.sc1, .chipWideWrite, c, k, r, d⟩
  | .wra64 c k r d => ⟨.sc1, .multicastWrite, c, k, r, d⟩

/-- The logical frame an instruction stands for, its register field as it is on the wire (R102). -/
def frameOf (board : Nat) (i : Instr) : Frame where
  mode := (wireOf i).mode
  board := board
  chip := (wireOf i).chip.toNat
  core := (wireOf i).core.toNat
  reg := (wireOf i).reg.toNat
  data := (wireOf i).data.toNat

/-! ## The codec of logical frames -/

/-- Field and operand assembly (R95 to R100): every field truncated to its width (R103), the core
field zeroed in the broadcast modes (R97), the register address of a read shifted left by the
erratum amount and kept to 7 bits (R98, R99). -/
def assemble (v : Variant) (shift : Nat) (f : Frame) : Instr :=
  let c := BitVec.ofNat 7 f.chip
  let k := if broadcast f.mode then 0 else BitVec.ofNat 8 f.core
  let r := if f.mode = .singleRead then BitVec.ofNat 7 (f.reg <<< shift) else BitVec.ofNat 7 f.reg
  match v with
  | .dcr1 => instr32 f.mode c k r (BitVec.ofNat 32 f.data)
  | .sc1 => instr64 f.mode c k r (BitVec.ofNat 64 f.data)

/-- `Encode(cfg, f)` (R120). -/
def encodeFrame (v : Variant) (shift : Nat) (f : Frame) : List Byte :=
  encode (assemble v shift f)

/-- `Decode(cfg, buf)` (R125): the header fields as they stand in the buffer (R102), the data shifted
right by the erratum amount whatever the mode (R101, R126). The wire carries no board index, so the
caller names it. `none` is for a buffer that is not `cfg.L` bytes long. -/
def decodeFrame (v : Variant) (shift board : Nat) (buf : List Byte) : Option Frame :=
  match decode buf with
  | .error _ => none
  | .ok i =>
    if (wireOf i).fmt = v then
      some { frameOf board i with data := (wireOf i).data.toNat >>> shift }
    else none

end Sys2Proof
end

