-- ==== Sys2Proof/Machine/Store.lean ====
section
/-! DEFINITION. Sparse data by key: a list of (key, value) pairs in one canonical form, keys strictly
rising and, for a store with a default, no entry equal to the default. -/

namespace Sys2Proof.Machine

/-- A finite map from keys, as plain data. -/
abbrev Store (α : Type) := List (Nat × α)

/-- The value listed at a key. -/
def Store.look {α : Type} : Store α → Nat → Option α
  | [], _ => none
  | (a, v) :: m, k => if a = k then some v else Store.look m k

/-- List a value at a key, in key order, in place of what was listed there. -/
def Store.put {α : Type} : Store α → Nat → α → Store α
  | [], k, v => [(k, v)]
  | (a, w) :: m, k, v =>
    if k < a then (k, v) :: (a, w) :: m
    else if k = a then (k, v) :: m
    else (a, w) :: Store.put m k v

/-- List nothing at a key. -/
def Store.drop {α : Type} (m : Store α) (k : Nat) : Store α :=
  m.filter fun p => p.1 ≠ k

/-- The value at a key, `d` where none is listed. -/
def Store.lookD {α : Type} (d : α) (m : Store α) (k : Nat) : α :=
  (Store.look m k).getD d

/-- Set the value at a key of a store whose unlisted keys read as `d`: writing `d` removes the entry. -/
def Store.putD {α : Type} [DecidableEq α] (d : α) (m : Store α) (k : Nat) (v : α) : Store α :=
  if v = d then Store.drop m k else Store.put m k v

/-- The keys rise strictly. -/
abbrev Store.Sorted {α : Type} (m : Store α) : Prop :=
  (m.map Prod.fst).Pairwise (· < ·)

/-- The canonical form of a store whose unlisted keys read as `d`. -/
abbrev Store.Canon {α : Type} [DecidableEq α] (d : α) (m : Store α) : Prop :=
  Store.Sorted m ∧ ∀ p ∈ m, p.2 ≠ d

end Sys2Proof.Machine
end

