-- ==== Sys2Proof/Machine/State.lean ====
section
/-! DEFINITION. The machine's state, its reset value, and the reasons a step can stop. -/

namespace Sys2Proof.Machine

/-- A started write that the back end has not yet completed (R23): the board and the bytes. -/
structure InFlight where
  board : Nat
  bytes : List Byte
  deriving DecidableEq, Repr, Inhabited

/-- The registers of one job machine (R26 to R34). -/
structure JobMachine where
  /-- `jstate` (R30) -/
  jstate : JState
  /-- `tgt`, latched by preloadJob (R27) -/
  tgt : Target
  /-- `job`, the register file, latched by preloadJob and not written until the machine is Idle again (R26, R28) -/
  job : Job
  /-- `jnonce` (R32) -/
  jnonce : Word
  /-- `jerr`, meaningful only in `Error` (R33) -/
  jerr : Err
  deriving DecidableEq, Repr, Inhabited

/-- `cal[b]`, the BoardCalibrationState (R35 to R41). -/
structure BoardCal where
  /-- the board was detected (R36) -/
  present : Bool
  /-- the variant that selects `cfg` for the board (R36) -/
  variant : Variant
  /-- `cal[b].pass`, bit `c` for chip `c` (R37) -/
  pass : ChipBits
  /-- `cal[b].awake` (R38) -/
  awake : Nat
  /-- `cal[b].level`: a larger value is a lower voltage (R39) -/
  level : Int
  /-- `cal[b].state` (R40) -/
  state : CalState
  /-- `cal[b].status` (R40) -/
  status : CalStatus
  /-- `cal[b].div[c]` (R41); an unlisted chip reads as divider 1 -/
  div : Store Divider
  /-- `cal[b].bias[c]` (R41); an unlisted chip reads as bias 0 -/
  bias : Store Bias
  deriving DecidableEq, Repr, Inhabited

/-- What the supply and clock collaborators hold for one board (R54 items 3 and 4, R325). -/
structure BoardHw where
  supplyOn : Bool
  supplyLevel : Int
  clockOn : Bool
  deriving DecidableEq, Repr, Inhabited

/-- The value of a job machine nothing has used: `jstate = Idle` (R56). The other four registers are
unspecified at reset; their values here are a DESIGN CHOICE (unsafe). -/
def JobMachine.initial : JobMachine where
  jstate := .idle
  tgt := { board := 0, chip := 0, core := 0, bmode := .chipWide }
  job := { m := Vector.replicate 12 0, v := Vector.replicate 16 0, lb := 0, ub := 0, matchVal := 0, expected := 0 }
  jnonce := 0
  jerr := .invalidArgument

/-- The divider of a chip nothing has tuned: unspecified at reset (R56). DESIGN CHOICE, unsafe. -/
def Divider.initial : Divider := .d1

/-- The bias of a chip nothing has tuned, bias 0: unspecified at reset (R56). DESIGN CHOICE, unsafe. -/
def Bias.initial : Bias := 5

/-- A board's calibration state at reset (R56): not present, not initialised, nothing passed. `variant`
and `level` are unspecified there; their values here are a DESIGN CHOICE (unsafe). -/
def BoardCal.initial : BoardCal where
  present := false
  variant := .sc1
  pass := 0
  awake := 0
  level := 0
  state := .notInitialized
  status := .notInitialized
  div := []
  bias := []

/-- Supply and clock after power-up: not in the source (R58). DESIGN CHOICE, unsafe. -/
def BoardHw.initial : BoardHw where
  supplyOn := false
  supplyLevel := 0
  clockOn := false

/-- The whole machine: the controller's state `(disp, jobs, cal)` of R20, the parameters of every step,
what the other agents hold, and the model's own fields (scripted answers, draw counter, trace, result). -/
structure State where
  /-- the parameters `cfg` (one per variant) and `plat` (R7, R9, R20): no step changes them -/
  par : Params
  /-- what the caller and the environment do next, in order (R5, R29) -/
  pending : List Event
  /-- the TransferFrame register `f` (R21) -/
  f : Frame
  /-- the output byte buffer (R22) -/
  txbuf : List Byte
  /-- the input byte buffer (R22) -/
  rxbuf : List Byte
  /-- `disp.inflight` (R23) -/
  inflight : Option InFlight
  /-- `disp.mux`, the memo of the multiplexer target (R24) -/
  mux : Mux
  /-- `disp.cs`, one bit a board (R25); an unlisted board reads as 0 -/
  cs : Store Bool
  /-- `jobs`, by machine (R20, R34); an unlisted machine reads as `JobMachine.initial` -/
  jobs : Store JobMachine
  /-- `cal`, by board (R20, R35); an unlisted board reads as `BoardCal.initial` -/
  cal : Store BoardCal
  /-- where the multiplexer really points (R54 item 5): it can differ from the memo (R354) -/
  route : Mux
  /-- whether another user of the shared bus holds it (R143) -/
  otherHolds : Bool
  /-- supply and clock by board (R54, R325); an unlisted board reads as `BoardHw.initial` -/
  hw : Store BoardHw
  /-- the register bus (R54 item 1): the value last delivered to each register, by `regKey`. A register
  not listed has no known value (R57): nothing was delivered to it, or what was known of it has been
  lost (R333; spec/93_implementation_defined.md U7). -/
  regs : Store Word
  /-- the model's own: what the other agents do before each coming action of a command (R6, R210), one
  entry an action; nothing when none is left -/
  between : List (List EnvMove)
  /-- the model's own: scripted answers to the bus wait, `true` when it ends in time (R142) -/
  waitAnswers : List Bool
  /-- the model's own: scripted answers to synchronous reads, `none` a back-end timeout (R75, R147) -/
  rxAnswers : List (Option Rx)
  /-- the model's own: scripted samples of DONE (R310) -/
  doneAnswers : List ChipBits
  /-- the model's own: scripted samples of NONCE (R310) -/
  nonceAnswers : List ChipBits
  /-- the model's own: scripted answers of `Supply.sane` (R325) -/
  saneAnswers : List Bool
  /-- the model's own: scripted answers to whether an abandoned write landed (U4) -/
  landAnswers : List Bool
  /-- the model's own: the counter of free values -/
  draws : Nat
  /-- the model's own: every collaborator call and environment move so far, oldest first (the effects of R29) -/
  trace : List Effect
  /-- the model's own: what the last command returned (R302) -/
  result : CmdResult
  deriving DecidableEq, Repr

/-- Why the machine stops with a fault. The error results of R300 are not among these: they end a
command with a next state. -/
inductive Fault where
  /-- Raised by a frame, `transfer` or `preload` whose board has no chip-select line, which R303 calls a
  precondition violation and gives no effect. Safe: the model stops where the spec says nothing. -/
  | noSuchBoard (board : Nat)
  deriving DecidableEq, Repr

/-- Why a step has no meaning. -/
inductive Refusal where
  /-- Raised by exec for an instruction without a meaning yet; no arm raises it now. Safe. -/
  | notModelled (mnemonic : String)
  /-- Raised by step for bytes that are no frame: neither 7 nor 11 of them (R90). Safe. -/
  | undecodable (length : Nat)
  /-- Raised by a frame of the format of the variant the addressed board is not: "Mixing variants on
  one board is not provided for" (R104). Safe. -/
  | formatMismatch (board : Nat)
  /-- Raised by a command issued in a state that does not admit it: no step exists (R304, U13). Safe. -/
  | notAdmitted
  /-- Raised by a move of another agent that is not enabled (R149), or that names a chip outside the
  platform: no step exists. Safe. -/
  | noMove
  deriving DecidableEq, Repr

/-- The machine right after reset: the table of R56, and the model's own values where it says
"unspecified" or where the spec gives none. `cs` is `disp.cs` and stands for the chip-select lines too: R342 leaves open
whether the lines are deasserted at power-on (DESIGN CHOICE, unsafe, log entry 11). -/
def State.reset : State where
  par := Config.exParams
  pending := []
  f := { mode := .singleWrite, board := 0, chip := 0, core := 0, reg := 0, data := 0 }
  txbuf := List.replicate 11 0
  rxbuf := List.replicate 11 0
  inflight := none
  mux := .unknown
  cs := []
  jobs := []
  cal := []
  route := .unknown
  otherHolds := false
  hw := []
  regs := []
  between := []
  waitAnswers := []
  rxAnswers := []
  doneAnswers := []
  nonceAnswers := []
  saneAnswers := []
  landAnswers := []
  draws := 0
  trace := []
  result := .none

end Sys2Proof.Machine
end

