-- ==== Sys2Proof/Machine/Operands.lean ====
section
/-! DEFINITION. Operands: the fields of `cfg` that a variant fixes (R2, R7), register addresses (R52),
the frames that the access primitives build (R62 to R65), board and machine look-ups, range checks (R303). -/

namespace Sys2Proof.Machine

/-- `W` (R2). -/
def Variant.width : Variant → Nat
  | .sc1 => 64
  | .dcr1 => 32

/-- `N`, the data bytes of a frame (R7). -/
def Variant.dataBytes : Variant → Nat
  | .sc1 => 8
  | .dcr1 => 4

/-- `L`, the bytes of a frame (R7, R90). -/
def Variant.frameLen : Variant → Nat
  | .sc1 => 11
  | .dcr1 => 7

/-- `CORES` (R2). -/
def Variant.cores : Variant → Nat
  | .sc1 => 64
  | .dcr1 => 128

/-- `M_COUNT` (R2). -/
def Variant.mCount : Variant → Nat
  | .sc1 => 10
  | .dcr1 => 13

/-- `M_RESERVED` (R2). -/
def Variant.mReserved : Variant → Nat
  | .sc1 => 4
  | .dcr1 => 3

/-- `M_GAP_FROM` (R7): none on SC1. -/
def Variant.mGapFrom : Variant → Option Nat
  | .sc1 => none
  | .dcr1 => some 10

/-- `JOB_HAS_V` (R7). -/
def Variant.jobHasV : Variant → Bool
  | .sc1 => true
  | .dcr1 => false

/-- `trunc_W` (R12) on a value held in 64 bits. -/
def truncW (v : Variant) (x : Word) : Word :=
  match v with
  | .sc1 => x
  | .dcr1 => (x.setWidth 32).setWidth 64

/-- The M indices that exist: every one but the reserved one, ascending (R164, R165). -/
def admittedM (v : Variant) : List Nat :=
  (List.range v.mCount).filter fun i => i ≠ v.mReserved

/-- `addrM(i)` (R52): contiguous from `M0`, with the one correction from `M_GAP_FROM` on. -/
def addrM (v : Variant) (c : ChipVariant) (i : Nat) : BitVec 7 :=
  let gap : Int := match v.mGapFrom with
    | none => 0
    | some g => if g ≤ i then c.gapOffset else 0
  BitVec.ofInt 7 (c.reg.m0.toNat + i + gap)

/-- The word of admitted M index `i` in a list that holds the admitted ones in ascending order (R26). -/
def mWord (v : Variant) (m : Vector Word 12) (i : Nat) : Word :=
  m.toList.getD (if i < v.mReserved then i else i - 1) 0

/-- The address of `V[j]` (R44). -/
def addrV (c : ChipVariant) (j : Nat) : BitVec 7 :=
  c.reg.v.toList.getD j 0

/-- The address of `FDR[0]` (R49): the one FIFO-data register the controller reads. -/
def addrFdr0 (c : ChipVariant) : BitVec 7 :=
  c.reg.fdr.toList.getD 0 0

/-- The core address that selects a chip-level register (R53). -/
def ChipVariant.chipCore (c : ChipVariant) : Nat :=
  c.coreChipReg.toNat

/-! ## Look-ups in the state -/

/-- The calibration state of a board. -/
def State.board (s : State) (b : Nat) : BoardCal :=
  Store.lookD BoardCal.initial s.cal b

/-- Write the calibration state of a board. -/
def State.setBoard (s : State) (b : Nat) (c : BoardCal) : State :=
  { s with cal := Store.putD BoardCal.initial s.cal b c }

/-- The registers of a job machine. -/
def State.machine (s : State) (m : Nat) : JobMachine :=
  Store.lookD JobMachine.initial s.jobs m

/-- Write the registers of a job machine. -/
def State.setMachine (s : State) (m : Nat) (j : JobMachine) : State :=
  { s with jobs := Store.putD JobMachine.initial s.jobs m j }

/-- The supply and clock of a board. -/
def State.hwOf (s : State) (b : Nat) : BoardHw :=
  Store.lookD BoardHw.initial s.hw b

/-- Write the supply and clock of a board. -/
def State.setHw (s : State) (b : Nat) (h : BoardHw) : State :=
  { s with hw := Store.putD BoardHw.initial s.hw b h }

/-- Write the TransferFrame register (R21). -/
def State.setFrame (s : State) (f : Frame) : State :=
  { s with f := f }

/-- The level of a board's chip-select line (R25). -/
def State.csOf (s : State) (b : Nat) : Bool :=
  Store.lookD false s.cs b

/-- The configuration of a variant. -/
def Params.chip (p : Params) : Variant → ChipVariant
  | .sc1 => p.sc1
  | .dcr1 => p.dcr1

/-- The variant of a board (R36). -/
def State.variantOf (s : State) (b : Nat) : Variant :=
  (s.board b).variant

/-- The configuration of a board (R36). -/
def State.cfgOf (s : State) (b : Nat) : ChipVariant :=
  s.par.chip (s.variantOf b)

/-- The divider of a chip (R41). -/
def BoardCal.divOf (c : BoardCal) (chip : Nat) : Divider :=
  Store.lookD Divider.initial c.div chip

/-- The bias of a chip (R41). -/
def BoardCal.biasOf (c : BoardCal) (chip : Nat) : Bias :=
  Store.lookD Bias.initial c.bias chip

/-- The `plat.CHIPS` low bits (R310). -/
def chipMask (chips : Nat) : ChipBits :=
  BitVec.ofNat 128 (2 ^ chips - 1)

/-! ## The address of a register on the bus, and the locations a frame addresses -/

/-- The register bus as one range of numbers: `A(b, c, k, r)` with 7 bits of chip, 8 of core, 7 of
register (R54, R71). -/
def regKey (b c k r : Nat) : Nat :=
  ((b * 128 + c) * 256 + k) * 128 + r

/-- The value last delivered to `A(b, c, k, r)`, if any. -/
def State.regAt (s : State) (b c k r : Nat) : Option Word :=
  Store.look s.regs (regKey b c k r)

/-- The (chip, core) pairs whose register a frame writes (R61): one for a single write, every core of
the chip for a chip-wide write, every core of every chip for a multicast, whose chip field is
ignored (R108); none for a read. -/
def locations (chips : Nat) (w : Wire) : List (Nat × Nat) :=
  match w.mode with
  | .singleWrite => [(w.chip.toNat, w.core.toNat)]
  | .singleRead => []
  | .chipWideWrite => (List.range w.fmt.cores).map fun k => (w.chip.toNat, k)
  | .multicastWrite =>
    (List.range chips).flatMap fun c => (List.range w.fmt.cores).map fun k => (c, k)

/-- The addresses of the registers the controller may write or read (table B4), the reserved M index
left out (U1). -/
def assignedRegs (v : Variant) (c : ChipVariant) : List (BitVec 7) :=
  c.reg.v.toList ++ (admittedM v).map (addrM v c)
    ++ [c.reg.lb, c.reg.ub, c.reg.limit, c.reg.stepReg, c.reg.matchReg, c.reg.ecr, c.reg.fcr, c.reg.esr, c.reg.ivr,
        c.reg.ocra, c.reg.ocrb]
    ++ c.reg.fdr.toList

/-- The registers of level `chip` (table B4, R53). -/
def chipLevel (c : ChipVariant) (r : BitVec 7) : Bool :=
  r = c.reg.ivr ∨ r = c.reg.ocra ∨ r = c.reg.ocrb

/-- Whether the spec says what a write frame does on the chips. The others are those of
spec/93_implementation_defined.md U7 (an unassigned core or register address, a chip beyond the string, a
register reached at the wrong level) and the reserved M index of U1: their effect is any value. -/
def effectGiven (p : Params) (w : Wire) : Bool :=
  let c := p.chip w.fmt
  decide (w.reg ∈ assignedRegs w.fmt c) &&
    match w.mode with
    | .singleWrite =>
      decide (w.chip.toNat < p.plat.chips) &&
        (if chipLevel c w.reg then decide (w.core.toNat = c.chipCore) else decide (w.core.toNat < w.fmt.cores))
    | .singleRead => true
    | .chipWideWrite => decide (w.chip.toNat < p.plat.chips) && !chipLevel c w.reg
    | .multicastWrite => !chipLevel c w.reg

/-- The number of register addresses of one board. -/
def boardSpan : Nat := 128 * 256 * 128

/-- Every register of board `b` loses its known value. -/
def forgetBoard (b : Nat) (m : Store Word) : Store Word :=
  m.filter fun p => p.1 / boardSpan ≠ b

/-! ## The frames the access primitives build -/

/-- The frame of `MemRead` (R62): the data field is 0. -/
def readFrame (b c k : Nat) (r : BitVec 7) : Frame where
  mode := .singleRead
  board := b
  chip := c
  core := k
  reg := r.toNat
  data := 0

/-- The frame of `MemWrite` (R63): the data is `trunc_W` of the value. -/
def writeFrame (v : Variant) (b c k : Nat) (r : BitVec 7) (x : Word) : Frame where
  mode := .singleWrite
  board := b
  chip := c
  core := k
  reg := r.toNat
  data := (truncW v x).toNat

/-- The frame of `MemWriteChip` (R64): core 0. -/
def chipFrame (v : Variant) (b c : Nat) (r : BitVec 7) (x : Word) : Frame where
  mode := .chipWideWrite
  board := b
  chip := c
  core := 0
  reg := r.toNat
  data := (truncW v x).toNat

/-- The frame of `MemWriteAll` (R65): chip 0 and core 0. -/
def allFrame (v : Variant) (b : Nat) (r : BitVec 7) (x : Word) : Frame where
  mode := .multicastWrite
  board := b
  chip := 0
  core := 0
  reg := r.toNat
  data := (truncW v x).toNat

/-- `BWrite(r, v)` of R163: the frame the target's broadcast mode selects. -/
def bFrame (v : Variant) (t : Target) (r : BitVec 7) (x : Word) : Frame :=
  match t.bmode with
  | .chipWide => chipFrame v t.board t.chip r x
  | .multicast => allFrame v t.board r x

/-! ## Range checks -/

/-- The board check of R303: out of range or not present gives `NotFound`. -/
def checkBoard (s : State) (b : Nat) : Option Raised :=
  if s.par.plat.boards ≤ b ∨ (s.board b).present = false then some ⟨.notFound, .index b⟩ else none

/-- The checks of R303 on a job's target, board before chip before core; the core operand of
`preloadJob` must be a core index, not the sentinel. -/
def checkTarget (s : State) (t : Target) : Option Raised :=
  match checkBoard s t.board with
  | some e => some e
  | none =>
    if s.par.plat.chips ≤ t.chip then some ⟨.unsupported, .index t.chip⟩
    else if (s.variantOf t.board).cores ≤ t.core then some ⟨.unsupported, .index t.core⟩
    else none

end Sys2Proof.Machine
end

