-- ==== Sys2Proof/Machine/Flags.lean ====
section
/-! DEFINITION. The flag and field computations: the engine-status and interrupt-vector fields (R47,
R48), the classification of a calibration readback (R234), the pass mask and its count (R236). The
codec writes no flag (R131). -/

namespace Sys2Proof.Machine

/-- Whether a read of engine-status shows busy or done; its other bits are ignored (R47, R189). -/
def esrSeen (c : ChipVariant) (x : Word) : Bool :=
  x &&& (c.esrBusy ||| c.esrDone) ≠ 0

/-- `ivr_core(v)` (R48). -/
def ivrCore (c : ChipVariant) (x : Word) : Nat :=
  x.toNat / 2 ^ c.ivrCoreLo % 2 ^ c.ivrCoreWidth

/-- `ivr_mask(v)` (R48). -/
def ivrMask (c : ChipVariant) (x : Word) : Nat :=
  x.toNat / 2 ^ c.ivrMaskLo % 2 ^ c.ivrMaskWidth

/-- The check of R195: the expected core, and exactly the first FIFO slot. -/
def ivrExpected (c : ChipVariant) (core : Nat) (x : Word) : Bool :=
  ivrCore c x = core ∧ ivrMask c x = c.ivrFirstSlot

/-- The data value that resets an engine: both reset bits (R185, R266). -/
def ecrReset (c : ChipVariant) : Word :=
  c.ecrResetSpi ||| c.ecrResetCore

/-- `ALL_ONES` (R234): what a bus stuck at one decodes to. -/
def allOnes (v : Variant) (c : ChipVariant) : Word :=
  BitVec.ofNat 64 ((2 ^ v.width - 1) >>> c.shift)

/-- The outcome of one calibration attempt that had no transfer error (R234). -/
inductive Attempt where
  | pass
  | clearlyWrong
  | nearMiss
  deriving DecidableEq, Repr

/-- The classification of R234: the pattern is tested before all-zero and all-one. -/
def classify (v : Variant) (c : ChipVariant) (x : Word) : Attempt :=
  if x = c.ocrbStartup then .pass
  else if x = 0 ∨ x = allOnes v c then .clearlyWrong
  else .nearMiss

/-- The number of set bits among the low `n` (R12 `popcount`). -/
def countBits (p : ChipBits) : Nat → Nat
  | 0 => 0
  | n + 1 => countBits p n + (p.getLsbD n).toNat

/-- The pass mask with one chip's bit written. -/
def setBit (p : ChipBits) (ci : Nat) (v : Bool) : ChipBits :=
  if v then p ||| (1#128 <<< ci) else p &&& ~~~ (1#128 <<< ci)

/-- `Update(ci, r)` (R236): the bit and the count move only on a transition. -/
def updatePass (cal : BoardCal) (ci : Nat) (passed : Bool) : BoardCal :=
  if passed ∧ cal.pass.getLsbD ci = false then
    { cal with pass := setBit cal.pass ci true, awake := cal.awake + 1 }
  else if passed = false ∧ cal.pass.getLsbD ci then
    { cal with pass := setBit cal.pass ci false, awake := cal.awake - 1 }
  else cal

/-- The chips whose pass bit is clear (R246). -/
def failedChips (chips : Nat) (p : ChipBits) : List Nat :=
  (List.range chips).filter fun c => p.getLsbD c = false

end Sys2Proof.Machine
end

