-- ==== Sys2Proof/Machine/Ops.lean ====
section
/-! DEFINITION. The named operations over the state: the environment's answers, the bus transaction of
spec/41_transfer.md, the access primitives of spec/20_memory.md, the collaborator calls of R320 to R327, and entry to and return from a job machine's error state (R181, R208, R315, R316). -/

namespace Sys2Proof.Machine

/-- The outcome of a step of a command: a value or the error that ends the command, and the state. -/
abbrev Res (α : Type) := Except Raised α × State

/-- Go on after a success; an error ends the command (R12 `raise`). -/
def Res.andThen {α β : Type} (r : Res α) (k : α → State → Res β) : Res β :=
  match r with
  | (.ok a, s) => k a s
  | (.error e, s) => (.error e, s)

/-- Record a collaborator call or an environment move. -/
def State.emit (s : State) (e : Effect) : State :=
  { s with trace := s.trace ++ [e] }

/-- The error `Busy` of the dispatcher (R301). -/
def raisedBusy : Raised := ⟨.busy, .nothing⟩

/-! ## Answers of the environment (R75): the scripted one, and a free value when none is left -/

/-- Whether the bus wait ends in time (R142). -/
def drawWait (s : State) : Bool × State :=
  match s.waitAnswers with
  | a :: as => (a, { s with waitAnswers := as })
  | [] => (Config.freeWait s.draws, { s with draws := s.draws + 1 })

/-- The answer of a synchronous read (R147). -/
def drawRx (s : State) : Option Rx × State :=
  match s.rxAnswers with
  | a :: as => (a, { s with rxAnswers := as })
  | [] => (Config.freeRxAnswer s.draws, { s with draws := s.draws + 1 })

/-- The answer of `Supply.sane` (R325). -/
def drawSane (s : State) : Bool × State :=
  match s.saneAnswers with
  | a :: as => (a, { s with saneAnswers := as })
  | [] => (Config.freeSane s.draws, { s with draws := s.draws + 1 })

/-- Whether a write that recovery abandons reached its register (U4). -/
def drawLand (s : State) : Bool × State :=
  match s.landAnswers with
  | a :: as => (a, { s with landAnswers := as })
  | [] => (Config.freeLand s.draws, { s with draws := s.draws + 1 })

/-- A raw sample of a summary line (R310). -/
def drawLine (l : Line) (s : State) : ChipBits × State :=
  match l with
  | .done =>
    match s.doneAnswers with
    | a :: as => (a, { s with doneAnswers := as })
    | [] => (Config.freeLine s.draws, { s with draws := s.draws + 1 })
  | .nonce =>
    match s.nonceAnswers with
    | a :: as => (a, { s with nonceAnswers := as })
    | [] => (Config.freeLine s.draws, { s with draws := s.draws + 1 })

/-! ## The bus -/

/-- `Bus.idle()` is false (R143, R322). -/
def State.busHeld (s : State) : Bool :=
  s.inflight.isSome || s.otherHolds

/-- What a frame delivered to board `b` does to the known registers (R61, R149): each location it
addresses holds its data. After a frame whose effect the spec leaves as any value (U7), nothing is known
of the board's registers. -/
def deliver (p : Params) (b : Nat) (w : Wire) (m : Store Word) : Store Word :=
  if effectGiven p w then
    (locations p.plat.chips w).foldl (fun m ck => Store.put m (regKey b ck.1 ck.2 w.reg.toNat) w.data) m
  else forgetBoard b m

/-- Whether bytes sent to board `b` now reach chips that can take them: the multiplexer points to the ASICs
(R354), and the board's supply is on (without it a write succeeds into nothing, R367). -/
def State.reaches (s : State) (b : Nat) : Bool :=
  s.route = .asic && (s.hwOf b).supplyOn

/-- The register bus after the bytes of a started write have been delivered. When the multiplexer
points elsewhere the frame goes to the wrong target (R354), and a board whose supply is off takes nothing
(R367). That no other board takes it is a DESIGN CHOICE as long as the lines may not be as `disp.cs` says (R342; log
entry 11). -/
def deliverBytes (s : State) (fl : InFlight) : Store Word :=
  if s.reaches fl.board then
    match decode fl.bytes with
    | .ok i => deliver s.par fl.board (wireOf i) s.regs
    | .error _ => s.regs
  else s.regs

/-- Back-end completion (R149): the bytes are delivered, the chip-select is deasserted, `inflight` is
cleared. Nothing happens when no write is in flight. -/
def land (s : State) : State :=
  match s.inflight with
  | none => s
  | some fl =>
    { s with
      regs := deliverBytes s fl
      cs := Store.putD false s.cs fl.board false
      inflight := none }.emit (.landed fl.board fl.bytes (s.reaches fl.board))

/-- The started write fails physically after its `Ok` (R148, U4): the chip-select is deasserted and `inflight`
cleared as at its completion, and no register takes the data. That they took it all the same is `land`. -/
def lose (s : State) : State :=
  match s.inflight with
  | none => s
  | some fl =>
    { s with
      cs := Store.putD false s.cs fl.board false
      inflight := none }.emit (.landed fl.board fl.bytes false)

/-- One move of another agent (R5). Setting the multiplexer has no effect while the bus is held (R144,
R323); a user that does not keep the memo true leaves the dispatcher believing the old target (R354). -/
def envMove (m : EnvMove) (s : State) : State :=
  match m with
  | .backendDone => land s
  | .backendLost => lose s
  | .busUser holds => { s with otherHolds := holds }
  | .muxUser t updatesMemo =>
    if s.busHeld then s else { s with route := t, mux := if updatesMemo then t else s.mux }
  | .engine b c k found => s.emit (.engine b c k found)
  | .candidate b c k slot x => s.emit (.candidate b c k slot x)

/-- What the other agents do before the next action of a command (R6, R210). -/
def environment (s : State) : State :=
  match s.between with
  | [] => s
  | ms :: rest => ms.foldl (fun s m => envMove m s) { s with between := rest }

/-! ## Collaborator calls: before each of them the other agents may move (R6) -/

/-- `Lines.DONE(b)`, `Lines.NONCE(b)` (R310): one bit a chip. -/
def readLine (l : Line) (b : Nat) (s : State) : ChipBits × State :=
  let (a, s) := drawLine l (environment s)
  let a := a &&& chipMask s.par.plat.chips
  (a, s.emit (.lines l b a))

/-- `Clock.enable(b, on)` (R325). -/
def clockEnable (b : Nat) (on : Bool) (s : State) : State :=
  let s := environment s
  (s.setHw b { s.hwOf b with clockOn := on }).emit (.clockEnable b on)

/-- `Supply.setLevel(b, level)` (R325). -/
def supplySetLevel (b : Nat) (l : Int) (s : State) : State :=
  let s := environment s
  (s.setHw b { s.hwOf b with supplyLevel := l }).emit (.supplySetLevel b l)

/-- `Supply.enable(b, on)` (R325). After a supply-off every register of the board is again without a
known value (R333), and so it is when the supply comes on again (U2). -/
def supplyEnable (b : Nat) (on : Bool) (s : State) : State :=
  let s := environment s
  let s := if on && (s.hwOf b).supplyOn then s else { s with regs := forgetBoard b s.regs }
  (s.setHw b { s.hwOf b with supplyOn := on }).emit (.supplyEnable b on)

/-- `Supply.getLevel(b)` (R325): no rule uses it. -/
def supplyGetLevel (b : Nat) (s : State) : Int :=
  (s.hwOf b).supplyLevel

/-- `Supply.getEnable(b)` (R325): no rule uses it. -/
def supplyGetEnable (b : Nat) (s : State) : Bool :=
  (s.hwOf b).supplyOn

/-- `Supply.sane(b)` (R325). -/
def supplySane (b : Nat) (s : State) : Bool × State :=
  let (a, s) := drawSane (environment s)
  (a, s.emit (.supplySane b a))

/-- `Delay(t)` (R326). -/
def delay (d : Duration) (s : State) : State :=
  (environment s).emit (.delay d)

/-- `log(msg)` (R327). -/
def logMsg (m : LogMsg) (s : State) : State :=
  s.emit (.log m)

/-! ## Bus transactions -/

/-- The abandoned write of a recovery (R305, U4): its register holds its old or its new value. -/
def abandon (s : State) : State :=
  match s.inflight with
  | none => s
  | some fl =>
    let (a, s) := drawLand s
    if a then
      { s with regs := deliverBytes s fl, inflight := none }.emit (.landed fl.board fl.bytes (s.reaches fl.board))
    else { s with inflight := none }

/-- `Recovery()` (R305): every chip-select is deasserted, and the write in flight is abandoned. -/
def recovery (s : State) : State :=
  let s := abandon s
  { s with
    cs := []
    trace := s.trace ++ (List.range s.par.plat.boards).map Effect.csDeassert }

/-- Step 2 of a transfer (R142): an idle bus ends the wait at once; a held one ends it when the back end
completes the write in flight and the other user lets go, or the wait expires and recovery runs. -/
def busWait (s : State) : Bool × State :=
  if s.busHeld = false then (true, s)
  else
    let (a, s) := drawWait s
    if a then (true, { land s with otherHolds := false }) else (false, recovery s)

/-- Step 3, first half (R144): the multiplexer is set only where the memo differs. -/
def routeMux (s : State) : State :=
  if s.mux = .asic then s
  else { s with mux := .asic, route := .asic }.emit (.muxSet .asic)

/-- Step 3, second half (R145). -/
def assertCs (b : Nat) (s : State) : State :=
  { s with cs := Store.putD false s.cs b true }.emit (.csAssert b)

/-- Steps 2 to 4 (R142 to R146): `true` with the bus acquired and `tx` in `txbuf`. -/
def openBus (b : Nat) (tx : List Byte) (s : State) : Bool × State :=
  match busWait s with
  | (false, s) => (false, s)
  | (true, s) => (true, { assertCs b (routeMux s) with txbuf := tx })

/-- The bytes of an answer as they stand in `rxbuf` (R109, R67). -/
def rxBytes (v : Variant) (rx : Rx) : List Byte :=
  beBytes 3 rx.header.toNat ++ beBytes v.dataBytes rx.raw.toNat

/-- `Decode(cfg, rxbuf).data` (R147, R101). -/
def readData (v : Variant) (shift : Nat) (buf : List Byte) : Word :=
  match decodeFrame v shift 0 buf with
  | some f => BitVec.ofNat 64 f.data
  | none => 0

/-- A read transaction (R147): synchronous; a back-end timeout runs recovery and is `Busy`, and leaves
any value in `rxbuf`. -/
def busRead (b : Nat) (v : Variant) (shift : Nat) (tx : List Byte) (s : State) : Res Word :=
  match openBus b tx s with
  | (false, s) => (.error raisedBusy, s)
  | (true, s) =>
    match drawRx s with
    | (none, s) =>
      (.error raisedBusy,
        recovery ({ s with rxbuf := rxBytes v (Config.freeRx s.draws), draws := s.draws + 1 }.emit (.xferSync b tx none)))
    | (some rx, s) =>
      let buf := rxBytes v rx
      let d := readData v shift buf
      (.ok d,
        { s with
          rxbuf := buf
          f := { s.f with data := d.toNat }
          cs := Store.putD false s.cs b false }.emit (.xferSync b tx (some buf)))

/-- A write transaction (R148): started, and left to the back end. `rxbuf` then holds any value (U3). -/
def busWrite (b : Nat) (v : Variant) (tx : List Byte) (s : State) : Res Unit :=
  match openBus b tx s with
  | (false, s) => (.error raisedBusy, s)
  | (true, s) =>
    (.ok (),
      { s with
        inflight := some ⟨b, tx⟩
        rxbuf := rxBytes v (Config.freeRx s.draws)
        draws := s.draws + 1 }.emit (.xferStart b tx))

/-! ## The transfer of a logical frame (R140), and the access primitives (R62 to R65) -/

/-- `Encode(cfg, f)` with the configuration of the frame's board. -/
def State.encodeFor (s : State) (f : Frame) : List Byte :=
  encodeFrame (s.variantOf f.board) (s.cfgOf f.board).shift f

/-- `Transfer(f)` for a read frame. -/
def transferRead (f : Frame) (s : State) : Res Word :=
  busRead f.board (s.variantOf f.board) (s.cfgOf f.board).shift (s.encodeFor f) ((environment s).setFrame f)

/-- `Transfer(f)` for a frame of a write mode. -/
def transferWrite (f : Frame) (s : State) : Res Unit :=
  busWrite f.board (s.variantOf f.board) (s.encodeFor f) ((environment s).setFrame f)

/-- `Transfer(f)` (R140): `Ok(none)` for a started write, `Ok(some d)` for a completed read. -/
def transfer (f : Frame) (s : State) : Res (Option Word) :=
  match f.mode with
  | .singleRead => (transferRead f s).andThen fun d s => (.ok (some d), s)
  | .singleWrite => (transferWrite f s).andThen fun _ s => (.ok none, s)
  | .chipWideWrite => (transferWrite f s).andThen fun _ s => (.ok none, s)
  | .multicastWrite => (transferWrite f s).andThen fun _ s => (.ok none, s)

/-- `MemRead(A(b, c, k, r), N)` (R62). -/
def memRead (b c k : Nat) (r : BitVec 7) (s : State) : Res Word :=
  transferRead (readFrame b c k r) s

/-- `MemWrite(A(b, c, k, r), N, x)` (R63). -/
def memWrite (b c k : Nat) (r : BitVec 7) (x : Word) (s : State) : Res Unit :=
  transferWrite (writeFrame (s.variantOf b) b c k r x) s

/-- `MemWriteAll(b, r, N, x)` (R65). -/
def memWriteAll (b : Nat) (r : BitVec 7) (x : Word) (s : State) : Res Unit :=
  transferWrite (allFrame (s.variantOf b) b r x) s

/-- Start the frames of a list in order, stopping at the first error (R168). -/
def sendAll : List Frame → State → Res Unit
  | [], s => (.ok (), s)
  | f :: fs, s => (transferWrite f s).andThen fun _ s => sendAll fs s

/-- The first of two results that is an error, as the outcome of a step and the clean-up it owes: the
earlier error is reported and the later one goes to the log (R191, R302). -/
def firstError (r : Except Raised Unit) (cleanup : Res Unit) : Res Unit :=
  match r, cleanup with
  | .ok _, r2 => r2
  | .error e, (.ok _, s) => (.error e, s)
  | .error e, (.error e2, s) => (.error e, logMsg (.secondError e2) s)

/-- The part of a transfer that runs a wire frame handed to the dispatcher (R140 steps 2 to 6): the
bytes go out as they stand, and the result is the command's. -/
def runWire (b : Nat) (i : Instr) (s : State) : State :=
  let v := (wireOf i).fmt
  let s := s.setFrame (frameOf b i)
  match (wireOf i).mode with
  | .singleRead =>
    match busRead b v (s.cfgOf b).shift (encode i) s with
    | (.ok d, s) => { s with result := .transferred (some d) }
    | (.error e, s) => { s with result := .err e }
  | .singleWrite | .chipWideWrite | .multicastWrite =>
    match busWrite b v (encode i) s with
    | (.ok _, s) => { s with result := .transferred none }
    | (.error e, s) => { s with result := .err e }

/-- A wire frame on the board `f.board` names: a board with no chip-select line faults (R303), a
board of the other format refuses (R104). -/
def execWire (i : Instr) (s : State) : Host.Outcome State Fault Refusal :=
  if s.par.plat.boards ≤ s.f.board then .fault (.noSuchBoard s.f.board)
  else if s.variantOf s.f.board ≠ (wireOf i).fmt then .refused (.formatMismatch s.f.board)
  else .next (runWire s.f.board i s)

/-! ## Entry to and return from a job machine's error state -/

/-- Entry (R181, R315): `jstate` and `jerr` are written and the error is the command's result; `tgt`
stays latched and nothing else is saved. -/
def enterError (m : Nat) (e : Raised) (s : State) : State :=
  { s.setMachine m { s.machine m with jstate := .error, jerr := e.err } with result := .err e }

/-- Return (R208, R316): the machine is `Idle` again; `tgt`, `jnonce` and `jerr` become unspecified, so
they are free values. No frame is sent. -/
def leaveError (m : Nat) (s : State) : State :=
  { s.setMachine m
      { s.machine m with
        jstate := .idle
        tgt := Config.freeTarget s.draws
        jnonce := Config.freeNonce s.draws
        jerr := Config.freeErr s.draws } with
    draws := s.draws + 1
    result := .ok }

end Sys2Proof.Machine
end

