-- ==== Sys2Proof/Machine/Oscillator.lean ====
section
/-! DEFINITION. The Oscillator Control Builder (spec/46_oscillator.md). -/

namespace Sys2Proof.Machine

/-- The divider a number names: 1, 2, 4 or 8 (R280, R285). -/
def dividerOf? (n : Nat) : Option Divider :=
  if n = 1 then some .d1
  else if n = 2 then some .d2
  else if n = 4 then some .d4
  else if n = 8 then some .d8
  else none

/-- The signed bias an index stands for (R41). -/
def biasInt (b : Bias) : Int := (b.val : Int) - 5

/-- The bias a signed number names: `-5..5` (R280, R285). -/
def biasOf? (n : Int) : Option Bias :=
  if h : -5 ≤ n ∧ n ≤ 5 then some ⟨(n + 5).toNat, by omega⟩ else none

/-- `cfg.OCR_DIV_BIT[d]` (R281). -/
def divBit (c : ChipVariant) : Divider → Nat
  | .d1 => c.ocrDivBit1
  | .d2 => c.ocrDivBit2
  | .d4 => c.ocrDivBit4
  | .d8 => c.ocrDivBit8

/-- The thermometer run of `|bias|` bits (R282). -/
def biasRun (b : Bias) : Pattern :=
  BitVec.ofNat 128 (2 ^ (biasInt b).natAbs - 1)

/-- Where the run starts: the slow position for a negative bias, the fast one otherwise (R282). -/
def biasPos (c : ChipVariant) (b : Bias) : Nat :=
  if biasInt b < 0 then c.ocrSlowPos else c.ocrFastPos

/-- The pattern of an admitted pair (R280, R283): the divide bit OR the bias run. -/
def oscPattern (c : ChipVariant) (d : Divider) (b : Bias) : Pattern :=
  (1#128 <<< divBit c d) ||| (biasRun b <<< biasPos c b)

/-- `buildOscillatorRegister` on any arguments: `none` stands for `InvalidArgument` (R285). -/
def buildPattern (c : ChipVariant) (divider : Nat) (bias : Int) : Option Pattern :=
  match dividerOf? divider, biasOf? bias with
  | some d, some b => some (oscPattern c d b)
  | _, _ => none

/-- The low word of a pattern, `p[W-1:0]` (R284). -/
def patternLo (v : Variant) (p : Pattern) : Word :=
  truncW v (p.setWidth 64)

/-- The high word of a pattern, `p[2W-1:W]` (R284). -/
def patternHi (v : Variant) (p : Pattern) : Word :=
  truncW v ((p >>> v.width).setWidth 64)

/-- The command `buildOscillatorRegister` (R111): the pattern, a pair when split, or `InvalidArgument`. -/
def oscResult (v : Variant) (c : ChipVariant) (divider : Nat) (bias : Int) : CmdResult :=
  match buildPattern c divider bias with
  | none => .err ⟨.invalidArgument, .nothing⟩
  | some p =>
    if c.ocrSplit then .patternPair (patternLo v p) (patternHi v p)
    else .pattern ((patternLo v p).setWidth 128)

end Sys2Proof.Machine
end

