-- ==== Sys2Proof/Machine/DeviceInit.lean ====
section
/-! DEFINITION. Device initialisation (spec/45_device_init.md). -/

namespace Sys2Proof.Machine

/-- Steps 1 and 2 (R262 to R265): interrupts masked, then the defaults V, M, limit, step, bounds, match. -/
def initDefaults (v : Variant) (c : ChipVariant) (b : Nat) : List Frame :=
  [allFrame v b c.reg.fcr c.fcrMaskAll]
    ++ (List.range 16).map (fun j => allFrame v b (addrV c j) (c.dflt.v.toList.getD j 0))
    ++ (admittedM v).map (fun i => allFrame v b (addrM v c i) (mWord v c.dflt.m i))
    ++ [allFrame v b c.reg.limit c.dflt.limit, allFrame v b c.reg.stepReg c.dflt.stepVal,
        allFrame v b c.reg.lb c.dflt.lb, allFrame v b c.reg.ub c.dflt.ub, allFrame v b c.reg.matchReg c.dflt.matchVal]

/-- The oscillator pattern of one chip (R268): its divider and bias with the active groups enabled. -/
def initPattern (p : Plat) (c : ChipVariant) (cal : BoardCal) (chip : Nat) : Pattern :=
  oscPattern c (p.initDivider.getD (cal.divOf chip)) (p.initBias.getD (cal.biasOf chip)) ||| p.activeCoreEn

/-- The oscillator frames of one chip (R268): two when the control spans two registers. -/
def oscFrames (v : Variant) (c : ChipVariant) (p : Pattern) (b chip : Nat) : List Frame :=
  if c.ocrSplit then
    [writeFrame v b chip c.chipCore c.reg.ocra (patternLo v p), writeFrame v b chip c.chipCore c.reg.ocrb (patternHi v p)]
  else [writeFrame v b chip c.chipCore c.reg.ocra (patternLo v p)]

/-- Step 4's frames (R268), chip by chip. -/
def initOscFrames (s : State) (b : Nat) : List Frame :=
  (List.range s.par.plat.chips).flatMap fun chip =>
    oscFrames (s.variantOf b) (s.cfgOf b) (initPattern s.par.plat (s.cfgOf b) (s.board b) chip) b chip

/-- Step 3 (R266): the reset pulse with the hashing clock briefly enabled. -/
def initResetPulse (b : Nat) (s : State) : Res Unit :=
  let c := s.cfgOf b
  (memWriteAll b c.reg.ecr (ecrReset c) (clockEnable b true s)).andThen fun _ s =>
  (memWriteAll b c.reg.ecr 0 (delay .initClock s)).andThen fun _ s =>
  (.ok (), clockEnable b false s)

/-- Step 5 (R269): both lines must read all-inactive, on every variant. -/
def initVerify (b : Nat) (s : State) : Res Unit :=
  let (d, s) := readLine .done b s
  let (n, s) := readLine .nonce b s
  if d = 0 ∧ n = 0 then (.ok (), s) else (.error ⟨.failure, .lines d n⟩, s)

/-- The five steps in order (R260). -/
def initSeq (b : Nat) (s : State) : Res Unit :=
  (sendAll (initDefaults (s.variantOf b) (s.cfgOf b) b) s).andThen fun _ s =>
  (initResetPulse b s).andThen fun _ s =>
  (sendAll (initOscFrames s b) s).andThen fun _ s =>
  initVerify b (clockEnable b true s)

/-- The sequence with R270: any error switches the hashing clock off and is returned unchanged. -/
def deviceInit (b : Nat) (s : State) : Res Unit :=
  match initSeq b s with
  | (.ok _, s) => (.ok (), s)
  | (.error e, s) => (.error e, clockEnable b false s)

/-- The calibration states that admit the command (R260). -/
def initAdmitted (c : CalState) : Bool :=
  c = .calInit ∨ c = .calDone ∨ c = .calPartial

/-- `initializeDevice(b)` (R260): an absent board gives `NotFound`, another state refuses (I7). -/
def cmdInitializeDevice (b : Nat) (s : State) : Host.Outcome State Fault Refusal :=
  match checkBoard s b with
  | some e => .next { s with result := .err e }
  | none =>
    if initAdmitted (s.board b).state then
      match deviceInit b s with
      | (.ok _, s) => .next { s with result := .ok }
      | (.error e, s) => .next { s with result := .err e }
    else .refused .notAdmitted

end Sys2Proof.Machine
end

