-- ==== Sys2Proof/Machine/Calibration.lean ====
section
/-! DEFINITION. The String Calibration Controller (spec/44_calibration.md), and the creation and
destruction of its state (R343, R344). -/

namespace Sys2Proof.Machine

/-- Write a board's calibration state and status. -/
def setCal (b : Nat) (st : CalState) (status : CalStatus) (s : State) : State :=
  s.setBoard b { s.board b with state := st, status := status }

/-- Write a board's calibration state alone. -/
def setCalState (b : Nat) (st : CalState) (s : State) : State :=
  s.setBoard b { s.board b with state := st }

/-- Write `cal[b].level` and hand it to the supply (R223, R240, R243). -/
def setLevel (b : Nat) (l : Int) (s : State) : State :=
  supplySetLevel b l (s.setBoard b { s.board b with level := l })

/-! ## Failure outcomes -/

/-- `fail_total(e)` (R248): the supply is switched off; the pass mask is the per-chip report. -/
def failTotal (b : Nat) (e : Raised) (s : State) : State :=
  let s := setCal b .calFailed (.error e.err) (supplyEnable b false s)
  { s with result := .calFailed e (s.board b).pass }

/-- `fail_partial()` (R246): the supply stays on; the result is the list of chips that failed. -/
def failPartial (b : Nat) (s : State) : State :=
  { setCal b .calPartial (.error .failure) s with
    result := .partialFailure (failedChips s.par.plat.chips (s.board b).pass) }

/-! ## The chip test -/

/-- `Attempt(ci)` (R232 to R234): write the startup pattern, read it back, classify. -/
def attempt (b ci : Nat) (s : State) : Res Attempt :=
  let c := s.cfgOf b
  (memWrite b ci c.chipCore c.reg.ocrb c.ocrbStartup s).andThen fun _ s =>
  (memRead b ci c.chipCore c.reg.ocrb s).andThen fun x s =>
  (.ok (classify (s.variantOf b) c x), s)

/-- The one bounded retry (R231, R235): the whole attempt again. A first error that the retry overcame
goes to the log (R237). -/
def retry (b ci : Nat) (first : Option Raised) (s : State) : Res Bool :=
  let logged (s : State) : State := match first with
    | none => s
    | some e => logMsg (.retriedError e) s
  match attempt b ci s with
  | (.ok .pass, s) => (.ok true, logged s)
  | (.ok .clearlyWrong, s) => (.ok false, logged s)
  | (.ok .nearMiss, s) => (.ok false, logged s)
  | (.error e, s) => (.error e, s)

/-- `TestChip(ci)` (R231): whether the chip passed, at most two attempts. -/
def testChip (b ci : Nat) (s : State) : Res Bool :=
  match attempt b ci s with
  | (.ok .pass, s) => (.ok true, s)
  | (.ok .clearlyWrong, s) => (.ok false, s)
  | (.ok .nearMiss, s) => retry b ci none s
  | (.error e, s) => retry b ci (some e) s

/-- One pass over the chips of a list (R230): test, then update the mask and the count (R236). -/
def sweepChips (b : Nat) : List Nat → State → Res Unit
  | [], s => (.ok (), s)
  | ci :: cs, s =>
    (testChip b ci s).andThen fun passed s =>
    sweepChips b cs (s.setBoard b (updatePass (s.board b) ci passed))

/-! ## Decision and ramp -/

/-- `Decide()` (R238), with `Success()` (R243), `StepLevel()` (R240) and the two failures. -/
def decideSweep (b : Nat) (s : State) : State :=
  let cal := s.board b
  let p := s.par.plat
  if cal.awake = p.chips then
    { setCalState b .calInit (setLevel b (max p.levelFloor (cal.level - p.levelMargin)) s) with result := .inProgress }
  else if p.levelFloor < cal.level then
    { setCalState b .calSettle (setLevel b (cal.level - 1) s) with result := .inProgress }
  else if cal.awake = 0 then failTotal b ⟨.failure, .passMask cal.pass⟩ s
  else failPartial b s

/-! ## The steps of R221 -/

/-- The start (R222). -/
def calStart (b : Nat) (s : State) : State :=
  { s.setBoard b { s.board b with pass := 0, awake := 0, status := .inProgress, state := .calPowerUp } with
    result := .inProgress }

/-- Power-up (R223): clock off, initial level, supply on, voltages sane. -/
def calPowerUp (b : Nat) (s : State) : State :=
  let s := supplyEnable b true (setLevel b s.par.plat.levelStart (clockEnable b false s))
  let (sane, s) := supplySane b s
  if sane then { setCalState b .calSettle s with result := .inProgress }
  else failTotal b ⟨.failure, .nothing⟩ s

/-- The settle state (R241). -/
def calSettle (b : Nat) (settled : Bool) (s : State) : State :=
  if settled then { setCalState b .calSweep s with result := .inProgress }
  else { s with result := .inProgress }

/-- The sweep (R230): a transfer error that survived the retry ends calibration (R237). -/
def calSweep (b : Nat) (s : State) : State :=
  match sweepChips b (List.range s.par.plat.chips) s with
  | (.ok _, s) => decideSweep b s
  | (.error e, s) => failTotal b e s

/-- The hand-off (R245): device initialisation once the supply has settled. -/
def calHandOff (b : Nat) (settled : Bool) (s : State) : State :=
  if settled then
    match deviceInit b s with
    | (.ok _, s) => { setCal b .calDone .ok s with result := .ok }
    | (.error e, s) => failTotal b e s
  else { s with result := .inProgress }

/-- One step of calibration, chosen by `cal[b].state` (R221); a terminal state has none. -/
def calStep (b : Nat) (settled : Bool) (s : State) : State :=
  match (s.board b).state with
  | .notInitialized => calStart b s
  | .calPowerUp => calPowerUp b s
  | .calSettle => calSettle b settled s
  | .calSweep => calSweep b s
  | .calInit => calHandOff b settled s
  | .calDone => s
  | .calPartial => s
  | .calFailed => s

/-- The terminal states (R40). -/
def calTerminal (c : CalState) : Bool :=
  c = .calDone ∨ c = .calPartial ∨ c = .calFailed

/-- calibrationStep(b, settled) (R221): a board out of range or absent gives `NotFound` (R303); a
terminal state refuses (R304), and that is tested first (R314). -/
def cmdCalibrationStep (b : Nat) (settled : Bool) (s : State) : Host.Outcome State Fault Refusal :=
  if b < s.par.plat.boards ∧ calTerminal (s.board b).state then .refused .notAdmitted
  else
    match checkBoard s b with
    | some e => .next { s with result := .err e }
    | none => .next (calStep b settled s)

/-- The most steps a calibration can take (R242): start, power-up, a settle and a sweep for each level,
and the hand-off. -/
def calFuel (p : Plat) : Nat :=
  2 * ((p.levelStart - p.levelFloor).toNat + 1) + 3

/-- The steps of a blocking calibration, each settle waited out (R220, R241). -/
def calLoop (b : Nat) : Nat → State → State
  | 0, s => s
  | n + 1, s =>
    match (s.board b).state with
    | .notInitialized => calLoop b n (calStep b true s)
    | .calPowerUp => calLoop b n (calStep b true s)
    | .calSettle => calLoop b n (calStep b true (delay .settle s))
    | .calSweep => calLoop b n (calStep b true s)
    | .calInit => calLoop b n (calStep b true (delay .settle s))
    | .calDone => s
    | .calPartial => s
    | .calFailed => s

/-- `calibrateString(b)` (R220): admitted in `NotInitialized`. -/
def cmdCalibrateString (b : Nat) (s : State) : Host.Outcome State Fault Refusal :=
  if b < s.par.plat.boards ∧ (s.board b).state ≠ .notInitialized then .refused .notAdmitted
  else
    match checkBoard s b with
    | some e => .next { s with result := .err e }
    | none => .next (calLoop b (calFuel s.par.plat) s)

/-! ## Creation and destruction -/

/-- The divider and bias stores of a board just detected: every chip's value is free (R343). -/
def freeDividers (n chips : Nat) : Store Divider :=
  (List.range chips).foldl (fun m c => Store.putD Divider.initial m c (Config.freeDivider n c)) []

/-- See `freeDividers`. -/
def freeBiases (n chips : Nat) : Store Bias :=
  (List.range chips).foldl (fun m c => Store.putD Bias.initial m c (Config.freeBias n c)) []

/-- What boardReset writes in a board's calibration state (R344): the one operation that takes it out of a terminal
state (R40, R249, R316). -/
def BoardCal.restart (cal : BoardCal) : BoardCal :=
  { cal with state := .notInitialized, status := .notInitialized, pass := 0, awake := 0 }

/-- boardDetect(b, present, variant) (R343): a detection starts from scratch, by the writes of boardReset, which take the
board out of a terminal state too, and makes the state anew (R35). `level`, `div` and `bias` are unspecified afterwards,
at a second detection as at the first: free values. It is admitted in every state (R343, table E6), although R40, R249
and R316 name the command boardReset alone as the exit from a terminal one: DESIGN CHOICE, log entry 13. -/
def cmdBoardDetect (b : Nat) (present : Bool) (v : Variant) (s : State) : Host.Outcome State Fault Refusal :=
  if s.par.plat.boards ≤ b then .next { s with result := .err ⟨.notFound, .index b⟩ }
  else
    .next
      { s.setBoard b
          { (s.board b).restart with
            present := present
            variant := v
            level := Config.freeLevel s.draws
            div := freeDividers s.draws s.par.plat.chips
            bias := freeBiases s.draws s.par.plat.chips } with
        draws := s.draws + 1
        result := .ok }

/-- boardReset(b) (R344): no frame, no collaborator call. -/
def cmdBoardReset (b : Nat) (s : State) : Host.Outcome State Fault Refusal :=
  match checkBoard s b with
  | some e => .next { s with result := .err e }
  | none =>
    .next
      { s.setBoard b (s.board b).restart with
        result := .ok }

end Sys2Proof.Machine
end

