-- ==== Sys2Proof/Machine/Preload.lean ====
section
/-! DEFINITION. The Job Register Programmer (spec/42_preload.md). -/

namespace Sys2Proof.Machine

/-- The frames of a preload in the fixed order of R161 and R171: both bounds to the target core
(R162), then by the target's broadcast mode every admitted M (R164), every V on SC1 (R166), and match
(R167). -/
def preloadFrames (v : Variant) (c : ChipVariant) (job : Job) (t : Target) : List Frame :=
  [writeFrame v t.board t.chip t.core c.reg.lb job.lb, writeFrame v t.board t.chip t.core c.reg.ub job.ub]
    ++ (admittedM v).map (fun i => bFrame v t (addrM v c i) (mWord v job.m i))
    ++ (if v.jobHasV then (List.range 16).map (fun j => bFrame v t (addrV c j) (job.v.toList.getD j 0)) else [])
    ++ [bFrame v t c.reg.matchReg job.matchVal]

/-- `preload(job, tgt)` (R160): the frames in order, stopping at the first transfer error (R168). -/
def preload (job : Job) (t : Target) (s : State) : Res Unit :=
  sendAll (preloadFrames (s.variantOf t.board) (s.cfgOf t.board) job t) s

end Sys2Proof.Machine
end

