-- ==== Sys2Proof/Machine/Jobs.lean ====
section
/-! DEFINITION. The Job Lifecycle State Machine (spec/43_job_lifecycle.md). Every command here is given
the machine's number; a command in a state that does not admit it refuses (R304). -/

namespace Sys2Proof.Machine

/-- End a job command: on success the machine's new registers and the result, on an error R181. -/
def finishJob {α : Type} (m : Nat) (r : Res α) (ok : α → State → State) : State :=
  match r with
  | (.ok a, s) => ok a s
  | (.error e, s) => enterError m e s

/-- Write a machine's `jstate`. -/
def setJState (m : Nat) (j : JState) (s : State) : State :=
  s.setMachine m { s.machine m with jstate := j }

/-! ## Preload (R182) -/

/-- preloadJob where the machine is Idle: the range checks, then latch and preload. -/
def preloadJobBody (m : Nat) (job : Job) (t : Target) (s : State) : State :=
  match checkTarget s t with
  | some e => enterError m e s
  | none =>
    let s := s.setMachine m { s.machine m with tgt := t, job := job }
    finishJob m (preload job t s) fun _ s => { setJState m .preloaded s with result := .ok }

/-- `preloadJob(job, tgt)` (R182). -/
def cmdPreloadJob (m : Nat) (job : Job) (t : Target) (s : State) : Host.Outcome State Fault Refusal :=
  if (s.machine m).jstate = .idle then .next (preloadJobBody m job t s) else .refused .notAdmitted

/-! ## Start (R184 to R192) -/

/-- A single-write to a core-level control register of the target core (R212). -/
def ctlWrite (t : Target) (r : BitVec 7) (x : Word) (s : State) : Res Unit :=
  memWrite t.board t.chip t.core r x s

/-- S1 and S2 (R185, R186): engine reset, then unmask. -/
def startReset (t : Target) (s : State) : Res Unit :=
  let c := s.cfgOf t.board
  (ctlWrite t c.reg.ecr (ecrReset c) s).andThen fun _ s =>
  (ctlWrite t c.reg.ecr 0 s).andThen fun _ s =>
  ctlWrite t c.reg.fcr 0 s

/-- S3 (R187): the optional line check, fatal where `SHIFT = 0` and log-only otherwise. -/
def startCheck (t : Target) (s : State) : Res Unit :=
  if s.par.plat.verifyPrestart then
    let (d, s) := readLine .done t.board s
    let (n, s) := readLine .nonce t.board s
    if d.getLsbD t.chip = false ∧ n.getLsbD t.chip = false then (.ok (), s)
    else if (s.cfgOf t.board).shift = 0 then (.error ⟨.failure, .lines d n⟩, s)
    else (.ok (), logMsg (.prestartLines d n) s)
  else (.ok (), s)

/-- S5 where `SHIFT = 0` (R189): at most `n` reads of engine-status, a delay after each that shows
neither bit; `Timeout` when all are used up. -/
def pollEsr (t : Target) : Nat → State → Res Unit
  | 0, s => (.error ⟨.timeout, .nothing⟩, s)
  | n + 1, s =>
    (memRead t.board t.chip t.core (s.cfgOf t.board).reg.esr s).andThen fun x s =>
    if esrSeen (s.cfgOf t.board) x then (.ok (), s)
    else pollEsr t n (delay .poll s)

/-- S5 (R189, R190): poll, or on the erratum-affected variant only wait. -/
def startConfirm (t : Target) (s : State) : Res Unit :=
  if (s.cfgOf t.board).shift = 0 then pollEsr t s.par.plat.nStartPolls s
  else (.ok (), delay .validPulse s)

/-- S4 to S6 (R188 to R191): valid-data asserted, confirmed, and deasserted whatever happened, the
first error winning. -/
def startPulse (t : Target) (s : State) : Res Unit :=
  let c := s.cfgOf t.board
  let (r, s) := (ctlWrite t c.reg.ecr c.ecrValidData s).andThen fun _ s => startConfirm t s
  firstError r (ctlWrite t c.reg.ecr 0 s)

/-- The whole sequence S1 to S6 of R184. -/
def startSeq (t : Target) (s : State) : Res Unit :=
  (startReset t s).andThen fun _ s =>
  (startCheck t s).andThen fun _ s =>
  startPulse t s

/-- `startJob()` (R184, R192). -/
def cmdStartJob (m : Nat) (s : State) : Host.Outcome State Fault Refusal :=
  if (s.machine m).jstate = .preloaded then
    .next (finishJob m (startSeq (s.machine m).tgt s) fun _ s => { setJState m .started s with result := .ok })
  else .refused .notAdmitted

/-! ## Waiting (R193) -/

/-- Whether a machine is waiting for its solution (R193). -/
def waiting (j : JState) : Bool :=
  j = .started ∨ j = .awaitingSolution

/-- One poll of the summary line (R193): the line is examined before the deadline. -/
def pollBody (m : Nat) (expired : Bool) (s : State) : State :=
  let t := (s.machine m).tgt
  let (w, s) := readLine s.par.plat.waitLine t.board s
  if w.getLsbD t.chip then { setJState m .solutionReady s with result := .ready }
  else if expired then enterError m ⟨.timeout, .nothing⟩ s
  else { setJState m .awaitingSolution s with result := .notYet }

/-- waitPoll(expired) (R193). -/
def cmdWaitPoll (m : Nat) (expired : Bool) (s : State) : Host.Outcome State Fault Refusal :=
  if waiting (s.machine m).jstate then .next (pollBody m expired s) else .refused .notAdmitted

/-! ## Reading the solution (R194 to R203) -/

/-- RS1 (R195, R196): the interrupt vector must name the expected core and exactly the first slot. -/
def readVector (t : Target) (s : State) : Res Unit :=
  let c := s.cfgOf t.board
  (memRead t.board t.chip c.chipCore c.reg.ivr s).andThen fun x s =>
  if ivrExpected c t.core x then (.ok (), s) else (.error ⟨.failure, .ivr x⟩, s)

/-- RS4 (R200): the read-complete pulse; once the assert was attempted the deassert is too. -/
def readComplete (t : Target) (s : State) : Res Unit :=
  let c := s.cfgOf t.board
  let (r, s) := (ctlWrite t c.reg.ecr c.ecrReadComplete s).andThen fun _ s => (.ok (), delay .rcDelay s)
  firstError r (ctlWrite t c.reg.ecr 0 s)

/-- RS5 (R201): the optional re-check, log-only. -/
def residualCheck (t : Target) (s : State) : Bool × State :=
  if s.par.plat.verifyPostread then
    let (n, s) := readLine .nonce t.board s
    let (d, s) := readLine .done t.board s
    if n.getLsbD t.chip ∨ d.getLsbD t.chip then (true, logMsg (.residualLines d n) s) else (false, s)
  else (false, s)

/-- RS1 to RS5 (R194). `jnonce` is written by RS2 and stays written when a later step fails (R203). -/
def readSeq (m : Nat) (t : Target) (s : State) : Res (Word × Bool) :=
  (readVector t s).andThen fun _ s =>
  (memRead t.board t.chip t.core (addrFdr0 (s.cfgOf t.board)) s).andThen fun x s =>
  let s := s.setMachine m { s.machine m with jnonce := x }
  (ctlWrite t (s.cfgOf t.board).reg.fcr (s.cfgOf t.board).fcrMaskAll s).andThen fun _ s =>
  (readComplete t s).andThen fun _ s =>
  let (res, s) := residualCheck t s
  (.ok (x, res), s)

/-- readSolution where the machine is SolutionReady (R202, R203). -/
def readBody (m : Nat) (s : State) : State :=
  finishJob m (readSeq m (s.machine m).tgt s) fun a s =>
    { setJState m .idle s with result := .solution a.1 a.2 }

/-- readSolution() (R194). -/
def cmdReadSolution (m : Nat) (s : State) : Host.Outcome State Fault Refusal :=
  if (s.machine m).jstate = .solutionReady then .next (readBody m s) else .refused .notAdmitted

/-- The blocking form (R207): poll until the answer is not `NotYet`, the deadline being found reached
after `n` further polls, then read. -/
def waitAndRead (m : Nat) : Nat → State → State
  | 0, s =>
    let s := pollBody m true s
    if s.result = .ready then readBody m s else s
  | n + 1, s =>
    let s := pollBody m false s
    if s.result = .ready then readBody m s else waitAndRead m n s

/-- `waitAndReadSolution(timeout)` (R207). -/
def cmdWaitAndRead (m n : Nat) (s : State) : Host.Outcome State Fault Refusal :=
  if waiting (s.machine m).jstate then .next (waitAndRead m n s) else .refused .notAdmitted

/-- jobReset() (R208): admitted in every state. -/
def cmdJobReset (m : Nat) (s : State) : Host.Outcome State Fault Refusal :=
  .next (leaveError m s)

end Sys2Proof.Machine
end

