-- ==== Sys2Proof/Machine/Commands.lean ====
section
/-! DEFINITION. The command set (R111 table E6) and the moves of the other agents (R5). -/

namespace Sys2Proof.Machine

/-- The command `encode` (R120): pure. -/
def cmdEncode (v : Variant) (f : Frame) (s : State) : Host.Outcome State Fault Refusal :=
  .next { s with result := .bytes (encodeFrame v (s.par.chip v).shift f) }

/-- The command `decode` (R125): pure; its operand is a buffer of `cfg.L` bytes. The wire carries no board index and
the spec's result has none: the board of the frame returned is 0, which means nothing. DESIGN CHOICE, log entry 31. -/
def cmdDecode (v : Variant) (buf : List Byte) (s : State) : Host.Outcome State Fault Refusal :=
  match decodeFrame v (s.par.chip v).shift 0 buf with
  | some f => .next { s with result := .frame f }
  | none => .refused (.undecodable buf.length)

/-- Give a frame of an untyped source its mode (R141). -/
def RawFrame.typed? (f : RawFrame) : Option Frame :=
  (rawMode? f.mode).map fun m =>
    { mode := m, board := f.board, chip := f.chip, core := f.core, reg := f.reg, data := f.data }

/-- The command `transfer` (R140): an undefined mode is `InvalidArgument` before anything is touched
(R141); the board index is the only other thing the dispatcher needs, and no other field is checked
(R303). -/
def cmdTransfer (f : RawFrame) (s : State) : Host.Outcome State Fault Refusal :=
  match f.typed? with
  | none => .next { s with result := .err ⟨.invalidArgument, .nothing⟩ }
  | some g =>
    if s.par.plat.boards ≤ g.board then .fault (.noSuchBoard g.board)
    else
      match transfer g s with
      | (.ok d, s) => .next { s with result := .transferred d }
      | (.error e, s) => .next { s with result := .err e }

/-- The command `preload` (R160): no range check and no state of its own. -/
def cmdPreload (job : Job) (t : Target) (s : State) : Host.Outcome State Fault Refusal :=
  if s.par.plat.boards ≤ t.board then .fault (.noSuchBoard t.board)
  else
    match preload job t s with
    | (.ok _, s) => .next { s with result := .ok }
    | (.error e, s) => .next { s with result := .err e }

/-- The command `buildOscillatorRegister` (R280): pure. -/
def cmdBuildOscillator (v : Variant) (divider : Nat) (bias : Int) (s : State) : Host.Outcome State Fault Refusal :=
  .next { s with result := oscResult v (s.par.chip v) divider bias }

/-- One command of the caller (R111). -/
def runCommand (c : Command) (s : State) : Host.Outcome State Fault Refusal :=
  match c with
  | .encode v f => cmdEncode v f s
  | .decode v buf => cmdDecode v buf s
  | .transfer f => cmdTransfer f s
  | .preload job t => cmdPreload job t s
  | .preloadJob m job t => cmdPreloadJob m job t s
  | .startJob m => cmdStartJob m s
  | .waitPoll m expired => cmdWaitPoll m expired s
  | .readSolution m => cmdReadSolution m s
  | .waitAndReadSolution m n => cmdWaitAndRead m n s
  | .jobReset m => cmdJobReset m s
  | .boardDetect b present v => cmdBoardDetect b present v s
  | .boardReset b => cmdBoardReset b s
  | .calibrateString b => cmdCalibrateString b s
  | .calibrationStep b settled => cmdCalibrationStep b settled s
  | .initializeDevice b => cmdInitializeDevice b s
  | .buildOscillatorRegister v d bi => cmdBuildOscillator v d bi s

/-- A move of the far side or of another bus user: the back end's are enabled while a write is in flight
(R149), the others always. -/
def moveEnv (m : EnvMove) (s : State) : Host.Outcome State Fault Refusal :=
  if (m = .backendDone ∨ m = .backendLost) ∧ s.inflight = none then .refused .noMove else .next (envMove m s)

/-- A board's calibration state with one chip's divider and bias written (R41). -/
def BoardCal.tuned (cal : BoardCal) (c : Nat) (d : Divider) (bias : Bias) : BoardCal :=
  { cal with div := Store.putD Divider.initial cal.div c d, bias := Store.putD Bias.initial cal.bias c bias }

/-- A runtime thermal-tuning caller writes one chip's divider and bias (R41), after `CalDone` (R249) and not while the
calibration controller owns the state (R35, R318). That `CalPartial` and `CalFailed` do not admit it is DEDUCED from
R249's words, log entry 32. -/
def moveTune (b c : Nat) (d : Divider) (bias : Bias) (s : State) : Host.Outcome State Fault Refusal :=
  if checkBoard s b = none ∧ c < s.par.plat.chips ∧ (s.board b).state = .calDone then
    .next (s.setBoard b ((s.board b).tuned c d bias))
  else .refused .noMove

/-- The persistence collaborator restores one chip's divider and bias (R41, R327), between detection and calibration,
where R345 has it; the level it only reads (R318, R327). That it restores at no other time is a DESIGN CHOICE, log
entry 32. -/
def moveRestore (b c : Nat) (d : Divider) (bias : Bias) (s : State) : Host.Outcome State Fault Refusal :=
  if checkBoard s b = none ∧ c < s.par.plat.chips ∧ (s.board b).state = .notInitialized then
    .next (s.setBoard b ((s.board b).tuned c d bias))
  else .refused .noMove

/-- One move of another agent. -/
def runMove (m : Move) (s : State) : Host.Outcome State Fault Refusal :=
  match m with
  | .env m => moveEnv m s
  | .tune b c d bias => moveTune b c d bias s
  | .restore b c d bias => moveRestore b c d bias s

end Sys2Proof.Machine
end

