-- ==== Sys2Proof/Machine/Frames.lean ====
section
/-! DEFINITION. The meanings of the eight wire frames (R105, R121 to R124): each is one transfer of its
bytes. A write is started and lands later (R148, R149); a read completes at once (R147). -/

namespace Sys2Proof.Machine

/-- `WR.32` (R121): single-write, format F32. -/
def execWr32 (chip : BitVec 7) (core : BitVec 8) (reg : BitVec 7) (data : BitVec 32) (s : State) :
    Host.Outcome State Fault Refusal :=
  execWire (.wr32 chip core reg data) s

/-- `RD.32` (R122): single-read, format F32. -/
def execRd32 (chip : BitVec 7) (core : BitVec 8) (reg : BitVec 7) (data : BitVec 32) (s : State) :
    Host.Outcome State Fault Refusal :=
  execWire (.rd32 chip core reg data) s

/-- `WRC.32` (R123): chip-wide write, format F32. -/
def execWrc32 (chip : BitVec 7) (core : BitVec 8) (reg : BitVec 7) (data : BitVec 32) (s : State) :
    Host.Outcome State Fault Refusal :=
  execWire (.wrc32 chip core reg data) s

/-- `WRA.32` (R124): multicast write, format F32. -/
def execWra32 (chip : BitVec 7) (core : BitVec 8) (reg : BitVec 7) (data : BitVec 32) (s : State) :
    Host.Outcome State Fault Refusal :=
  execWire (.wra32 chip core reg data) s

/-- `WR.64` (R121): single-write, format F64. -/
def execWr64 (chip : BitVec 7) (core : BitVec 8) (reg : BitVec 7) (data : BitVec 64) (s : State) :
    Host.Outcome State Fault Refusal :=
  execWire (.wr64 chip core reg data) s

/-- `RD.64` (R122): single-read, format F64. -/
def execRd64 (chip : BitVec 7) (core : BitVec 8) (reg : BitVec 7) (data : BitVec 64) (s : State) :
    Host.Outcome State Fault Refusal :=
  execWire (.rd64 chip core reg data) s

/-- `WRC.64` (R123): chip-wide write, format F64. -/
def execWrc64 (chip : BitVec 7) (core : BitVec 8) (reg : BitVec 7) (data : BitVec 64) (s : State) :
    Host.Outcome State Fault Refusal :=
  execWire (.wrc64 chip core reg data) s

/-- `WRA.64` (R124): multicast write, format F64. -/
def execWra64 (chip : BitVec 7) (core : BitVec 8) (reg : BitVec 7) (data : BitVec 64) (s : State) :
    Host.Outcome State Fault Refusal :=
  execWire (.wra64 chip core reg data) s

end Sys2Proof.Machine
end

