-- ==== Sys2Proof/Machine/Dispatch.lean ====
section
/-! DEFINITION. One arm for each row of spec/opcode_table.json. -/

namespace Sys2Proof.Machine

def exec (i : Instr) (s : State) : Host.Outcome State Fault Refusal :=
  match i with
  | .wr32 chip core reg data => Sys2Proof.Machine.execWr32 chip core reg data s
  | .rd32 chip core reg data => Sys2Proof.Machine.execRd32 chip core reg data s
  | .wrc32 chip core reg data => Sys2Proof.Machine.execWrc32 chip core reg data s
  | .wra32 chip core reg data => Sys2Proof.Machine.execWra32 chip core reg data s
  | .wr64 chip core reg data => Sys2Proof.Machine.execWr64 chip core reg data s
  | .rd64 chip core reg data => Sys2Proof.Machine.execRd64 chip core reg data s
  | .wrc64 chip core reg data => Sys2Proof.Machine.execWrc64 chip core reg data s
  | .wra64 chip core reg data => Sys2Proof.Machine.execWra64 chip core reg data s

end Sys2Proof.Machine
end

