-- ==== Sys2Proof/Machine/Fetch.lean ====
section
/-! DEFINITION. What the next step is: the controller fetches no instructions (R29), it takes what its
caller and the environment do next. -/

namespace Sys2Proof.Machine

/-- What the head of `pending` asks for, with the state after it has been taken. -/
inductive Fetched where
  /-- nothing is asked: the controller does nothing until a command is issued (R340) -/
  | idle
  /-- a wire frame, on the board that `f.board` now names -/
  | instr (i : Instr) (s : State)
  /-- bytes that are no frame -/
  | bad (length : Nat)
  /-- a command of the caller -/
  | command (c : Command) (s : State)
  /-- a move of another agent -/
  | move (m : Move) (s : State)

/-- Take the head of `pending`; the bytes of a frame are decoded, and its board goes to `f.board`,
which selects the chip-select line (R21, R145). -/
def fetch (s : State) : Fetched :=
  match s.pending with
  | [] => .idle
  | .frame b bytes :: rest =>
    match decode bytes with
    | .ok i => .instr i { s with pending := rest, f := { s.f with board := b } }
    | .error _ => .bad bytes.length
  | .command c :: rest => .command c { s with pending := rest }
  | .move m :: rest => .move m { s with pending := rest }

end Sys2Proof.Machine
end

