-- ==== Sys2Proof/Machine/Step.lean ====
section
/-! DEFINITION. One step of the machine. -/

namespace Sys2Proof.Machine

/-- One step: the next thing that the caller or the environment does. With nothing pending the state
stays (R340). -/
def step (s : State) : Host.Outcome State Fault Refusal :=
  match fetch s with
  | .idle => .next s
  | .instr i s' => exec i s'
  | .bad n => .refused (.undecodable n)
  | .command c s' => runCommand c s'
  | .move m s' => runMove m s'

/-- The variant whose format a table row of `nbits` bits has (R90). -/
def variantOfBits (nbits : Nat) : Variant :=
  if nbits = 88 then .sc1 else .dcr1

/-- `s` with the frame of a table word as the next thing to be done, on board 0, whose variant is the
one of the word's format (a detected board's variant chooses the format, R104). -/
def State.withFetchWord (s : State) (nbits w : Nat) : State :=
  { s.setBoard 0 { s.board 0 with variant := variantOfBits nbits } with
    pending := .frame 0 (beBytes (nbits / 8) w) :: s.pending }

end Sys2Proof.Machine
end

