-- ==== Sys2Proof/Machine/Admissible.lean ====
section
/-! DEFINITION. The constraints every admissible configuration satisfies (R8) and those on the
platform (R10). They are premises of statements; no step tests them. -/

namespace Sys2Proof.Machine

/-- Exactly one bit of a word is set. -/
def oneBit (x : Word) : Bool :=
  (List.range 64).countP (fun i => x.getLsbD i) = 1

/-- Every address of `cfg.REG` (table B4), the M addresses by `addrM`. -/
def regAddresses (v : Variant) (c : ChipVariant) : List (BitVec 7) :=
  c.reg.v.toList ++ (List.range v.mCount).map (addrM v c)
    ++ [c.reg.lb, c.reg.ub, c.reg.limit, c.reg.stepReg, c.reg.matchReg, c.reg.ecr, c.reg.fcr, c.reg.esr, c.reg.ivr,
        c.reg.ocra, c.reg.ocrb]
    ++ c.reg.fdr.toList

/-- The M addresses do not run out of the 7-bit field. -/
def mInRange (v : Variant) (c : ChipVariant) : Bool :=
  (List.range v.mCount).all fun i => ((addrM v c i).toNat : Int) =
    c.reg.m0.toNat + i + (match v.mGapFrom with
      | none => 0
      | some g => if g ≤ i then c.gapOffset else 0)

/-- The addresses that are read fit the field after the pre-shift (R8, R99). -/
def readAddressesFit (c : ChipVariant) : Bool :=
  c.shift = 0 ∨
    (c.reg.ivr.toNat < 64 ∧ (addrFdr0 c).toNat < 64 ∧ c.reg.esr.toNat < 64 ∧ c.reg.ocrb.toNat < 64)

/-- The control and status masks are single bits of a `W`-bit word, distinct within their register. -/
def masksOk (v : Variant) (c : ChipVariant) : Bool :=
  [c.ecrResetSpi, c.ecrResetCore, c.ecrValidData, c.ecrReadComplete, c.esrBusy, c.esrDone].all
      (fun x => oneBit x && truncW v x = x)
    && [c.ecrResetSpi, c.ecrResetCore, c.ecrValidData, c.ecrReadComplete].Nodup
    && c.esrBusy ≠ c.esrDone

/-- The interrupt-vector fields hold what they must and lie apart inside `W - SHIFT` bits. -/
def ivrOk (v : Variant) (c : ChipVariant) : Bool :=
  v.cores ≤ 2 ^ c.ivrCoreWidth ∧ c.ivrFirstSlot < 2 ^ c.ivrMaskWidth
    ∧ c.ivrCoreLo + c.ivrCoreWidth ≤ v.width - c.shift ∧ c.ivrMaskLo + c.ivrMaskWidth ≤ v.width - c.shift
    ∧ (c.ivrCoreLo + c.ivrCoreWidth ≤ c.ivrMaskLo ∨ c.ivrMaskLo + c.ivrMaskWidth ≤ c.ivrCoreLo)

/-- The calibration pattern can be told from a dead bus and comes back whole (R232, R357). -/
def startupOk (v : Variant) (c : ChipVariant) : Bool :=
  c.ocrbStartup ≠ 0 ∧ c.ocrbStartup ≠ allOnes v c ∧ c.ocrbStartup.toNat < 2 ^ (v.width - c.shift)

/-- The bits an oscillator pattern may use: `W`, or `2W` when split. -/
def patternBits (v : Variant) (c : ChipVariant) : Nat :=
  if c.ocrSplit then 2 * v.width else v.width

/-- The divide bits, the two bias runs and the core-enable mask lie apart inside the pattern (R283). -/
def ocrOk (v : Variant) (c : ChipVariant) : Bool :=
  let fields : List Pattern :=
    [1#128 <<< c.ocrDivBit1, 1#128 <<< c.ocrDivBit2, 1#128 <<< c.ocrDivBit4, 1#128 <<< c.ocrDivBit8,
      0x1F#128 <<< c.ocrSlowPos, 0x1F#128 <<< c.ocrFastPos, c.ocrCoreEnMask]
  fields.Pairwise (fun a b => a &&& b = 0)
    ∧ c.ocrDivBit1 < patternBits v c ∧ c.ocrDivBit2 < patternBits v c ∧ c.ocrDivBit4 < patternBits v c
    ∧ c.ocrDivBit8 < patternBits v c ∧ c.ocrSlowPos + 5 ≤ patternBits v c ∧ c.ocrFastPos + 5 ≤ patternBits v c
    ∧ c.ocrCoreEnMask.toNat < 2 ^ patternBits v c

/-- R8 for one variant. -/
def chipAdmissible (v : Variant) (c : ChipVariant) : Bool :=
  c.shift ≤ 1 ∧ v.cores ≤ c.chipCore ∧ v.mReserved < v.mCount ∧ (regAddresses v c).Nodup ∧ mInRange v c
    ∧ readAddressesFit c ∧ masksOk v c ∧ ivrOk v c ∧ startupOk v c ∧ ocrOk v c

/-- R10. -/
def platAdmissible (p : Params) : Bool :=
  1 ≤ p.plat.chips ∧ p.plat.chips ≤ 128 ∧ [Config.modeSW, Config.modeSR, Config.modeCW, Config.modeMC].Nodup
    ∧ p.plat.levelFloor ≤ p.plat.levelStart ∧ 0 ≤ p.plat.levelMargin ∧ 1 ≤ p.plat.nStartPolls
    ∧ p.plat.activeCoreEn &&& ~~~p.sc1.ocrCoreEnMask = 0 ∧ p.plat.activeCoreEn &&& ~~~p.dcr1.ocrCoreEnMask = 0

/-- An admissible configuration (R8, R10). -/
def Params.admissible (p : Params) : Bool :=
  chipAdmissible .sc1 p.sc1 ∧ chipAdmissible .dcr1 p.dcr1 ∧ platAdmissible p

end Sys2Proof.Machine
end

