-- ==== Sys2Proof/Machine/Environment.lean ====
section
/-! DEFINITION. The far side as the spec describes it (R75 to R84): a reference engine, computed from
the trace, and the named assumptions that tie the environment's answers to it. R75 makes them premises
of a claim and no part of the step relation: no step consults this file. -/

namespace Sys2Proof.Machine

/-- What is known of a core's work on a job (R79, R80): whether it is at rest, busy with the job it took, or has ended
it. -/
inductive Phase where
  | unknown
  | idle
  | busy
  | ended
  deriving DecidableEq, Repr, Inhabited

/-- What the spec lets one tell of one core (R78 to R84). `control` is the word last written to its engine-control,
`none` when that is not known. `unacked` says whether it has finished without a read-complete pulse since (R81), `none`
when that is not known (R58). `pending` are solutions known to be in its FIFO, and `cleared` says that a reset has
emptied the FIFO, so that they are all there are (R57, R79). `power` is what its board's supply was last switched to. `boundRegs` holds what was written to LB and UB, and
`bounds` what the engine works with, which it takes from there at once (R55 c, R74, R78); `buffered` holds what was
written to the other data registers, and `taken` what of it the core took with its job at valid-data. The last four
are listed by register address. -/
structure Engine where
  phase : Phase
  resetting : Bool
  control : Option Word
  unacked : Option Bool
  cleared : Bool
  pending : List (Nat × Word)
  masks : Option Word
  boundRegs : Store Word
  bounds : Store Word
  buffered : Store Word
  taken : Store Word
  power : Option Bool
  deriving DecidableEq, Repr, Inhabited

/-- A core of which nothing is known. -/
def Engine.unknown : Engine where
  phase := .unknown
  resetting := false
  control := none
  unacked := none
  cleared := false
  pending := []
  masks := none
  boundRegs := []
  bounds := []
  buffered := []
  taken := []
  power := none

/-- Nothing is known of a core any more, but for its supply. -/
def Engine.forgotten (e : Engine) : Engine :=
  { Engine.unknown with power := e.power }

/-- Whether a mask's bits are all set in a word. -/
def hasBits (x mask : Word) : Bool := x &&& mask = mask

/-- The reset pulse (R79): both bits set, then both clear; after it nothing is pending and the core is not busy. Between
the two writes nothing is known of its work. DONE is not withdrawn: R81 and R312 give that to the read-complete pulse
alone. The bounds written stay (R183: a preload writes them before the start sequence resets the engine). The spec gives
the two bits together only: that a write with one of them set begins no reset and ends none is a DESIGN CHOICE, and so
is that the pulse acts whether the hashing clock is on or off (R355 d; log entry 33). -/
def Engine.resetPulse (c : ChipVariant) (e : Engine) (x : Word) : Engine :=
  if hasBits x (ecrReset c) then { e with resetting := true, phase := .unknown, cleared := false, pending := [] }
  else if x &&& ecrReset c = 0 ∧ e.resetting then
    { e with resetting := false, phase := .idle, cleared := true, pending := [], bounds := e.boundRegs, taken := [] }
  else e

/-- A write of engine-control begins a pulse on a bit: the write before it had the bit clear. That a write which
repeats a set bit, with no clear between, is no pulse and does nothing is a DESIGN CHOICE, as the spec is silent on it
(R80, R83; log entry 22). -/
def Engine.rises (e : Engine) (x mask : Word) : Bool :=
  match e.control with
  | none => false
  | some w => hasBits x mask && !hasBits w mask

/-- A write of engine-control ends a pulse on a bit: the write before it had the bit set. -/
def Engine.falls (e : Engine) (x mask : Word) : Bool :=
  match e.control with
  | none => false
  | some w => hasBits w mask && !hasBits x mask

/-- The valid-data pulse (R80, R188), at its rising edge: a core that is at rest takes what M, V and the rest of the
preload hold. A busy core goes on with its job: nothing but a reset changes that (R74). That the hashing clock has no
part in it is a DESIGN CHOICE (R355 d; log entry 33). -/
def Engine.validPulse (c : ChipVariant) (e : Engine) (x : Word) : Engine :=
  if e.rises x c.ecrValidData ∧ (e.phase = .idle ∨ e.phase = .ended) then
    { e with phase := .busy, taken := e.buffered }
  else e

/-- The read-complete bit is set: DONE is withdrawn (`unacked` becomes as given); what `ESR` shows of the job afterwards
is not said. -/
def Engine.acknowledge (e : Engine) (unacked : Option Bool) : Engine :=
  { e with unacked := unacked, phase := if e.phase = .ended then .idle else e.phase }

/-- The read-complete pulse withdraws DONE (R83), at its rising edge (DESIGN CHOICE, as R83 speaks of the whole pulse;
log entry 22). Where it is not known whether the bit was set before, DONE is unknown between the two writes, and
withdrawn at the latest at the one that clears the bit, but for an end recorded between them. The solution stays in the
FIFO: that neither this pulse nor a mask takes it out is a DESIGN CHOICE, as R82 and R83 name NONCE and DONE only (log
entry 33). -/
def Engine.readCompletePulse (c : ChipVariant) (e : Engine) (x : Word) : Engine :=
  if e.rises x c.ecrReadComplete then e.acknowledge (some false)
  else if e.control = none ∧ hasBits x c.ecrReadComplete then
    e.acknowledge (if e.unacked = some true then none else e.unacked)
  else if e.falls x c.ecrReadComplete ∧ e.unacked = none then { e with unacked := some false }
  else e

/-- A landed write of engine-control. -/
def Engine.writeEcr (c : ChipVariant) (e : Engine) (x : Word) : Engine :=
  { ((e.resetPulse c x).validPulse c x).readCompletePulse c x with control := some x }

/-- A landed write of a bound register: the engine takes it at once (R55 c, R74, R78), but for a core that is busy,
whose job nothing but a reset changes (R74). -/
def Engine.writeBound (e : Engine) (r : BitVec 7) (x : Word) : Engine :=
  { e with
    boundRegs := Store.put e.boundRegs r.toNat x
    bounds := if e.phase = .busy then e.bounds else Store.put e.bounds r.toNat x }

/-- A landed write of a core-level register as the engine sees it (R78 to R83). Bounds are consumed at once, M, V and
match held until valid-data (R78); that LIMIT, STEP and every other core-level register are held too is a DESIGN
CHOICE, as the spec does not say what the engine does with them (R51, U12; log entry 22). That a mask leaves the
solution in the FIFO is one too (R82; log entry 33). -/
def Engine.write (c : ChipVariant) (e : Engine) (r : BitVec 7) (x : Word) : Engine :=
  if r = c.reg.ecr then e.writeEcr c x
  else if r = c.reg.fcr then { e with masks := some x }
  else if r = c.reg.lb ∨ r = c.reg.ub then e.writeBound r x
  else { e with buffered := Store.put e.buffered r.toNat x }

/-- The core finishes, perhaps with a candidate in a slot (R81, U19). It is no longer busy, so bounds written meanwhile
are taken. -/
def Engine.finish (e : Engine) (found : Option (Nat × Word)) : Engine :=
  { e with
    phase := if e.phase = .busy then .ended else e.phase
    bounds := e.boundRegs
    unacked := some true
    pending := e.pending ++ found.toList }

/-- A candidate is put in a slot by a core that goes on computing (R81, U19). -/
def Engine.candidate (e : Engine) (slot : Nat) (x : Word) : Engine :=
  { e with pending := e.pending ++ [(slot, x)] }

/-- The supply is switched: at a supply-off, and at a supply-on of a board not known to be on, all that is known of the
core is lost (R333, U2). -/
def Engine.supply (e : Engine) (on : Bool) : Engine :=
  if on ∧ e.power = some true then e else { Engine.unknown with power := some on }

/-- What one recorded effect tells of core `k` of chip `c` on board `b`, whose supply is not known to be off. After a
frame whose effect the spec leaves as any value (U7) nothing is known of the core. A sample of DONE that finds the chip's
bit clear tells that no core of it had an end unacknowledged before; an end on record is ended by a read-complete pulse
alone (R81). -/
def Engine.observePowered (p : Params) (b c k : Nat) (e : Engine) : Effect → Engine
  | .landed board bytes true =>
    match decode bytes with
    | .error _ => e
    | .ok i =>
      if board ≠ b then e
      else if effectGiven p (wireOf i) = false then e.forgotten
      else if (c, k) ∈ locations p.plat.chips (wireOf i) then
        e.write (p.chip (wireOf i).fmt) (wireOf i).reg (wireOf i).data
      else e
  | .engine board chip core found => if board = b ∧ chip = c ∧ core = k then e.finish found else e
  | .candidate board chip core slot x => if board = b ∧ chip = c ∧ core = k then e.candidate slot x else e
  | .lines .done board answer =>
    if board = b ∧ c < p.plat.chips ∧ answer.getLsbD c = false ∧ e.unacked = none then
      { e with unacked := some false }
    else e
  | _ => e

/-- What one recorded effect tells of core `k` of chip `c` on board `b`: while its supply is known to be off, nothing but
a supply-on. That a line sampled then tells nothing of the core is a DESIGN CHOICE (U2; log entry 33). -/
def Engine.observe (p : Params) (b c k : Nat) (e : Engine) (x : Effect) : Engine :=
  match x with
  | .supplyEnable board on => if board = b then e.supply on else e
  | _ => if e.power = some false then e else Engine.observePowered p b c k e x

/-- The reference engine of a core, from everything recorded so far. -/
def engineAt (s : State) (b c k : Nat) : Engine :=
  s.trace.foldl (Engine.observe s.par b c k) Engine.unknown

/-- The cores of a board's chips. -/
def coresOf (s : State) (b : Nat) : List Nat :=
  List.range (s.variantOf b).cores

/-- A core raises NONCE: it has a pending solution and its masks are clear (R46, R82). -/
def Engine.raisesNonce (e : Engine) : Bool :=
  e.pending ≠ [] ∧ e.masks = some 0

/-- A core is silent on NONCE: nothing pending, or every mask bit set (R46, R82). -/
def Engine.silentNonce (c : ChipVariant) (e : Engine) : Bool :=
  (e.cleared ∧ e.pending = []) ∨ e.masks = some c.fcrMaskAll

/-- The value a read brings back of a register that holds `x`: the chip displaces it, the controller shifts it back,
and the top `SHIFT` bits are lost (R77, R101). -/
def readBack (v : Variant) (shift : Nat) (x : Word) : Word :=
  truncW v (truncW v x <<< shift) >>> shift

/-- STORAGE, with the read erratum (R76, R77): a chip that was awake when a write reached it, and has been since,
answers a read of that register with the value last delivered, so displaced that the controller's shift brings it
back; the bit that is shifted out is any (U10). `awake` says of which chips that holds, at each length of the trace. -/
def Assume.storage (awake : Nat → Nat → Nat → Prop) (s : State) (b c k : Nat) (r : BitVec 7) (rx : Rx) : Prop :=
  ∀ (before after : List Effect) (bytes : List Byte) (i : Instr) (x : Word),
    s.trace = before ++ .landed b bytes true :: after → decode bytes = .ok i →
    (c, k) ∈ locations s.par.plat.chips (wireOf i) → (wireOf i).reg = r →
    (∀ n, before.length ≤ n → n ≤ s.trace.length → awake n b c) → s.regAt b c k r.toNat = some x →
    truncW (s.variantOf b) rx.raw >>> (s.cfgOf b).shift = readBack (s.variantOf b) (s.cfgOf b).shift x

/-- STATUS (R80): a core busy with the job it took shows busy, and one that has ended it shows done. -/
def Assume.status (s : State) (b c k : Nat) (answer : Word) : Prop :=
  ((engineAt s b c k).phase = .busy → answer &&& (s.cfgOf b).esrBusy ≠ 0)
    ∧ ((engineAt s b c k).phase = .ended → answer &&& (s.cfgOf b).esrDone ≠ 0)

/-- DONE (R81, R83): a chip's bit is set while any core of it has finished unacknowledged, and clear while none has. -/
def Assume.doneLine (s : State) (b : Nat) (answer : ChipBits) : Prop :=
  ∀ c < s.par.plat.chips,
    ((∃ k ∈ coresOf s b, (engineAt s b c k).unacked = some true) → answer.getLsbD c = true)
    ∧ ((∀ k ∈ coresOf s b, (engineAt s b c k).unacked = some false) → answer.getLsbD c = false)

/-- NONCE (R81, R82): a chip's bit is set while any core of it has an unmasked pending solution, and
clear while none has. -/
def Assume.nonceLine (s : State) (b : Nat) (answer : ChipBits) : Prop :=
  ∀ c < s.par.plat.chips,
    ((∃ k ∈ coresOf s b, (engineAt s b c k).raisesNonce) → answer.getLsbD c = true)
    ∧ ((∀ k ∈ coresOf s b, (engineAt s b c k).silentNonce (s.cfgOf b)) → answer.getLsbD c = false)

/-- Exactly one core `k` of chip `c` has exactly one solution pending, `x` in its first slot (the premise of R84). -/
def soleSolution (s : State) (b c k : Nat) (x : Word) : Prop :=
  k ∈ coresOf s b ∧ (∀ j ∈ coresOf s b, (engineAt s b c j).cleared) ∧ (engineAt s b c k).pending = [(0, x)]
    ∧ ∀ j ∈ coresOf s b, j ≠ k → (engineAt s b c j).pending = []

/-- VECTOR (R84): then the decoded vector names that core and that slot. -/
def Assume.vector (s : State) (b c k : Nat) (answer : Word) : Prop :=
  ∀ x, soleSolution s b c k x → ivrExpected (s.cfgOf b) k answer

/-- SOLUTION (R84): and a read of that core's first FIFO-data register returns the solution, through the erratum
(R101). -/
def Assume.solution (s : State) (b c k : Nat) (answer : Word) : Prop :=
  ∀ x, soleSolution s b c k x → answer = readBack (s.variantOf b) (s.cfgOf b).shift x

/-- THRESHOLD (R250, U9): chip `c` answers a calibration read with the startup pattern exactly when the
level is at or below its threshold, and with 0 otherwise. -/
def thresholdAnswer (v : Variant) (c : ChipVariant) (t : Nat → Int) (level : Int) (chip : Nat) : Option Rx :=
  some { header := 0, raw := if level ≤ t chip then truncW v (c.ocrbStartup <<< c.shift) else 0 }

end Sys2Proof.Machine
end

