-- ==== Sys2Proof/Safety.lean ====
section
/-! DEFINITION. The terms in which statements say what a good state and a good step are. -/

namespace Sys2Proof.Machine

/-- The register bus is in canonical form (Store.Sorted): its unlisted registers have no known value, so
no listed one equals what an unlisted one reads as. -/
abbrev State.memoryWf (s : State) : Prop := Store.Sorted s.regs

/-- The count and the mask of a board's calibration agree and stay inside the string (R37, R38). -/
def calOk (p : Params) (c : BoardCal) : Prop :=
  c.awake = countBits c.pass p.plat.chips ∧ ∀ i, p.plat.chips ≤ i → c.pass.getLsbD i = false

/-- Chip-select discipline (R25, R72): the only chip-select that can be set is the one of the board
whose write is in flight. -/
def csOk (s : State) : Prop :=
  ∀ b, s.csOf b = true → ∃ fl, s.inflight = some fl ∧ fl.board = b

/-- A register with a known value is one of a board whose supply is on (R333, R367). -/
def poweredOk (s : State) : Prop :=
  ∀ p ∈ s.regs, (s.hwOf (p.1 / boardSpan)).supplyOn = true

/-- The invariant of the whole machine: a platform whose chips fit the 7-bit chip field (R9, R10),
canonical data, agreement of masks and counts, chip-select discipline, nothing known of a board without supply. -/
structure MachineInv (s : State) : Prop where
  platform : s.par.plat.chips ≤ 128
  memory : s.memoryWf
  jobsCanon : Store.Canon JobMachine.initial s.jobs
  calCanon : Store.Canon BoardCal.initial s.cal
  hwCanon : Store.Canon BoardHw.initial s.hw
  csCanon : Store.Canon false s.cs
  calAgree : ∀ b, calOk s.par (s.board b)
  csDiscipline : csOk s
  powered : poweredOk s

/-- Once power-up has set it, the level stays between floor and start, and it is the last value handed to the
supply (R39). -/
def levelOk (s : State) (b : Nat) : Prop :=
  (s.board b).state ≠ .notInitialized → (s.board b).state ≠ .calPowerUp →
    s.par.plat.levelFloor ≤ (s.board b).level ∧ (s.board b).level ≤ s.par.plat.levelStart
      ∧ (s.hwOf b).supplyLevel = (s.board b).level

/-- The part of the state a bus transaction may write (R150): everything else of the state is equal. -/
def sameBesidesBus (s t : State) : Prop :=
  t.par = s.par ∧ t.pending = s.pending ∧ t.jobs = s.jobs ∧ t.cal = s.cal ∧ t.hw = s.hw
    ∧ t.between = s.between ∧ t.doneAnswers = s.doneAnswers ∧ t.nonceAnswers = s.nonceAnswers
    ∧ t.saneAnswers = s.saneAnswers

/-- The bus is idle (R142, R143). -/
def busIdle (s : State) : Prop := s.inflight = none ∧ s.otherHolds = false

/-- The first `n` bus waits end in time: the scripted answers say so. -/
def waitsEnd (s : State) (n : Nat) : Prop :=
  ∃ rest, s.waitAnswers = List.replicate n true ++ rest

/-- The next synchronous reads get these answers: the scripted ones say so. -/
def readsAnswer (s : State) (l : List (Option Rx)) : Prop :=
  ∃ rest, s.rxAnswers = l ++ rest

/-- Which cores of which chips of its board a write frame addresses (R61). -/
def addresses (p : Params) (w : Wire) (c k : Nat) : Prop :=
  match w.mode with
  | .singleWrite => c = w.chip.toNat ∧ k = w.core.toNat
  | .singleRead => False
  | .chipWideWrite => c = w.chip.toNat ∧ k < w.fmt.cores
  | .multicastWrite => c < p.plat.chips ∧ k < w.fmt.cores

/-- The value a read brings back, from the raw data bytes: its low `W` bits, shifted right by the erratum
amount (R101). -/
def decodedRead (v : Variant) (shift : Nat) (rx : Rx) : Word :=
  truncW v rx.raw >>> shift

/-- The frames a state's trace shows on the bus: every transfer that was started or done, in order. -/
def busFrames (t : List Effect) : List (Nat × List Byte) :=
  t.filterMap fun e => match e with
    | .xferStart b tx => some (b, tx)
    | .xferSync b tx _ => some (b, tx)
    | _ => none

/-- What logical frames look like on the bus, with the configuration of each frame's board. -/
def onTheBus (s : State) (fs : List Frame) : List (Nat × List Byte) :=
  fs.map fun f => (f.board, s.encodeFor f)

/-- The effects `t` adds to the trace of `s` put exactly these frames on the bus, in this order. -/
def sends (s t : State) (fs : List Frame) : Prop :=
  busFrames t.trace = busFrames s.trace ++ onTheBus s fs

/-- A single write to a control register of a job's target core (R212). -/
def ctlFrame (v : Variant) (t : Target) (r : BitVec 7) (x : Word) : Frame :=
  writeFrame v t.board t.chip t.core r x

/-- A single read of a register of a job's target core. -/
def ctlRead (t : Target) (r : BitVec 7) : Frame :=
  readFrame t.board t.chip t.core r

/-- The four writes that open a start sequence: engine reset, clear, unmask, valid-data (R185, R186, R188). -/
def startOpening (v : Variant) (c : ChipVariant) (t : Target) : List Frame :=
  [ctlFrame v t c.reg.ecr (ecrReset c), ctlFrame v t c.reg.ecr 0, ctlFrame v t c.reg.fcr 0,
    ctlFrame v t c.reg.ecr c.ecrValidData]

/-- The pre-start check, where it is made, finds neither line set for the target chip (R187): the scripted samples
say so. -/
def prestartClear (s : State) (t : Target) : Prop :=
  s.par.plat.verifyPrestart = false ∨ ∃ d ds n ns, s.doneAnswers = d :: ds ∧ s.nonceAnswers = n :: ns
    ∧ (d &&& chipMask s.par.plat.chips).getLsbD t.chip = false ∧ (n &&& chipMask s.par.plat.chips).getLsbD t.chip = false

/-- Every frame of a device initialisation, in order (R260 to R268). -/
def initFrames (s : State) (b : Nat) : List Frame :=
  initDefaults (s.variantOf b) (s.cfgOf b) b
    ++ [allFrame (s.variantOf b) b (s.cfgOf b).reg.ecr (ecrReset (s.cfgOf b)), allFrame (s.variantOf b) b (s.cfgOf b).reg.ecr 0]
    ++ initOscFrames s b

/-- The machine a command names, if it is a command of spec/43_job_lifecycle.md. -/
def jobOf : Command → Option Nat
  | .preloadJob m _ _ => some m
  | .startJob m => some m
  | .waitPoll m _ => some m
  | .readSolution m => some m
  | .waitAndReadSolution m _ => some m
  | .jobReset m => some m
  | _ => none

/-- The board whose calibration state a command may write (R36, R221, R343, R344). -/
def boardOf : Command → Option Nat
  | .boardDetect b _ _ => some b
  | .boardReset b => some b
  | .calibrateString b => some b
  | .calibrationStep b _ => some b
  | _ => none

/-- The fields of a logical frame fit their widths and its core is 0 in the broadcast modes (R112). -/
def Frame.valid (v : Variant) (f : Frame) : Prop :=
  f.chip < 2 ^ 7 ∧ f.core < 2 ^ 8 ∧ f.reg < 2 ^ 7 ∧ f.data < 2 ^ v.width ∧ (broadcast f.mode = true → f.core = 0)

/-- The transitions a command may make on the machine it names (R180): from, to. The blocking form of the
wait passes through SolutionReady within the command (R207). -/
def jobMove : Command → JState → JState → Bool
  | .preloadJob _ _ _, a, b => a = .idle ∧ (b = .preloaded ∨ b = .error)
  | .startJob _, a, b => a = .preloaded ∧ (b = .started ∨ b = .error)
  | .waitPoll _ _, a, b => waiting a ∧ (b = .solutionReady ∨ b = .awaitingSolution ∨ b = .error)
  | .readSolution _, a, b => a = .solutionReady ∧ (b = .idle ∨ b = .error)
  | .waitAndReadSolution _ _, a, b => waiting a ∧ (b = .idle ∨ b = .error)
  | .jobReset _, _, b => b = .idle
  | _, _, _ => false

/-- Whether a state admits a command (R111, column "admitted in state"). A board that is absent or out of
range has no calibration state to refuse in: its commands are admitted and answer `NotFound` (R303). -/
def admits (c : Command) (s : State) : Bool :=
  match c with
  | .preloadJob m _ _ => (s.machine m).jstate = .idle
  | .startJob m => (s.machine m).jstate = .preloaded
  | .waitPoll m _ => waiting (s.machine m).jstate
  | .readSolution m => (s.machine m).jstate = .solutionReady
  | .waitAndReadSolution m _ => waiting (s.machine m).jstate
  | .calibrateString b => s.par.plat.boards ≤ b ∨ (s.board b).state = .notInitialized
  | .calibrationStep b _ => s.par.plat.boards ≤ b ∨ calTerminal (s.board b).state = false
  | .initializeDevice b => checkBoard s b ≠ none ∨ initAdmitted (s.board b).state
  | _ => true

end Sys2Proof.Machine
end

