-- ==== Sys2Proof/Certificates/Slice0/Obligations.lean ====
section
/-! DEFINITION. The statements for the provers: what the rules of the spec say of the codec, the frames, the
dispatcher, the job machines, calibration, device initialisation, the builder and reset. -/

open Sys2Proof Sys2Proof.Machine

/-! ## The encoding -/

/-- Decoding an encoded well-formed frame gives it back, for every operand value of all eight frames. -/
def Obligations.DecodeEncodeRoundTrip : Prop :=
  ∀ i : Instr, i.wf = true → decode (encode i) = .ok i

/-- R91: the three header bytes, field by field. -/
def Obligations.HeaderByteLayout : Prop :=
  ∀ i : Instr, i.wf = true →
    (encode i)[0]? = some (modeCode (wireOf i).mode ++ (wireOf i).chip.extractLsb' 1 6)
    ∧ (encode i)[1]? = some ((wireOf i).chip.extractLsb' 0 1 ++ (wireOf i).core.extractLsb' 1 7)
    ∧ (encode i)[2]? = some ((wireOf i).core.extractLsb' 0 1 ++ (wireOf i).reg)

/-- R90, R93: the length of a frame, whatever its mode, and its data bytes, most significant first. -/
def Obligations.DataByteLayout : Prop :=
  ∀ i : Instr,
    (encode i).length = 3 + (wireOf i).fmt.dataBytes
    ∧ (wireOf i).fmt.dataBytes = (match (wireOf i).fmt with | .dcr1 => 4 | .sc1 => 8)
    ∧ ∀ j, j < (wireOf i).fmt.dataBytes →
        (encode i)[3 + j]? = some ((wireOf i).data.extractLsb' ((wireOf i).fmt.width - 8 - 8 * j) 8)

/-- R97, R98: how a logical frame's core and register become fields: the core zeroed in the two broadcast modes, the
register address of a read shifted first, each kept to its width. -/
def Obligations.CoreAndRegisterFields : Prop :=
  ∀ (v : Variant) (shift : Nat) (f : Frame),
    (wireOf (assemble v shift f)).fmt = v ∧ (wireOf (assemble v shift f)).mode = f.mode
    ∧ (wireOf (assemble v shift f)).core.toNat = (if broadcast f.mode then 0 else f.core % 2 ^ 8)
    ∧ (wireOf (assemble v shift f)).reg.toNat
        = (if f.mode = .singleRead then f.reg * 2 ^ shift % 2 ^ 7 else f.reg % 2 ^ 7)

/-- R127: decoding what a logical frame encodes to, and the round trip it gives exactly without the erratum. -/
def Obligations.CodecDecodeAfterEncode : Prop :=
  (∀ (v : Variant) (shift : Nat) (f : Frame),
    decodeFrame v shift f.board (encodeFrame v shift f) = some
      { mode := f.mode
        board := f.board
        chip := f.chip % 2 ^ 7
        core := if broadcast f.mode then 0 else f.core % 2 ^ 8
        reg := if f.mode = .singleRead then f.reg * 2 ^ shift % 2 ^ 7 else f.reg % 2 ^ 7
        data := (f.data % 2 ^ v.width) / 2 ^ shift })
  ∧ ∀ (v : Variant) (shift : Nat), shift ≤ 1 →
      ((∀ f : Frame, f.valid v → decodeFrame v shift f.board (encodeFrame v shift f) = some f) ↔ shift = 0)

/-- R128: encoding what a buffer decodes to, with and without the erratum, and where encoding is injective. -/
def Obligations.CodecEncodeAfterDecode : Prop :=
  (∀ (v : Variant) (b : Nat) (buf : List Byte) (i : Instr), decode buf = .ok i → (wireOf i).fmt = v → i.wf = true →
    ∃ f, decodeFrame v 0 b buf = some f ∧ encodeFrame v 0 f = buf)
  ∧ (∀ (v : Variant) (b : Nat) (buf : List Byte) (i : Instr), decode buf = .ok i → (wireOf i).fmt = v → i.wf = true →
      ∃ f, decodeFrame v 1 b buf = some f
        ∧ (wireOf (assemble v 1 f)).data.toNat = (wireOf i).data.toNat / 2
        ∧ (wireOf (assemble v 1 f)).reg.toNat
            = (if (wireOf i).mode = .singleRead then (wireOf i).reg.toNat * 2 % 2 ^ 7 else (wireOf i).reg.toNat))
  ∧ (∀ v : Variant, ∃ (buf : List Byte) (i : Instr) (f : Frame), decode buf = .ok i ∧ (wireOf i).fmt = v ∧ i.wf = true
      ∧ decodeFrame v 1 0 buf = some f ∧ encodeFrame v 1 f ≠ buf)
  ∧ (∀ (v : Variant) (f g : Frame), f.valid v → g.valid v → f.board = g.board →
      encodeFrame v 0 f = encodeFrame v 0 g → f = g)
  ∧ ∀ (v : Variant) (f : Frame), f.mode = .singleRead →
      encodeFrame v 1 f = encodeFrame v 1 { f with reg := f.reg + 64 }

/-- No byte sequence of a frame's length is an illegal frame, and none of another length is a frame. -/
def Obligations.EveryBufferDecodes : Prop :=
  ∀ buf : List Byte,
    (buf.length = 7 ∨ buf.length = 11 →
      ∃ i, decode buf = .ok i ∧ (encode i).length = buf.length ∧ (i.wf = true → encode i = buf))
    ∧ (buf.length ≠ 7 → buf.length ≠ 11 → decode buf = .error (.badLength buf.length))

/-- Words written out by hand from the encoding decode to the frames they stand for: E1, E2, E3, K4, E6 and K5 of
spec/95_test_vectors.md section 2, frame 12 of L2 in its section 4, and E5's fields in the 64-bit format. The
mode codes are the spec's own choice D2 (notes/assumptions/4.md). -/
def Obligations.WrittenWordsDecode : Prop :=
  decode [0x02, 0x84, 0xAA, 0x01, 0x23, 0x45, 0x67, 0x89, 0xAB, 0xCD, 0xEF] = .ok (.wr64 5 9 0x2A 0x0123456789ABCDEF)
  ∧ decode [0x02, 0x84, 0xAA, 0x89, 0xAB, 0xCD, 0xEF] = .ok (.wr32 5 9 0x2A 0x89ABCDEF)
  ∧ decode [0x47, 0x40, 0x35, 0, 0, 0, 0, 0, 0, 0, 0] = .ok (.rd64 14 0x80 0x35 0)
  ∧ decode [0x40, 0x80, 0xAA, 0xC9, 0xDC, 0x3A, 0xEC] = .ok (.rd32 1 1 0x2A 0xC9DC3AEC)
  ∧ decode [0x81, 0x00, 0x1C, 0, 0, 0, 1] = .ok (.wrc32 2 0 0x1C 1)
  ∧ decode [0xC0, 0x00, 0x20, 0, 0, 0, 0, 0x0B, 0x60, 0x93, 0x66] = .ok (.wra64 0 0 0x20 0x0B609366)
  ∧ decode [0xFF, 0xFF, 0xFF, 0xFF, 0xFF, 0xFF, 0xFF] = .ok (.wra32 0x7F 0xFF 0x7F 0xFFFFFFFF)
  ∧ decode [0x81, 0x80, 0x10, 0, 0, 0, 0, 0xDE, 0xAD, 0xBE, 0xEF] = .ok (.wrc64 3 0 0x10 0xDEADBEEF)

/-! ## The step -/

/-- A step on a pending frame whose bytes decode to `i` is exec of `i`, on the state with the event taken and the
frame's board in `f.board`. That bytes of another number than 7 or 11 (R90, R104) refuse is notes/assumptions/9.md
(DEDUCED), and that events come from a queue notes/assumptions/26.md (DESIGN CHOICE). -/
def Obligations.StepRunsDecodedInstr : Prop :=
  ∀ (s : State) (b : Nat) (bytes : List Byte) (rest : List Event), s.pending = .frame b bytes :: rest →
    (∀ i, decode bytes = .ok i → step s = exec i { s with pending := rest, f := { s.f with board := b } })
    ∧ (bytes.length ≠ 7 → bytes.length ≠ 11 → step s = .refused (.undecodable bytes.length))

/-- A step on a pending command or move runs it on the state with the event taken; with nothing pending nothing
changes (R340). -/
def Obligations.StepRunsCommandsAndMoves : Prop :=
  ∀ s : State,
    (s.pending = [] → step s = .next s)
    ∧ (∀ c rest, s.pending = .command c :: rest → step s = runCommand c { s with pending := rest })
    ∧ ∀ m rest, s.pending = .move m :: rest → step s = runMove m { s with pending := rest }

/-! ## The frames on the bus -/

/-- The six write frames WR, WRC, WRA in both formats, on an idle bus: the multiplexer routed when the memo asks for
it (R144), one chip-select asserted (R145), the bytes started and left in flight (R148), the rest unchanged (R150), and
no register of any chip changed yet. What `rxbuf` holds then is any value (U3). That `f` takes the frame's fields is
notes/assumptions/2.md (DESIGN CHOICE), and that the far end of the multiplexer moves with the memo
notes/assumptions/24.md (DEDUCED). -/
def Obligations.WriteFrameStarts : Prop :=
  ∀ (i : Instr) (s : State), (wireOf i).mode ≠ .singleRead → s.f.board < s.par.plat.boards →
    s.variantOf s.f.board = (wireOf i).fmt → busIdle s →
    ∃ t, exec i s = .next t
      ∧ t.result = .transferred none
      ∧ t.inflight = some ⟨s.f.board, encode i⟩ ∧ t.txbuf = encode i ∧ t.f = frameOf s.f.board i
      ∧ t.mux = .asic ∧ t.route = (if s.mux = .asic then s.route else .asic)
      ∧ (∀ b, t.csOf b = if b = s.f.board then true else s.csOf b)
      ∧ t.trace = s.trace ++ (if s.mux = .asic then [] else [.muxSet .asic])
          ++ [.csAssert s.f.board, .xferStart s.f.board (encode i)]
      ∧ t.regs = s.regs ∧ t.otherHolds = s.otherHolds ∧ sameBesidesBus s t
      ∧ t.waitAnswers = s.waitAnswers ∧ t.rxAnswers = s.rxAnswers ∧ t.landAnswers = s.landAnswers

/-- The two read frames RD on an idle bus, answered (R147): the decoded data is the result and goes to `f.data`,
the chip-select is deasserted, nothing is in flight and no register has changed. The header bytes of the answer are
any (R109, U3); that `f`'s other fields take the frame's is notes/assumptions/2.md (DESIGN CHOICE), and the far end of
the multiplexer notes/assumptions/24.md (DEDUCED). -/
def Obligations.ReadFrameCompletes : Prop :=
  ∀ (i : Instr) (s : State) (rx : Rx) (rest : List (Option Rx)), (wireOf i).mode = .singleRead →
    s.f.board < s.par.plat.boards → s.variantOf s.f.board = (wireOf i).fmt → busIdle s →
    s.rxAnswers = some rx :: rest →
    ∃ t d, exec i s = .next t
      ∧ d = decodedRead (wireOf i).fmt (s.cfgOf s.f.board).shift rx
      ∧ t.result = .transferred (some d) ∧ t.f = { frameOf s.f.board i with data := d.toNat }
      ∧ t.inflight = none ∧ t.txbuf = encode i ∧ t.rxbuf = rxBytes (wireOf i).fmt rx
      ∧ t.mux = .asic ∧ t.route = (if s.mux = .asic then s.route else .asic)
      ∧ (∀ b, t.csOf b = if b = s.f.board then false else s.csOf b)
      ∧ t.trace = s.trace ++ (if s.mux = .asic then [] else [.muxSet .asic])
          ++ [.csAssert s.f.board, .xferSync s.f.board (encode i) (some (rxBytes (wireOf i).fmt rx))]
      ∧ t.regs = s.regs ∧ t.otherHolds = s.otherHolds ∧ sameBesidesBus s t
      ∧ t.waitAnswers = s.waitAnswers ∧ t.rxAnswers = rest ∧ t.landAnswers = s.landAnswers

/-- The two read frames RD on an idle bus when the back end times out (R147): `Busy` (the spec's decision D40),
recovery (D41), `f.data` as the frame brought it. That `f`'s other fields take the frame's is notes/assumptions/2.md
(DESIGN CHOICE). -/
def Obligations.ReadFrameTimesOut : Prop :=
  ∀ (i : Instr) (s : State) (rest : List (Option Rx)), (wireOf i).mode = .singleRead →
    s.f.board < s.par.plat.boards → s.variantOf s.f.board = (wireOf i).fmt → busIdle s → s.rxAnswers = none :: rest →
    ∃ t, exec i s = .next t
      ∧ t.result = .err ⟨.busy, .nothing⟩ ∧ t.f = frameOf s.f.board i ∧ t.inflight = none ∧ (∀ b, t.csOf b = false)
      ∧ t.mux = .asic
      ∧ t.trace = s.trace ++ (if s.mux = .asic then [] else [.muxSet .asic])
          ++ [.csAssert s.f.board, .xferSync s.f.board (encode i) none]
          ++ (List.range s.par.plat.boards).map .csDeassert
      ∧ t.regs = s.regs ∧ t.otherHolds = s.otherHolds ∧ sameBesidesBus s t ∧ t.rxAnswers = rest

/-- Every frame on a board that exists and has the frame's format completes, whatever the bus, the back end and
the chips do: started, answered with a value of `W - SHIFT` bits, or `Busy` (for a back-end timeout the spec's decision
D40). `Busy` leaves the bus released and nothing in flight, which is the spec's decision D41 (R305). -/
def Obligations.FrameAlwaysCompletes : Prop :=
  ∀ (i : Instr) (s : State), s.f.board < s.par.plat.boards → s.variantOf s.f.board = (wireOf i).fmt →
    ∃ t, exec i s = .next t
      ∧ (((wireOf i).mode ≠ .singleRead ∧ t.result = .transferred none ∧ t.inflight = some ⟨s.f.board, encode i⟩)
        ∨ ((wireOf i).mode = .singleRead ∧ ∃ d : Word, t.result = .transferred (some d) ∧ t.inflight = none
            ∧ d.toNat < 2 ^ ((wireOf i).fmt.width - min (s.cfgOf s.f.board).shift (wireOf i).fmt.width))
        ∨ (t.result = .err ⟨.busy, .nothing⟩ ∧ t.inflight = none ∧ ∀ b, t.csOf b = false))

/-- A frame that finds the bus held runs, when the wait ends in time, as if issued after the write in flight has
landed and the other user has let go (R72 (a), which the spec infers, R142). That such a wait delivers the write is
notes/assumptions/19.md, and that the other user has let go notes/assumptions/24.md (both DEDUCED). -/
def Obligations.HeldBusIsWaitedFor : Prop :=
  ∀ (i : Instr) (s : State) (rest : List Bool), s.busHeld = true → s.waitAnswers = true :: rest →
    exec i s = exec i { land { s with waitAnswers := rest } with otherHolds := false }

/-- A bus wait that expires (R142, R305): `Busy`, every chip-select deasserted, the write in flight abandoned with
its registers old or new, nothing of this frame on the bus. -/
def Obligations.ExpiredBusWaitIsBusy : Prop :=
  ∀ (i : Instr) (s : State) (rest : List Bool), s.f.board < s.par.plat.boards →
    s.variantOf s.f.board = (wireOf i).fmt → s.busHeld = true → s.waitAnswers = false :: rest →
    ∃ t, exec i s = .next t
      ∧ t.result = .err ⟨.busy, .nothing⟩ ∧ t.inflight = none ∧ (∀ b, t.csOf b = false)
      ∧ t.mux = s.mux ∧ t.route = s.route ∧ t.txbuf = s.txbuf ∧ t.rxbuf = s.rxbuf ∧ t.otherHolds = s.otherHolds
      ∧ busFrames t.trace = busFrames s.trace
      ∧ (∃ before, t.trace = s.trace ++ before ++ (List.range s.par.plat.boards).map .csDeassert ∧ before.length ≤ 1)
      ∧ (t.regs = s.regs ∨ ∃ fl, s.inflight = some fl ∧ t.regs = deliverBytes s fl)
      ∧ sameBesidesBus s t ∧ t.waitAnswers = rest ∧ t.rxAnswers = s.rxAnswers

/-- A frame for a board with no chip-select line faults and one of the other format refuses. That these two stop
is the model's reading of R303 and R104 (notes/assumptions/9.md). -/
def Obligations.FrameStops : Prop :=
  ∀ (i : Instr) (s : State),
    (s.par.plat.boards ≤ s.f.board → exec i s = .fault (.noSuchBoard s.f.board))
    ∧ (s.f.board < s.par.plat.boards → s.variantOf s.f.board ≠ (wireOf i).fmt →
        exec i s = .refused (.formatMismatch s.f.board))

/-- The frame of all eight frames (R150): whatever happens on the bus, the parameters, the pending events, the job
machines, the calibration state, supply and clock, and the scripts of the lines stay, and every register of every chip
too, but for what a write already in flight delivers when it lands or is abandoned (U4). -/
def Obligations.FrameChangesOnlyBusState : Prop :=
  ∀ (i : Instr) (s t : State), exec i s = .next t →
    sameBesidesBus s t ∧ (t.regs = s.regs ∨ ∃ fl, s.inflight = some fl ∧ t.regs = deliverBytes s fl)

/-- Back-end completion (R149) on a board that has its supply, of a frame whose effect the spec gives: exactly the
registers the frame addresses (R61) take its data, every other register of every board reads as before, the chip-select falls.
That no other board takes the frame rests on disp.cs standing for the chip-select lines, which R342 leaves open:
notes/assumptions/11.md (DESIGN CHOICE). -/
def Obligations.LandedWriteReachesItsRegisters : Prop :=
  ∀ (s : State) (rest : List Event) (fl : InFlight) (i : Instr), s.par.plat.chips ≤ 128 →
    s.pending = .move (.env .backendDone) :: rest → s.inflight = some fl → decode fl.bytes = .ok i →
    s.route = .asic → (s.hwOf fl.board).supplyOn = true → effectGiven s.par (wireOf i) = true →
    ∃ t, step s = .next t ∧ t.inflight = none ∧ t.pending = rest
      ∧ (∀ b, t.csOf b = if b = fl.board then false else s.csOf b)
      ∧ ∀ b c k r, c < 128 → k < 256 → r < 128 →
          (b = fl.board ∧ addresses s.par (wireOf i) c k ∧ r = (wireOf i).reg.toNat →
            t.regAt b c k r = some (wireOf i).data)
          ∧ (¬(b = fl.board ∧ addresses s.par (wireOf i) c k ∧ r = (wireOf i).reg.toNat) →
            t.regAt b c k r = s.regAt b c k r)

/-- Back-end completion of the other frames: one whose effect on the chips the spec calls any value (U7) leaves
nothing known of its board's registers and every other board's as they were; one sent while the multiplexer pointed
elsewhere (R354), or to a board whose supply is off (R367), changes no register. The first two are
notes/assumptions/8.md (DESIGN CHOICE), the third notes/assumptions/28.md (DEDUCED); that no other board takes the frame
is notes/assumptions/11.md (DESIGN CHOICE, R342). -/
def Obligations.StrayFramesTeachNothing : Prop :=
  ∀ (s : State) (rest : List Event) (fl : InFlight) (i : Instr),
    s.pending = .move (.env .backendDone) :: rest → s.inflight = some fl → decode fl.bytes = .ok i →
    ∃ t, step s = .next t ∧ t.inflight = none
      ∧ (∀ b, t.csOf b = if b = fl.board then false else s.csOf b)
      ∧ (s.route ≠ .asic ∨ (s.hwOf fl.board).supplyOn = false → t.regs = s.regs)
      ∧ (s.route = .asic → (s.hwOf fl.board).supplyOn = true → effectGiven s.par (wireOf i) = false →
          ∀ b c k r, c < 128 → k < 256 → r < 128 →
          t.regAt b c k r = if b = fl.board then none else s.regAt b c k r)

/-- A register write followed by a read of the same location brings the value back, less the bit the erratum loses,
on a board with its supply on whose chips are awake and store: the environment assumption STORAGE, taken at the moment
the write has landed. R76 gives it for oscillator-control-B alone; that the premise is put for the register at hand,
whichever it is, is notes/assumptions/7.md (DESIGN CHOICE, unsafe for a register that does not store). R77 gives the
displacement. With `SHIFT` 1 a register at 64 or above cannot be read (R99, R356): the read frame then names another
register, so that no real chip is promised to meet the premise there. -/
def Obligations.ReadAfterWriteReturnsTheValue : Prop :=
  ∀ (s t : State) (b c k : Nat) (r : BitVec 7) (x : Word) (rx : Rx) (rest : List (Option Rx)),
    s.par.plat.chips ≤ 128 → s.between = [] → waitsEnd s 2 → (s.mux = .asic → s.route = .asic) →
    (s.hwOf b).supplyOn = true → c < 128 → k < 256 →
    effectGiven s.par (wireOf (assemble (s.variantOf b) (s.cfgOf b).shift (writeFrame (s.variantOf b) b c k r x))) = true →
    s.rxAnswers = some rx :: rest → memWrite b c k r x s = (.ok (), t) →
    Assume.storage (fun _ _ _ => True) (land t) b c k r rx →
    ∃ u, memRead b c k r t = (.ok (truncW (s.variantOf b) (truncW (s.variantOf b) x <<< (s.cfgOf b).shift)
        >>> (s.cfgOf b).shift), u)
      ∧ ((s.cfgOf b).shift = 0 → memRead b c k r t = (.ok (truncW (s.variantOf b) x), u))

/-! ## The transfer command -/

/-- R141: a frame whose mode is none of the four is `InvalidArgument` and nothing is touched, bus busy or not; no
other field of a frame is checked. -/
def Obligations.UndefinedModeIsRejected : Prop :=
  ∀ (f : RawFrame) (s : State),
    (4 ≤ f.mode → runCommand (.transfer f) s = .next { s with result := .err ⟨.invalidArgument, .nothing⟩ })
    ∧ (f.mode < 4 → f.board < s.par.plat.boards →
        ∃ t, runCommand (.transfer f) s = .next t
          ∧ ((∃ d, t.result = .transferred d) ∨ t.result = .err ⟨.busy, .nothing⟩))

/-- The transfer command is exec of the wire frame that the codec assembles: the two agree in everything but the
logical fields that `f` remembers. -/
def Obligations.TransferIsTheWireFrame : Prop :=
  ∀ (raw : RawFrame) (f : Frame) (s : State), raw.typed? = some f → f.board < s.par.plat.boards → s.between = [] →
    ∃ t u, runCommand (.transfer raw) s = .next t
      ∧ exec (assemble (s.variantOf f.board) (s.cfgOf f.board).shift f) (s.setFrame f) = .next u
      ∧ t.setFrame u.f = u

/-! ## Preload -/

/-- R171: the whole preload sequence of either variant, frame by frame. -/
def Obligations.PreloadFrameSequence : Prop :=
  ∀ (c : ChipVariant) (job : Job) (t : Target),
    (preloadFrames .sc1 c job t =
      [ctlFrame .sc1 t c.reg.lb job.lb, ctlFrame .sc1 t c.reg.ub job.ub,
        bFrame .sc1 t (addrM .sc1 c 0) job.m[0], bFrame .sc1 t (addrM .sc1 c 1) job.m[1], bFrame .sc1 t (addrM .sc1 c 2) job.m[2],
        bFrame .sc1 t (addrM .sc1 c 3) job.m[3], bFrame .sc1 t (addrM .sc1 c 5) job.m[4], bFrame .sc1 t (addrM .sc1 c 6) job.m[5],
        bFrame .sc1 t (addrM .sc1 c 7) job.m[6], bFrame .sc1 t (addrM .sc1 c 8) job.m[7], bFrame .sc1 t (addrM .sc1 c 9) job.m[8],
        bFrame .sc1 t c.reg.v[0] job.v[0], bFrame .sc1 t c.reg.v[1] job.v[1], bFrame .sc1 t c.reg.v[2] job.v[2],
        bFrame .sc1 t c.reg.v[3] job.v[3], bFrame .sc1 t c.reg.v[4] job.v[4], bFrame .sc1 t c.reg.v[5] job.v[5],
        bFrame .sc1 t c.reg.v[6] job.v[6], bFrame .sc1 t c.reg.v[7] job.v[7], bFrame .sc1 t c.reg.v[8] job.v[8],
        bFrame .sc1 t c.reg.v[9] job.v[9], bFrame .sc1 t c.reg.v[10] job.v[10], bFrame .sc1 t c.reg.v[11] job.v[11],
        bFrame .sc1 t c.reg.v[12] job.v[12], bFrame .sc1 t c.reg.v[13] job.v[13], bFrame .sc1 t c.reg.v[14] job.v[14],
        bFrame .sc1 t c.reg.v[15] job.v[15], bFrame .sc1 t c.reg.matchReg job.matchVal]
      ∧ (preloadFrames .sc1 c job t).length = 28)
    ∧ (preloadFrames .dcr1 c job t =
      [ctlFrame .dcr1 t c.reg.lb job.lb, ctlFrame .dcr1 t c.reg.ub job.ub,
        bFrame .dcr1 t (addrM .dcr1 c 0) job.m[0], bFrame .dcr1 t (addrM .dcr1 c 1) job.m[1],
        bFrame .dcr1 t (addrM .dcr1 c 2) job.m[2],
        bFrame .dcr1 t (addrM .dcr1 c 4) job.m[3], bFrame .dcr1 t (addrM .dcr1 c 5) job.m[4],
        bFrame .dcr1 t (addrM .dcr1 c 6) job.m[5],
        bFrame .dcr1 t (addrM .dcr1 c 7) job.m[6], bFrame .dcr1 t (addrM .dcr1 c 8) job.m[7],
        bFrame .dcr1 t (addrM .dcr1 c 9) job.m[8],
        bFrame .dcr1 t (addrM .dcr1 c 10) job.m[9], bFrame .dcr1 t (addrM .dcr1 c 11) job.m[10],
        bFrame .dcr1 t (addrM .dcr1 c 12) job.m[11],
        bFrame .dcr1 t c.reg.matchReg job.matchVal]
      ∧ (preloadFrames .dcr1 c job t).length = 15)

/-- R165: no frame of a preload carries the reserved M index's address in its register field, under a register map
that meets R8. -/
def Obligations.PreloadSkipsTheReservedIndex : Prop :=
  ∀ (v : Variant) (c : ChipVariant) (job : Job) (t : Target) (f : Frame), (regAddresses v c).Nodup →
    f ∈ preloadFrames v c job t → (wireOf (assemble v c.shift f)).reg ≠ addrM v c v.mReserved

/-- R168: whatever the bus does, a preload puts a first part of its sequence on the bus, frame for frame: all of it
when it answers `Ok`, less than all of it when it answers the `Busy` that stopped it. -/
def Obligations.PreloadStopsAtTheFirstError : Prop :=
  ∀ (job : Job) (tgt : Target) (s : State),
    ∃ (r : Except Raised Unit) (t : State) (n : Nat), preload job tgt s = (r, t)
      ∧ sends s t ((preloadFrames (s.variantOf tgt.board) (s.cfgOf tgt.board) job tgt).take n)
      ∧ t.jobs = s.jobs ∧ t.cal = s.cal ∧ t.hw = s.hw
      ∧ ((r = .ok () ∧ n = (preloadFrames (s.variantOf tgt.board) (s.cfgOf tgt.board) job tgt).length)
        ∨ (r = .error ⟨.busy, .nothing⟩
            ∧ n < (preloadFrames (s.variantOf tgt.board) (s.cfgOf tgt.board) job tgt).length))

/-- R182, success: in Idle, on a target in range, with every bus wait ending in time, preloadJob latches target and
job, sends the whole sequence, and the machine is Preloaded. -/
def Obligations.PreloadJobSucceeds : Prop :=
  ∀ (m : Nat) (job : Job) (tgt : Target) (s : State), (s.machine m).jstate = .idle →
    tgt.board < s.par.plat.boards → (s.board tgt.board).present = true → tgt.chip < s.par.plat.chips →
    tgt.core < (s.variantOf tgt.board).cores →
    waitsEnd s (preloadFrames (s.variantOf tgt.board) (s.cfgOf tgt.board) job tgt).length →
    ∃ t, runCommand (.preloadJob m job tgt) s = .next t
      ∧ t.machine m = { s.machine m with jstate := .preloaded, tgt := tgt, job := job } ∧ t.result = .ok
      ∧ sends s t (preloadFrames (s.variantOf tgt.board) (s.cfgOf tgt.board) job tgt)
      ∧ t.cal = s.cal ∧ t.hw = s.hw ∧ t.par = s.par

/-- R303 as preloadJob meets it (R182): the board before the chip before the core, the sentinel no core; the machine is
in Error with that error and nothing else has happened. -/
def Obligations.PreloadJobRangeErrors : Prop :=
  ∀ (m : Nat) (job : Job) (tgt : Target) (s : State) (e : Raised), (s.machine m).jstate = .idle →
    ((s.par.plat.boards ≤ tgt.board ∨ (s.board tgt.board).present = false) ∧ e = ⟨.notFound, .index tgt.board⟩
      ∨ tgt.board < s.par.plat.boards ∧ (s.board tgt.board).present = true ∧ s.par.plat.chips ≤ tgt.chip
          ∧ e = ⟨.unsupported, .index tgt.chip⟩
      ∨ tgt.board < s.par.plat.boards ∧ (s.board tgt.board).present = true ∧ tgt.chip < s.par.plat.chips
          ∧ (s.variantOf tgt.board).cores ≤ tgt.core ∧ e = ⟨.unsupported, .index tgt.core⟩) →
    runCommand (.preloadJob m job tgt) s =
      .next { s.setMachine m { s.machine m with jstate := .error, jerr := e.err } with result := .err e }

/-! ## Start -/

/-- R190: a start on the erratum-affected variant, every bus wait ending in time: five writes, the pulse timed, no
read of engine-status, and the machine is Started, whatever a pre-start check finds; one that finds the target chip's
bit of a line set is reported to the log (R187). -/
def Obligations.StartIsTimedOnTheErratumVariant : Prop :=
  ∀ (m : Nat) (s : State), (s.machine m).jstate = .preloaded → (s.cfgOf (s.machine m).tgt.board).shift ≠ 0 →
    waitsEnd s 5 →
    ∃ t, runCommand (.startJob m) s = .next t
      ∧ t.machine m = { s.machine m with jstate := .started } ∧ t.result = .ok
      ∧ sends s t (startOpening (s.variantOf (s.machine m).tgt.board) (s.cfgOf (s.machine m).tgt.board) (s.machine m).tgt
          ++ [ctlFrame (s.variantOf (s.machine m).tgt.board) (s.machine m).tgt (s.cfgOf (s.machine m).tgt.board).reg.ecr 0])
      ∧ Effect.delay .validPulse ∈ t.trace ∧ t.rxAnswers = s.rxAnswers ∧ t.cal = s.cal ∧ t.hw = s.hw
      ∧ ∀ (d n : ChipBits) (ds ns : List ChipBits), s.par.plat.verifyPrestart = true → s.doneAnswers = d :: ds →
          s.nonceAnswers = n :: ns →
          (d &&& chipMask s.par.plat.chips).getLsbD (s.machine m).tgt.chip = true
            ∨ (n &&& chipMask s.par.plat.chips).getLsbD (s.machine m).tgt.chip = true →
          Effect.log (.prestartLines (d &&& chipMask s.par.plat.chips) (n &&& chipMask s.par.plat.chips)) ∈ t.trace

/-- R189, R192: a start on the other variants, every bus wait ending in time and the pre-start check (R187) not made or
passed, when engine-status shows neither bit `p` times and then one of the two: `5 + (p + 1)` frames, the last clearing
valid-data, and the machine is Started. -/
def Obligations.StartPollsUntilStatusIsSeen : Prop :=
  ∀ (m p : Nat) (unseen : List Rx) (seen : Rx) (s : State), (s.machine m).jstate = .preloaded →
    (s.cfgOf (s.machine m).tgt.board).shift = 0 → prestartClear s (s.machine m).tgt →
    unseen.length = p → p < s.par.plat.nStartPolls → waitsEnd s (6 + p) →
    readsAnswer s (unseen.map some ++ [some seen]) →
    (∀ rx ∈ unseen, decodedRead (s.variantOf (s.machine m).tgt.board) 0 rx
      &&& ((s.cfgOf (s.machine m).tgt.board).esrBusy ||| (s.cfgOf (s.machine m).tgt.board).esrDone) = 0) →
    decodedRead (s.variantOf (s.machine m).tgt.board) 0 seen
      &&& ((s.cfgOf (s.machine m).tgt.board).esrBusy ||| (s.cfgOf (s.machine m).tgt.board).esrDone) ≠ 0 →
    ∃ t, runCommand (.startJob m) s = .next t
      ∧ t.machine m = { s.machine m with jstate := .started } ∧ t.result = .ok
      ∧ sends s t (startOpening (s.variantOf (s.machine m).tgt.board) (s.cfgOf (s.machine m).tgt.board) (s.machine m).tgt
          ++ List.replicate (p + 1) (ctlRead (s.machine m).tgt (s.cfgOf (s.machine m).tgt.board).reg.esr)
          ++ [ctlFrame (s.variantOf (s.machine m).tgt.board) (s.machine m).tgt (s.cfgOf (s.machine m).tgt.board).reg.ecr 0])
      ∧ t.cal = s.cal ∧ t.hw = s.hw

/-- R189, R191: when the pre-start check is not made or passed and engine-status shows neither bit in all the polls, the
machine is in Error with `Timeout`, and valid-data was cleared all the same. -/
def Obligations.StartTimesOut : Prop :=
  ∀ (m : Nat) (unseen : List Rx) (s : State), (s.machine m).jstate = .preloaded →
    (s.cfgOf (s.machine m).tgt.board).shift = 0 → prestartClear s (s.machine m).tgt →
    unseen.length = s.par.plat.nStartPolls → waitsEnd s (5 + s.par.plat.nStartPolls) →
    readsAnswer s (unseen.map some) →
    (∀ rx ∈ unseen, decodedRead (s.variantOf (s.machine m).tgt.board) 0 rx
      &&& ((s.cfgOf (s.machine m).tgt.board).esrBusy ||| (s.cfgOf (s.machine m).tgt.board).esrDone) = 0) →
    ∃ t, runCommand (.startJob m) s = .next t
      ∧ t.machine m = { s.machine m with jstate := .error, jerr := .timeout }
      ∧ t.result = .err ⟨.timeout, .nothing⟩
      ∧ sends s t (startOpening (s.variantOf (s.machine m).tgt.board) (s.cfgOf (s.machine m).tgt.board) (s.machine m).tgt
          ++ List.replicate s.par.plat.nStartPolls
            (ctlRead (s.machine m).tgt (s.cfgOf (s.machine m).tgt.board).reg.esr)
          ++ [ctlFrame (s.variantOf (s.machine m).tgt.board) (s.machine m).tgt (s.cfgOf (s.machine m).tgt.board).reg.ecr 0])
      ∧ t.cal = s.cal ∧ t.hw = s.hw

/-- R191: valid-data is cleared whenever its assertion was attempted. In six clauses. (1) A machine that a start leaves
in Started has sent the clearing write as its last frame. (2) Whatever the bus, the chips, the lines and the other
agents do, the frames of a start end with the clearing write, or that write's own bus wait has expired (the start has
failed, nothing is in flight and no chip-select is set), or no frame after the first three was sent. (3) With every bus
wait ending in time, only a fatal pre-start check (R187) leaves the clearing write out. (4) When the bus wait of the
asserting write expires, (5) or the one of the first poll, the clearing write is sent all the same, the `Busy` being the
command's. (6) With `SHIFT` not 0 there is no poll, and the wait that expires there is the clearing write's own.
That no poll is made after a failed assert, in (4) and in the second alternative of (2), is notes/assumptions/17.md
(DEDUCED). -/
def Obligations.StartedMeansDeasserted : Prop :=
  (∀ (m : Nat) (s t : State), runCommand (.startJob m) s = .next t → (t.machine m).jstate = .started →
    ∃ fs, sends s t (fs ++ [ctlFrame (s.variantOf (s.machine m).tgt.board) (s.machine m).tgt
        (s.cfgOf (s.machine m).tgt.board).reg.ecr 0])
      ∧ startOpening (s.variantOf (s.machine m).tgt.board) (s.cfgOf (s.machine m).tgt.board) (s.machine m).tgt <+: fs)
  ∧ (∀ (m : Nat) (s : State), (s.machine m).jstate = .preloaded →
    ∃ t fs k, runCommand (.startJob m) s = .next t ∧ sends s t fs
      ∧ k ≤ s.par.plat.nStartPolls ∧ ((s.cfgOf (s.machine m).tgt.board).shift ≠ 0 → k = 0)
      ∧ (((fs = startOpening (s.variantOf (s.machine m).tgt.board) (s.cfgOf (s.machine m).tgt.board) (s.machine m).tgt
              ++ List.replicate k (ctlRead (s.machine m).tgt (s.cfgOf (s.machine m).tgt.board).reg.esr)
              ++ [ctlFrame (s.variantOf (s.machine m).tgt.board) (s.machine m).tgt
                (s.cfgOf (s.machine m).tgt.board).reg.ecr 0])
          ∨ (t.result ≠ .ok
            ∧ fs = (startOpening (s.variantOf (s.machine m).tgt.board) (s.cfgOf (s.machine m).tgt.board)
                (s.machine m).tgt).take 3
              ++ [ctlFrame (s.variantOf (s.machine m).tgt.board) (s.machine m).tgt
                (s.cfgOf (s.machine m).tgt.board).reg.ecr 0]))
        ∨ (t.result ≠ .ok ∧ t.inflight = none ∧ (∀ b, t.csOf b = false)
          ∧ fs = startOpening (s.variantOf (s.machine m).tgt.board) (s.cfgOf (s.machine m).tgt.board) (s.machine m).tgt
              ++ List.replicate k (ctlRead (s.machine m).tgt (s.cfgOf (s.machine m).tgt.board).reg.esr))
        ∨ (t.result ≠ .ok
          ∧ fs <+: (startOpening (s.variantOf (s.machine m).tgt.board) (s.cfgOf (s.machine m).tgt.board)
              (s.machine m).tgt).take 3)))
  ∧ (∀ (m : Nat) (s : State), (s.machine m).jstate = .preloaded → waitsEnd s (6 + s.par.plat.nStartPolls) →
    ∃ t, runCommand (.startJob m) s = .next t
      ∧ (((s.cfgOf (s.machine m).tgt.board).shift = 0 ∧ s.par.plat.verifyPrestart = true
            ∧ (∃ d n, t.result = .err ⟨.failure, .lines d n⟩)
            ∧ sends s t ((startOpening (s.variantOf (s.machine m).tgt.board) (s.cfgOf (s.machine m).tgt.board)
                (s.machine m).tgt).take 3))
        ∨ ∃ k, k ≤ s.par.plat.nStartPolls ∧ ((s.cfgOf (s.machine m).tgt.board).shift ≠ 0 → k = 0)
            ∧ sends s t (startOpening (s.variantOf (s.machine m).tgt.board) (s.cfgOf (s.machine m).tgt.board)
                (s.machine m).tgt
              ++ List.replicate k (ctlRead (s.machine m).tgt (s.cfgOf (s.machine m).tgt.board).reg.esr)
              ++ [ctlFrame (s.variantOf (s.machine m).tgt.board) (s.machine m).tgt
                (s.cfgOf (s.machine m).tgt.board).reg.ecr 0])))
  ∧ (∀ (m : Nat) (rest : List Bool) (s : State), (s.machine m).jstate = .preloaded → s.between = [] → busIdle s →
    prestartClear s (s.machine m).tgt → s.waitAnswers = true :: true :: false :: rest →
    ∃ t, runCommand (.startJob m) s = .next t
      ∧ t.machine m = { s.machine m with jstate := .error, jerr := .busy } ∧ t.result = .err ⟨.busy, .nothing⟩
      ∧ sends s t ((startOpening (s.variantOf (s.machine m).tgt.board) (s.cfgOf (s.machine m).tgt.board)
            (s.machine m).tgt).take 3
          ++ [ctlFrame (s.variantOf (s.machine m).tgt.board) (s.machine m).tgt
            (s.cfgOf (s.machine m).tgt.board).reg.ecr 0]))
  ∧ (∀ (m : Nat) (rest : List Bool) (s : State), (s.machine m).jstate = .preloaded → s.between = [] → busIdle s →
    prestartClear s (s.machine m).tgt → (s.cfgOf (s.machine m).tgt.board).shift = 0 → 0 < s.par.plat.nStartPolls →
    s.waitAnswers = true :: true :: true :: false :: rest →
    ∃ t, runCommand (.startJob m) s = .next t
      ∧ t.machine m = { s.machine m with jstate := .error, jerr := .busy } ∧ t.result = .err ⟨.busy, .nothing⟩
      ∧ sends s t (startOpening (s.variantOf (s.machine m).tgt.board) (s.cfgOf (s.machine m).tgt.board) (s.machine m).tgt
          ++ [ctlFrame (s.variantOf (s.machine m).tgt.board) (s.machine m).tgt
            (s.cfgOf (s.machine m).tgt.board).reg.ecr 0]))
  ∧ ∀ (m : Nat) (rest : List Bool) (s : State), (s.machine m).jstate = .preloaded → s.between = [] → busIdle s →
    (s.cfgOf (s.machine m).tgt.board).shift ≠ 0 → s.waitAnswers = true :: true :: true :: false :: rest →
    ∃ t, runCommand (.startJob m) s = .next t
      ∧ t.machine m = { s.machine m with jstate := .error, jerr := .busy } ∧ t.result = .err ⟨.busy, .nothing⟩
      ∧ t.inflight = none ∧ (∀ b, t.csOf b = false)
      ∧ sends s t (startOpening (s.variantOf (s.machine m).tgt.board) (s.cfgOf (s.machine m).tgt.board) (s.machine m).tgt)

/-- R187 where `SHIFT = 0`: the pre-start check finds the target chip's bit of a line set: `Failure` with the two line
values, after three frames, valid-data never asserted. -/
def Obligations.PrestartCheckIsFatal : Prop :=
  ∀ (m : Nat) (d n : ChipBits) (ds ns : List ChipBits) (s : State), (s.machine m).jstate = .preloaded →
    (s.cfgOf (s.machine m).tgt.board).shift = 0 → s.par.plat.verifyPrestart = true → waitsEnd s 3 →
    s.doneAnswers = d :: ds → s.nonceAnswers = n :: ns →
    (d &&& chipMask s.par.plat.chips).getLsbD (s.machine m).tgt.chip = true
      ∨ (n &&& chipMask s.par.plat.chips).getLsbD (s.machine m).tgt.chip = true →
    ∃ t, runCommand (.startJob m) s = .next t
      ∧ t.machine m = { s.machine m with jstate := .error, jerr := .failure }
      ∧ t.result = .err ⟨.failure, .lines (d &&& chipMask s.par.plat.chips) (n &&& chipMask s.par.plat.chips)⟩
      ∧ sends s t [ctlFrame (s.variantOf (s.machine m).tgt.board) (s.machine m).tgt (s.cfgOf (s.machine m).tgt.board).reg.ecr
            (ecrReset (s.cfgOf (s.machine m).tgt.board)),
          ctlFrame (s.variantOf (s.machine m).tgt.board) (s.machine m).tgt (s.cfgOf (s.machine m).tgt.board).reg.ecr 0,
          ctlFrame (s.variantOf (s.machine m).tgt.board) (s.machine m).tgt (s.cfgOf (s.machine m).tgt.board).reg.fcr 0]

/-! ## Waiting and reading -/

/-- R193: one poll. The waited line's bit of the target chip decides before the deadline does; no frame is sent. And
R207: the blocking form is polls until one answers something else than `NotYet`, each with its own view of the
deadline, followed by readSolution when the answer is `Ready`. The number of polls that stands for its deadline is
notes/assumptions/18.md (DESIGN CHOICE). -/
def Obligations.WaitPollRule : Prop :=
  (∀ (m : Nat) (expired : Bool) (s : State), (s.machine m).jstate = .started ∨ (s.machine m).jstate = .awaitingSolution →
    ∃ (w : ChipBits) (u t : State), readLine s.par.plat.waitLine (s.machine m).tgt.board s = (w, u)
      ∧ runCommand (.waitPoll m expired) s = .next t ∧ busFrames t.trace = busFrames s.trace
      ∧ t.cal = s.cal ∧ t.hw = s.hw ∧ (∀ m', m' ≠ m → t.machine m' = s.machine m')
      ∧ (w.getLsbD (s.machine m).tgt.chip = true →
          t.machine m = { s.machine m with jstate := .solutionReady } ∧ t.result = .ready)
      ∧ (w.getLsbD (s.machine m).tgt.chip = false → expired = true →
          t.machine m = { s.machine m with jstate := .error, jerr := .timeout } ∧ t.result = .err ⟨.timeout, .nothing⟩)
      ∧ (w.getLsbD (s.machine m).tgt.chip = false → expired = false →
          t.machine m = { s.machine m with jstate := .awaitingSolution } ∧ t.result = .notYet))
  ∧ (∀ (m : Nat) (s u : State), runCommand (.waitPoll m true) s = .next u →
    (u.result = .ready → runCommand (.waitAndReadSolution m 0) s = runCommand (.readSolution m) u)
    ∧ (u.result ≠ .ready → runCommand (.waitAndReadSolution m 0) s = .next u))
  ∧ ∀ (m n : Nat) (s u : State), runCommand (.waitPoll m false) s = .next u →
    (u.result = .ready → runCommand (.waitAndReadSolution m (n + 1)) s = runCommand (.readSolution m) u)
    ∧ (u.result ≠ .ready → u.result = .notYet
        ∧ runCommand (.waitAndReadSolution m (n + 1)) s = runCommand (.waitAndReadSolution m n) u)

/-- R196: an interrupt vector that does not name the expected core and exactly the first slot is a `Failure` carrying
the value read, after one frame: the FIFO is not read and nothing is acknowledged. -/
def Obligations.VectorMismatchIsFailure : Prop :=
  ∀ (m : Nat) (rx : Rx) (x : Word) (s : State), (s.machine m).jstate = .solutionReady → waitsEnd s 1 →
    readsAnswer s [some rx] →
    x = decodedRead (s.variantOf (s.machine m).tgt.board) (s.cfgOf (s.machine m).tgt.board).shift rx →
    (x.toNat / 2 ^ (s.cfgOf (s.machine m).tgt.board).ivrCoreLo % 2 ^ (s.cfgOf (s.machine m).tgt.board).ivrCoreWidth
        ≠ (s.machine m).tgt.core
      ∨ x.toNat / 2 ^ (s.cfgOf (s.machine m).tgt.board).ivrMaskLo % 2 ^ (s.cfgOf (s.machine m).tgt.board).ivrMaskWidth
        ≠ (s.cfgOf (s.machine m).tgt.board).ivrFirstSlot) →
    ∃ t, runCommand (.readSolution m) s = .next t
      ∧ t.machine m = { s.machine m with jstate := .error, jerr := .failure } ∧ t.result = .err ⟨.failure, .ivr x⟩
      ∧ sends s t [readFrame (s.machine m).tgt.board (s.machine m).tgt.chip
          (s.cfgOf (s.machine m).tgt.board).chipCore (s.cfgOf (s.machine m).tgt.board).reg.ivr]

/-- R194 to R202: readSolution when every transfer succeeds and the vector is the expected one: five frames in order, the
value of the first FIFO-data register in `jnonce` and in the result, the residual flag from the two lines, the machine
Idle. And R200, R203: when the bus wait of the write that asserts read-complete expires, the write that clears it is
sent all the same, the machine is in Error with `Busy`, and `jnonce` holds the value read. -/
def Obligations.ReadSolutionSucceeds : Prop :=
  (∀ (m : Nat) (vec sol : Rx) (d n : ChipBits) (ds ns : List ChipBits) (y x : Word) (s : State),
    (s.machine m).jstate = .solutionReady → waitsEnd s 5 → readsAnswer s [some vec, some sol] →
    s.doneAnswers = d :: ds → s.nonceAnswers = n :: ns →
    y = decodedRead (s.variantOf (s.machine m).tgt.board) (s.cfgOf (s.machine m).tgt.board).shift vec →
    y.toNat / 2 ^ (s.cfgOf (s.machine m).tgt.board).ivrCoreLo % 2 ^ (s.cfgOf (s.machine m).tgt.board).ivrCoreWidth
      = (s.machine m).tgt.core →
    y.toNat / 2 ^ (s.cfgOf (s.machine m).tgt.board).ivrMaskLo % 2 ^ (s.cfgOf (s.machine m).tgt.board).ivrMaskWidth
      = (s.cfgOf (s.machine m).tgt.board).ivrFirstSlot →
    x = decodedRead (s.variantOf (s.machine m).tgt.board) (s.cfgOf (s.machine m).tgt.board).shift sol →
    ∃ t, runCommand (.readSolution m) s = .next t
      ∧ t.machine m = { s.machine m with jstate := .idle, jnonce := x }
      ∧ t.result = .solution x (s.par.plat.verifyPostread
          && ((n &&& chipMask s.par.plat.chips).getLsbD (s.machine m).tgt.chip
            || (d &&& chipMask s.par.plat.chips).getLsbD (s.machine m).tgt.chip))
      ∧ sends s t [readFrame (s.machine m).tgt.board (s.machine m).tgt.chip
            (s.cfgOf (s.machine m).tgt.board).chipCore (s.cfgOf (s.machine m).tgt.board).reg.ivr,
          ctlRead (s.machine m).tgt (addrFdr0 (s.cfgOf (s.machine m).tgt.board)),
          ctlFrame (s.variantOf (s.machine m).tgt.board) (s.machine m).tgt
            (s.cfgOf (s.machine m).tgt.board).reg.fcr (s.cfgOf (s.machine m).tgt.board).fcrMaskAll,
          ctlFrame (s.variantOf (s.machine m).tgt.board) (s.machine m).tgt (s.cfgOf (s.machine m).tgt.board).reg.ecr
            (s.cfgOf (s.machine m).tgt.board).ecrReadComplete,
          ctlFrame (s.variantOf (s.machine m).tgt.board) (s.machine m).tgt (s.cfgOf (s.machine m).tgt.board).reg.ecr 0]
      ∧ t.cal = s.cal ∧ t.hw = s.hw)
  ∧ ∀ (m : Nat) (vec sol : Rx) (rest : List Bool) (y x : Word) (s : State),
    (s.machine m).jstate = .solutionReady → s.between = [] → busIdle s → s.waitAnswers = false :: rest →
    readsAnswer s [some vec, some sol] →
    y = decodedRead (s.variantOf (s.machine m).tgt.board) (s.cfgOf (s.machine m).tgt.board).shift vec →
    y.toNat / 2 ^ (s.cfgOf (s.machine m).tgt.board).ivrCoreLo % 2 ^ (s.cfgOf (s.machine m).tgt.board).ivrCoreWidth
      = (s.machine m).tgt.core →
    y.toNat / 2 ^ (s.cfgOf (s.machine m).tgt.board).ivrMaskLo % 2 ^ (s.cfgOf (s.machine m).tgt.board).ivrMaskWidth
      = (s.cfgOf (s.machine m).tgt.board).ivrFirstSlot →
    x = decodedRead (s.variantOf (s.machine m).tgt.board) (s.cfgOf (s.machine m).tgt.board).shift sol →
    ∃ t, runCommand (.readSolution m) s = .next t
      ∧ t.machine m = { s.machine m with jstate := .error, jnonce := x, jerr := .busy }
      ∧ t.result = .err ⟨.busy, .nothing⟩
      ∧ sends s t [readFrame (s.machine m).tgt.board (s.machine m).tgt.chip
            (s.cfgOf (s.machine m).tgt.board).chipCore (s.cfgOf (s.machine m).tgt.board).reg.ivr,
          ctlRead (s.machine m).tgt (addrFdr0 (s.cfgOf (s.machine m).tgt.board)),
          ctlFrame (s.variantOf (s.machine m).tgt.board) (s.machine m).tgt
            (s.cfgOf (s.machine m).tgt.board).reg.fcr (s.cfgOf (s.machine m).tgt.board).fcrMaskAll,
          ctlFrame (s.variantOf (s.machine m).tgt.board) (s.machine m).tgt (s.cfgOf (s.machine m).tgt.board).reg.ecr 0]
      ∧ t.cal = s.cal ∧ t.hw = s.hw

/-! ## The job machines as a whole -/

/-- R180, R34: whatever a step does, a job machine's registers change only by a command that names it, and then its
state moves along an arrow of the transition relation. -/
def Obligations.JobMachinesFollowTheTransitionRelation : Prop :=
  ∀ (s t : State) (m : Nat), step s = .next t →
    t.machine m = s.machine m
      ∨ ∃ c rest, s.pending = .command c :: rest ∧ jobOf c = some m
          ∧ jobMove c (s.machine m).jstate (t.machine m).jstate = true

/-- R181, R315: a command of a job machine that ends in an error leaves the machine in Error with that error, its target
latched. -/
def Obligations.JobErrorsEnterError : Prop :=
  ∀ (c : Command) (m : Nat) (s t : State) (e : Raised), jobOf c = some m → runCommand c s = .next t →
    t.result = .err e →
    (t.machine m).jstate = .error ∧ (t.machine m).jerr = e.err
      ∧ ((t.machine m).tgt = (s.machine m).tgt ∨ ∃ job tgt, c = .preloadJob m job tgt ∧ (t.machine m).tgt = tgt)

/-- R304: exactly the commands issued in a state that does not admit them (R111) are refused. -/
def Obligations.RefusedExactlyWhenNotAdmitted : Prop :=
  ∀ (c : Command) (s : State), runCommand c s = .refused .notAdmitted ↔ admits c s = false

/-- R208, R316: jobReset is admitted in every state, leaves the machine Idle with its job, sends no frame and calls no
collaborator; what `tgt`, `jnonce` and `jerr` then hold is any value. -/
def Obligations.JobResetReturnsToIdle : Prop :=
  ∀ (m : Nat) (s : State), ∃ t, runCommand (.jobReset m) s = .next t
    ∧ (t.machine m).jstate = .idle ∧ (t.machine m).job = (s.machine m).job ∧ t.result = .ok
    ∧ t.trace = s.trace ∧ t.regs = s.regs ∧ t.inflight = s.inflight ∧ t.cs = s.cs ∧ t.mux = s.mux ∧ t.f = s.f
    ∧ t.cal = s.cal ∧ t.hw = s.hw ∧ t.par = s.par ∧ ∀ m', m' ≠ m → t.machine m' = s.machine m'

/-! ## Calibration -/

/-- R222: the start of a calibration, and `NotFound` for a board that is absent or out of range (R303). That an absent
board in a terminal state refuses and does not answer `NotFound` is notes/assumptions/15.md (DEDUCED), so the second
clause leaves it out. -/
def Obligations.CalibrationStart : Prop :=
  ∀ (b : Nat) (settled : Bool) (s : State),
    (b < s.par.plat.boards → (s.board b).present = true → (s.board b).state = .notInitialized →
      runCommand (.calibrationStep b settled) s = .next
        { s.setBoard b { s.board b with pass := 0, awake := 0, status := .inProgress, state := .calPowerUp } with
          result := .inProgress })
    ∧ (s.par.plat.boards ≤ b ∨ ((s.board b).present = false ∧ calTerminal (s.board b).state = false) →
      runCommand (.calibrationStep b settled) s = .next { s with result := .err ⟨.notFound, .index b⟩ })

/-- R223: power-up, the four collaborator calls in order and no frame; sane voltages lead to CalSettle, others to
CalFailed with the supply off. -/
def Obligations.CalibrationPowerUp : Prop :=
  ∀ (b : Nat) (settled sane : Bool) (rest : List Bool) (s : State), b < s.par.plat.boards →
    (s.board b).present = true → (s.board b).state = .calPowerUp → s.between = [] → s.saneAnswers = sane :: rest →
    ∃ t, runCommand (.calibrationStep b settled) s = .next t
      ∧ t.trace = s.trace ++ [.clockEnable b false, .supplySetLevel b s.par.plat.levelStart, .supplyEnable b true,
          .supplySane b sane] ++ (if sane then [] else [.supplyEnable b false])
      ∧ t.hwOf b = { supplyOn := sane, supplyLevel := s.par.plat.levelStart, clockOn := false }
      ∧ t.board b = (if sane then { s.board b with level := s.par.plat.levelStart, state := .calSettle }
          else { s.board b with level := s.par.plat.levelStart, state := .calFailed, status := .error .failure })
      ∧ t.result = (if sane then .inProgress else .calFailed ⟨.failure, .nothing⟩ (s.board b).pass)
      ∧ (∀ b', b' ≠ b → t.board b' = s.board b' ∧ t.hwOf b' = s.hwOf b') ∧ t.jobs = s.jobs

/-- R241: the settle state waits for the caller's report and for nothing else. -/
def Obligations.CalibrationSettle : Prop :=
  ∀ (b : Nat) (s : State), b < s.par.plat.boards → (s.board b).present = true → (s.board b).state = .calSettle →
    runCommand (.calibrationStep b true) s =
        .next { s.setBoard b { s.board b with state := .calSweep } with result := .inProgress }
    ∧ runCommand (.calibrationStep b false) s = .next { s with result := .inProgress }

/-- R232 to R234: an attempt writes the startup pattern, reads it back and classifies what came back, the match with the
pattern tested first. -/
def Obligations.AttemptClassifiesTheReadback : Prop :=
  ∀ (b ci : Nat) (rx : Rx) (x : Word) (s : State), waitsEnd s 2 → readsAnswer s [some rx] →
    x = decodedRead (s.variantOf b) (s.cfgOf b).shift rx →
    ∃ (a : Attempt) (t : State), attempt b ci s = (.ok a, t)
      ∧ sends s t [writeFrame (s.variantOf b) b ci (s.cfgOf b).chipCore (s.cfgOf b).reg.ocrb (s.cfgOf b).ocrbStartup,
          readFrame b ci (s.cfgOf b).chipCore (s.cfgOf b).reg.ocrb]
      ∧ (a = .pass ↔ x = (s.cfgOf b).ocrbStartup)
      ∧ (a = .clearlyWrong ↔ x ≠ (s.cfgOf b).ocrbStartup
          ∧ (x = 0 ∨ x.toNat = (2 ^ (s.variantOf b).width - 1) / 2 ^ (s.cfgOf b).shift))
      ∧ t.cal = s.cal ∧ t.jobs = s.jobs ∧ t.hw = s.hw

/-- R231, R235: what the one bounded retry makes of two attempts, in its answer and in the state it leaves: nothing is
sent beyond the two attempts, and a first error that the retry overcame goes to the log (R237). -/
def Obligations.ChipTestRetriesOnce : Prop :=
  ∀ (b ci : Nat) (s : State),
    (∀ t, attempt b ci s = (.ok .pass, t) → testChip b ci s = (.ok true, t))
    ∧ (∀ t, attempt b ci s = (.ok .clearlyWrong, t) → testChip b ci s = (.ok false, t))
    ∧ (∀ t, attempt b ci s = (.ok .nearMiss, t) →
        (testChip b ci s).1 = (match (attempt b ci t).1 with
          | .ok a => .ok (decide (a = .pass))
          | .error e => .error e)
        ∧ (testChip b ci s).2 = (attempt b ci t).2)
    ∧ ∀ t e, attempt b ci s = (.error e, t) →
        (testChip b ci s).1 = (match (attempt b ci t).1 with
          | .ok a => .ok (decide (a = .pass))
          | .error e' => .error e')
        ∧ (testChip b ci s).2 = (match (attempt b ci t).1 with
          | .ok _ => logMsg (.retriedError e) (attempt b ci t).2
          | .error _ => (attempt b ci t).2)

/-- R236: the update of the pass mask and the count moves only on a transition and keeps the two in agreement. -/
def Obligations.PassMaskAndCountAgree : Prop :=
  ∀ (p : Params) (cal : BoardCal) (ci : Nat) (passed : Bool), p.plat.chips ≤ 128 → ci < p.plat.chips → calOk p cal →
    calOk p (updatePass cal ci passed) ∧ (updatePass cal ci passed).awake ≤ p.plat.chips
    ∧ (updatePass cal ci passed).pass.getLsbD ci = passed
    ∧ (∀ j, j ≠ ci → (updatePass cal ci passed).pass.getLsbD j = cal.pass.getLsbD j)
    ∧ (cal.pass.getLsbD ci = passed → updatePass cal ci passed = cal)
    ∧ (cal.pass.getLsbD ci = false → passed = true → (updatePass cal ci passed).awake = cal.awake + 1)
    ∧ (cal.pass.getLsbD ci = true → passed = false → (updatePass cal ci passed).awake + 1 = cal.awake)

/-- R238, R240, R243, R246, R247: the decision after a sweep: full success with the margin clamped at the floor, one unit
toward higher voltage, total failure with the supply off, partial failure with the supply left on. That nothing is known
of the board's registers once its supply is off is R333 and notes/assumptions/28.md (DEDUCED). -/
def Obligations.DecisionAfterASweep : Prop :=
  ∀ (b : Nat) (s t : State) (lvl : Int), s.between = [] → decideSweep b s = t →
    ((s.board b).awake = s.par.plat.chips →
      lvl = max s.par.plat.levelFloor ((s.board b).level - s.par.plat.levelMargin) →
      t.board b = { s.board b with level := lvl, state := .calInit } ∧ t.hwOf b = { s.hwOf b with supplyLevel := lvl }
        ∧ t.trace = s.trace ++ [.supplySetLevel b lvl] ∧ t.regs = s.regs ∧ t.result = .inProgress)
    ∧ ((s.board b).awake ≠ s.par.plat.chips → s.par.plat.levelFloor < (s.board b).level → lvl = (s.board b).level - 1 →
      t.board b = { s.board b with level := lvl, state := .calSettle } ∧ t.hwOf b = { s.hwOf b with supplyLevel := lvl }
        ∧ t.trace = s.trace ++ [.supplySetLevel b lvl] ∧ t.regs = s.regs ∧ t.result = .inProgress
        ∧ s.par.plat.levelFloor ≤ (t.board b).level)
    ∧ ((s.board b).awake ≠ s.par.plat.chips → (s.board b).level ≤ s.par.plat.levelFloor → (s.board b).awake = 0 →
      t.board b = { s.board b with state := .calFailed, status := .error .failure }
        ∧ t.hwOf b = { s.hwOf b with supplyOn := false }
        ∧ t.trace = s.trace ++ [.supplyEnable b false] ∧ t.regs = forgetBoard b s.regs
        ∧ t.result = .calFailed ⟨.failure, .passMask (s.board b).pass⟩ (s.board b).pass)
    ∧ ((s.board b).awake ≠ s.par.plat.chips → (s.board b).level ≤ s.par.plat.levelFloor → (s.board b).awake ≠ 0 →
      t.board b = { s.board b with state := .calPartial, status := .error .failure } ∧ t.hwOf b = s.hwOf b
        ∧ t.trace = s.trace ∧ t.regs = s.regs
        ∧ t.result = .partialFailure ((List.range s.par.plat.chips).filter fun c => (s.board b).pass.getLsbD c = false))
    ∧ (∀ b', b' ≠ b → t.board b' = s.board b' ∧ t.hwOf b' = s.hwOf b') ∧ t.jobs = s.jobs ∧ t.inflight = s.inflight

/-- R250, one sweep: on a simulated string whose chip `k` returns the pattern exactly when the level is at or below its
threshold, a sweep ends with exactly the chips marked whose threshold the level has reached. -/
def Obligations.SweepMarksTheChipsAboveThreshold : Prop :=
  ∀ (b : Nat) (th : Nat → Int) (s : State), s.par.plat.chips ≤ 128 →
    chipAdmissible (s.variantOf b) (s.cfgOf b) = true → calOk s.par (s.board b) →
    waitsEnd s (2 * s.par.plat.chips) →
    readsAnswer s ((List.range s.par.plat.chips).map
      (thresholdAnswer (s.variantOf b) (s.cfgOf b) th (s.board b).level)) →
    ∃ t, sweepChips b (List.range s.par.plat.chips) s = (.ok (), t)
      ∧ (∀ k, k < s.par.plat.chips → ((t.board b).pass.getLsbD k = true ↔ (s.board b).level ≤ th k))
      ∧ (t.board b).awake = (List.range s.par.plat.chips).countP (fun k => (s.board b).level ≤ th k)
      ∧ (t.board b).level = (s.board b).level ∧ (t.board b).state = (s.board b).state ∧ t.hw = s.hw ∧ t.jobs = s.jobs

/-- R242, R245: whatever the chips, the bus and the supply answer, a calibration of a board that is there and not
initialised ends in a terminal state, after at most one sweep for each level from start down to floor, and it is CalDone
exactly when the answer is `Ok`. The hand-off decides that: it waits for the settle; then CalDone exactly when device
initialisation answered `Ok`, else a total failure with that error and the supply off (R248). -/
def Obligations.CalibrationTerminates : Prop :=
  (∀ (b : Nat) (s : State), s.par.plat.levelFloor ≤ s.par.plat.levelStart → b < s.par.plat.boards →
    (s.board b).present = true → (s.board b).state = .notInitialized →
    ∃ t, runCommand (.calibrateString b) s = .next t
      ∧ ((t.board b).state = .calDone ∨ (t.board b).state = .calPartial ∨ (t.board b).state = .calFailed)
      ∧ ((t.board b).state = .calDone ↔ t.result = .ok)
      ∧ t.trace.count (.delay .settle)
          ≤ s.trace.count (.delay .settle) + (s.par.plat.levelStart - s.par.plat.levelFloor).toNat + 2)
  ∧ ∀ (b : Nat) (s : State), b < s.par.plat.boards → (s.board b).present = true → (s.board b).state = .calInit →
    runCommand (.calibrationStep b false) s = .next { s with result := .inProgress }
    ∧ (∀ u, deviceInit b s = (.ok (), u) → ∃ t, runCommand (.calibrationStep b true) s = .next t
        ∧ t.board b = { s.board b with state := .calDone, status := .ok } ∧ t.result = .ok
        ∧ t.hw = u.hw ∧ t.trace = u.trace ∧ t.jobs = s.jobs ∧ ∀ b', b' ≠ b → t.board b' = s.board b')
    ∧ ∀ e u, deviceInit b s = (.error e, u) → ∃ t, runCommand (.calibrationStep b true) s = .next t
        ∧ t.board b = { s.board b with state := .calFailed, status := .error e.err }
        ∧ t.result = .calFailed e (s.board b).pass ∧ t.hwOf b = { u.hwOf b with supplyOn := false }
        ∧ t.jobs = s.jobs ∧ ∀ b', b' ≠ b → t.board b' = s.board b'

/-- R39: past power-up the level is the last one handed to the supply and lies between floor and start, and every step
keeps it so; a calibration step past power-up never raises it. -/
def Obligations.LevelStaysBetweenFloorAndStart : Prop :=
  ∀ (s t : State) (b : Nat), s.par.plat.levelFloor ≤ s.par.plat.levelStart → 0 ≤ s.par.plat.levelMargin →
    step s = .next t →
    (levelOk s b → levelOk t b)
    ∧ (levelOk s b → ∀ settled rest, s.pending = .command (.calibrationStep b settled) :: rest →
        (s.board b).state ≠ .calPowerUp → (t.board b).level ≤ (s.board b).level)

/-- R35, R43, R36, R318, R327: calibration state is written only by a command of its board's own, or by a tuning caller
after CalDone or the persistence collaborator before a calibration, who write one chip's divider and bias and nothing
else. When those two may write is notes/assumptions/32.md (DEDUCED and DESIGN CHOICE). -/
def Obligations.CalibrationStateHasOneOwner : Prop :=
  ∀ (s t : State) (b : Nat), step s = .next t →
    t.board b = s.board b
      ∨ (∃ c rest, s.pending = .command c :: rest ∧ boardOf c = some b)
      ∨ ∃ chip d bias rest div' bias',
          (s.pending = .move (.tune b chip d bias) :: rest ∧ (s.board b).state = .calDone
            ∨ s.pending = .move (.restore b chip d bias) :: rest ∧ (s.board b).state = .notInitialized)
          ∧ (s.board b).present = true
          ∧ t.board b = { s.board b with div := div', bias := bias' }
          ∧ ∀ k, (t.board b).divOf k = (if k = chip then d else (s.board b).divOf k)
              ∧ (t.board b).biasOf k = (if k = chip then bias else (s.board b).biasOf k)

/-! ## Device initialisation -/

/-- R260 to R269: device initialisation when every bus wait ends in time and both lines read clear: the whole sequence
on the bus in order, the hashing clock left on, controller state unchanged, `Ok`. And the sequence itself, frame by frame,
for either variant (R262 to R266), with the oscillator frames of each chip (R268). -/
def Obligations.InitializeDeviceSucceeds : Prop :=
  (∀ (b : Nat) (d n : ChipBits) (ds ns : List ChipBits) (s : State), b < s.par.plat.boards →
    (s.board b).present = true → initAdmitted (s.board b).state = true → waitsEnd s (initFrames s b).length →
    s.doneAnswers = d :: ds → s.nonceAnswers = n :: ns → d &&& chipMask s.par.plat.chips = 0 →
    n &&& chipMask s.par.plat.chips = 0 →
    ∃ t, runCommand (.initializeDevice b) s = .next t ∧ t.result = .ok ∧ sends s t (initFrames s b)
      ∧ (initFrames s b).length = (match s.variantOf b with | .sc1 => 33 | .dcr1 => 36)
          + (if (s.cfgOf b).ocrSplit then 2 else 1) * s.par.plat.chips
      ∧ (t.hwOf b).clockOn = true ∧ (t.hwOf b).supplyOn = (s.hwOf b).supplyOn ∧ t.cal = s.cal ∧ t.jobs = s.jobs)
  ∧ ∀ (b : Nat) (s : State) (c : ChipVariant) (p : Nat → Pattern) (osc : List Frame), c = s.cfgOf b →
    (∀ k, p k = oscPattern c (match s.par.plat.initDivider with | some d => d | none => (s.board b).divOf k)
      (match s.par.plat.initBias with | some bi => bi | none => (s.board b).biasOf k) ||| s.par.plat.activeCoreEn) →
    osc = (List.range s.par.plat.chips).flatMap (fun k =>
      { mode := .singleWrite, board := b, chip := k, core := c.coreChipReg.toNat, reg := c.reg.ocra.toNat
        data := (p k).toNat % 2 ^ (s.variantOf b).width : Frame }
      :: if c.ocrSplit then
          [{ mode := .singleWrite, board := b, chip := k, core := c.coreChipReg.toNat, reg := c.reg.ocrb.toNat
             data := (p k).toNat / 2 ^ (s.variantOf b).width % 2 ^ (s.variantOf b).width }]
        else []) →
    (s.variantOf b = .sc1 → initFrames s b =
        [allFrame .sc1 b c.reg.fcr c.fcrMaskAll,
          allFrame .sc1 b c.reg.v[0] c.dflt.v[0], allFrame .sc1 b c.reg.v[1] c.dflt.v[1],
          allFrame .sc1 b c.reg.v[2] c.dflt.v[2], allFrame .sc1 b c.reg.v[3] c.dflt.v[3],
          allFrame .sc1 b c.reg.v[4] c.dflt.v[4], allFrame .sc1 b c.reg.v[5] c.dflt.v[5],
          allFrame .sc1 b c.reg.v[6] c.dflt.v[6], allFrame .sc1 b c.reg.v[7] c.dflt.v[7],
          allFrame .sc1 b c.reg.v[8] c.dflt.v[8], allFrame .sc1 b c.reg.v[9] c.dflt.v[9],
          allFrame .sc1 b c.reg.v[10] c.dflt.v[10], allFrame .sc1 b c.reg.v[11] c.dflt.v[11],
          allFrame .sc1 b c.reg.v[12] c.dflt.v[12], allFrame .sc1 b c.reg.v[13] c.dflt.v[13],
          allFrame .sc1 b c.reg.v[14] c.dflt.v[14], allFrame .sc1 b c.reg.v[15] c.dflt.v[15],
          allFrame .sc1 b (addrM .sc1 c 0) c.dflt.m[0], allFrame .sc1 b (addrM .sc1 c 1) c.dflt.m[1],
          allFrame .sc1 b (addrM .sc1 c 2) c.dflt.m[2], allFrame .sc1 b (addrM .sc1 c 3) c.dflt.m[3],
          allFrame .sc1 b (addrM .sc1 c 5) c.dflt.m[4], allFrame .sc1 b (addrM .sc1 c 6) c.dflt.m[5],
          allFrame .sc1 b (addrM .sc1 c 7) c.dflt.m[6], allFrame .sc1 b (addrM .sc1 c 8) c.dflt.m[7],
          allFrame .sc1 b (addrM .sc1 c 9) c.dflt.m[8],
          allFrame .sc1 b c.reg.limit c.dflt.limit, allFrame .sc1 b c.reg.stepReg c.dflt.stepVal,
          allFrame .sc1 b c.reg.lb c.dflt.lb, allFrame .sc1 b c.reg.ub c.dflt.ub,
          allFrame .sc1 b c.reg.matchReg c.dflt.matchVal,
          allFrame .sc1 b c.reg.ecr (c.ecrResetSpi ||| c.ecrResetCore), allFrame .sc1 b c.reg.ecr 0] ++ osc)
    ∧ (s.variantOf b = .dcr1 → initFrames s b =
        [allFrame .dcr1 b c.reg.fcr c.fcrMaskAll,
          allFrame .dcr1 b c.reg.v[0] c.dflt.v[0], allFrame .dcr1 b c.reg.v[1] c.dflt.v[1],
          allFrame .dcr1 b c.reg.v[2] c.dflt.v[2], allFrame .dcr1 b c.reg.v[3] c.dflt.v[3],
          allFrame .dcr1 b c.reg.v[4] c.dflt.v[4], allFrame .dcr1 b c.reg.v[5] c.dflt.v[5],
          allFrame .dcr1 b c.reg.v[6] c.dflt.v[6], allFrame .dcr1 b c.reg.v[7] c.dflt.v[7],
          allFrame .dcr1 b c.reg.v[8] c.dflt.v[8], allFrame .dcr1 b c.reg.v[9] c.dflt.v[9],
          allFrame .dcr1 b c.reg.v[10] c.dflt.v[10], allFrame .dcr1 b c.reg.v[11] c.dflt.v[11],
          allFrame .dcr1 b c.reg.v[12] c.dflt.v[12], allFrame .dcr1 b c.reg.v[13] c.dflt.v[13],
          allFrame .dcr1 b c.reg.v[14] c.dflt.v[14], allFrame .dcr1 b c.reg.v[15] c.dflt.v[15],
          allFrame .dcr1 b (addrM .dcr1 c 0) c.dflt.m[0], allFrame .dcr1 b (addrM .dcr1 c 1) c.dflt.m[1],
          allFrame .dcr1 b (addrM .dcr1 c 2) c.dflt.m[2], allFrame .dcr1 b (addrM .dcr1 c 4) c.dflt.m[3],
          allFrame .dcr1 b (addrM .dcr1 c 5) c.dflt.m[4], allFrame .dcr1 b (addrM .dcr1 c 6) c.dflt.m[5],
          allFrame .dcr1 b (addrM .dcr1 c 7) c.dflt.m[6], allFrame .dcr1 b (addrM .dcr1 c 8) c.dflt.m[7],
          allFrame .dcr1 b (addrM .dcr1 c 9) c.dflt.m[8], allFrame .dcr1 b (addrM .dcr1 c 10) c.dflt.m[9],
          allFrame .dcr1 b (addrM .dcr1 c 11) c.dflt.m[10], allFrame .dcr1 b (addrM .dcr1 c 12) c.dflt.m[11],
          allFrame .dcr1 b c.reg.limit c.dflt.limit, allFrame .dcr1 b c.reg.stepReg c.dflt.stepVal,
          allFrame .dcr1 b c.reg.lb c.dflt.lb, allFrame .dcr1 b c.reg.ub c.dflt.ub,
          allFrame .dcr1 b c.reg.matchReg c.dflt.matchVal,
          allFrame .dcr1 b c.reg.ecr (c.ecrResetSpi ||| c.ecrResetCore), allFrame .dcr1 b c.reg.ecr 0] ++ osc)

/-- R269, R270: a line bit found set at the end is `Failure` on every variant, and the hashing clock is switched off. -/
def Obligations.InitializeDeviceChecksTheLines : Prop :=
  ∀ (b : Nat) (d n : ChipBits) (ds ns : List ChipBits) (s : State), b < s.par.plat.boards →
    (s.board b).present = true → initAdmitted (s.board b).state = true → waitsEnd s (initFrames s b).length →
    s.doneAnswers = d :: ds → s.nonceAnswers = n :: ns →
    d &&& chipMask s.par.plat.chips ≠ 0 ∨ n &&& chipMask s.par.plat.chips ≠ 0 →
    ∃ t, runCommand (.initializeDevice b) s = .next t
      ∧ t.result = .err ⟨.failure, .lines (d &&& chipMask s.par.plat.chips) (n &&& chipMask s.par.plat.chips)⟩
      ∧ sends s t (initFrames s b) ∧ (t.hwOf b).clockOn = false ∧ (t.hwOf b).supplyOn = (s.hwOf b).supplyOn
      ∧ t.cal = s.cal ∧ t.jobs = s.jobs

/-- R271: initialising twice in a row, with no other agent on the bus, ends with the same known value in every register,
the same clock and the same controller state. -/
def Obligations.InitializeDeviceIsIdempotent : Prop :=
  ∀ (b : Nat) (s t u : State), s.par.plat.chips ≤ 128 → s.between = [] → (s.mux = .asic → s.route = .asic) →
    runCommand (.initializeDevice b) s = .next t → t.result = .ok →
    runCommand (.initializeDevice b) t = .next u → u.result = .ok →
    (∀ b' c k r, c < 128 → k < 256 → r < 128 → (land u).regAt b' c k r = (land t).regAt b' c k r)
      ∧ (∀ b', u.hwOf b' = t.hwOf b') ∧ (t.hwOf b).clockOn = true ∧ u.cal = t.cal ∧ u.jobs = t.jobs

/-! ## The oscillator builder -/

/-- R286: exactly one divide bit; as many bias bits as the bias is large, in the run its sign selects; 44 pairs, 44
patterns. -/
def Obligations.BuilderProperties : Prop :=
  ∀ (v : Variant) (c : ChipVariant), ocrOk v c = true →
    (∀ (d : Divider) (bi : Bias) (p mask : Pattern), p = oscPattern c d bi →
      mask = 1#128 <<< c.ocrDivBit1 ||| 1#128 <<< c.ocrDivBit2 ||| 1#128 <<< c.ocrDivBit4 ||| 1#128 <<< c.ocrDivBit8 →
      (List.range 128).countP (fun i => (p &&& mask).getLsbD i) = 1
      ∧ (List.range 128).countP (fun i => (p &&& ~~~mask).getLsbD i) = (biasInt bi).natAbs
      ∧ (biasInt bi < 0 → p &&& (0x1F#128 <<< c.ocrFastPos) = 0)
      ∧ (0 ≤ biasInt bi → p &&& (0x1F#128 <<< c.ocrSlowPos) = 0)
      ∧ p &&& c.ocrCoreEnMask = 0)
    ∧ ∀ (d d' : Divider) (bi bi' : Bias), oscPattern c d bi = oscPattern c d' bi' → d = d' ∧ bi = bi'

/-- R285, R280, R284: the builder answers a pattern exactly on the 4 dividers and the 11 biases: its low `W` bits, or
its two words when it is split; and `InvalidArgument` elsewhere. Nothing but the result changes. -/
def Obligations.BuilderDomain : Prop :=
  ∀ (v : Variant) (divider : Nat) (bias : Int) (s : State),
    ((divider = 1 ∨ divider = 2 ∨ divider = 4 ∨ divider = 8) → -5 ≤ bias → bias ≤ 5 →
      ∃ d bi p, dividerOf? divider = some d ∧ biasInt bi = bias ∧ buildPattern (s.par.chip v) divider bias = some p
        ∧ p = oscPattern (s.par.chip v) d bi
        ∧ ((s.par.chip v).ocrSplit = false → ∃ q : Pattern, q.toNat = p.toNat % 2 ^ v.width
            ∧ runCommand (.buildOscillatorRegister v divider bias) s = .next { s with result := .pattern q })
        ∧ ((s.par.chip v).ocrSplit = true → ∃ lo hi : Word, lo.toNat = p.toNat % 2 ^ v.width
            ∧ hi.toNat = p.toNat / 2 ^ v.width % 2 ^ v.width
            ∧ runCommand (.buildOscillatorRegister v divider bias) s = .next { s with result := .patternPair lo hi }))
    ∧ (¬((divider = 1 ∨ divider = 2 ∨ divider = 4 ∨ divider = 8) ∧ -5 ≤ bias ∧ bias ≤ 5) →
      runCommand (.buildOscillatorRegister v divider bias) s = .next { s with result := .err ⟨.invalidArgument, .nothing⟩ })

/-! ## Reset and the whole machine -/

/-- R56: the values the spec gives for reset. That the whole state meets the machine's invariant rests besides on the
model's own values: the chip count of the example configuration (notes/assumptions/3.md, DESIGN CHOICE, unsafe) is
inside the 7-bit chip field. -/
def Obligations.ResetValues : Prop :=
  (∀ m, (State.reset.machine m).jstate = .idle)
  ∧ State.reset.inflight = none ∧ State.reset.mux = .unknown ∧ (∀ b, State.reset.csOf b = false)
  ∧ (∀ b, (State.reset.board b).present = false ∧ (State.reset.board b).state = .notInitialized
      ∧ (State.reset.board b).status = .notInitialized ∧ (State.reset.board b).pass = 0
      ∧ (State.reset.board b).awake = 0)
  ∧ (∀ b c k r, State.reset.regAt b c k r = none)
  ∧ MachineInv State.reset

/-- R343, R344: what boardDetect and boardReset write; neither sends a frame or calls a collaborator. After boardDetect
the level, dividers and biases are any values (R343); that a terminal state admits it too is notes/assumptions/13.md
(DESIGN CHOICE). boardReset keeps everything else. -/
def Obligations.BoardDetectAndReset : Prop :=
  ∀ (b : Nat) (s : State),
    (∀ (present : Bool) (v : Variant), b < s.par.plat.boards →
      ∃ level div bias draws, runCommand (.boardDetect b present v) s = .next
        { s.setBoard b { s.board b with
            present := present, variant := v, state := .notInitialized, status := .notInitialized, pass := 0, awake := 0,
            level := level, div := div, bias := bias } with
          draws := draws, result := .ok })
    ∧ (b < s.par.plat.boards → (s.board b).present = true →
      runCommand (.boardReset b) s = .next
        { s.setBoard b { s.board b with state := .notInitialized, status := .notInitialized, pass := 0, awake := 0 } with
          result := .ok })
    ∧ (s.par.plat.boards ≤ b ∨ (s.board b).present = false →
      runCommand (.boardReset b) s = .next { s with result := .err ⟨.notFound, .index b⟩ })

/-- Every step keeps the machine's invariant: canonical data, the pass masks and counts of every board in agreement
(R38), chip-select discipline (R25), and no known register on a board without supply (R333, R367). -/
def Obligations.EveryStepKeepsTheInvariant : Prop :=
  ∀ s t : State, MachineInv s → step s = .next t → MachineInv t

/-- R20: the parameters are no state: no step changes them. -/
def Obligations.ParametersAreConstant : Prop :=
  ∀ s t : State, step s = .next t → t.par = s.par
end

