-- ==== Sys2Proof/Laws/Store.lean ====
section
/-! SUPPORT. The laws of Store: a read after a write, other keys, and the canonical form. -/

namespace Sys2Proof.Machine

section

variable {α : Type}

@[simp] theorem Store.look_nil (k : Nat) : Store.look ([] : Store α) k = none := rfl

/-- Reading the key just written. -/
@[simp] theorem Store.look_put_same (m : Store α) (k : Nat) (v : α) : (Store.put m k v).look k = some v := by
  induction m with
  | nil => simp [Store.put, Store.look]
  | cons p m ih =>
    obtain ⟨a, w⟩ := p
    by_cases h1 : k < a
    · simp [Store.put, Store.look, h1]
    · by_cases h2 : k = a
      · simp [Store.put, Store.look, h2]
      · simp [Store.put, Store.look, h1, h2, ih, Ne.symm h2]

/-- Reading another key than the one written. -/
theorem Store.look_put_other (m : Store α) (k j : Nat) (v : α) (h : j ≠ k) :
    (Store.put m k v).look j = m.look j := by
  induction m with
  | nil => simp [Store.put, Store.look, Ne.symm h]
  | cons p m ih =>
    obtain ⟨a, w⟩ := p
    by_cases h1 : k < a
    · simp [Store.put, Store.look, h1, Ne.symm h]
    · by_cases h2 : k = a
      · subst h2; simp [Store.put, Store.look, Ne.symm h]
      · simp [Store.put, Store.look, h1, h2, ih]

/-- Reading after a filter that keeps or drops whole keys. -/
theorem Store.look_filter (m : Store α) (f : Nat → Bool) (k : Nat) :
    Store.look (m.filter fun p => f p.1) k = if f k then m.look k else none := by
  induction m with
  | nil => simp
  | cons p m ih =>
    obtain ⟨a, w⟩ := p
    by_cases h : f a <;> by_cases h2 : a = k
    · subst h2; simp [Store.look, h]
    · simp [Store.look, h, h2, ih]
    · subst h2; simp [h, ih]
    · simp [Store.look, h, h2, ih]

@[simp] theorem Store.look_drop_same (m : Store α) (k : Nat) : (Store.drop m k).look k = none := by
  have := Store.look_filter m (fun a => decide (a ≠ k)) k
  simpa [Store.drop] using this

theorem Store.look_drop_other (m : Store α) (k j : Nat) (h : j ≠ k) : (Store.drop m k).look j = m.look j := by
  have := Store.look_filter m (fun a => decide (a ≠ k)) j
  simpa [Store.drop, h] using this

@[simp] theorem Store.lookD_nil (d : α) (k : Nat) : Store.lookD d ([] : Store α) k = d := rfl

@[simp] theorem Store.lookD_putD_same [DecidableEq α] (d : α) (m : Store α) (k : Nat) (v : α) :
    (Store.putD d m k v).lookD d k = v := by
  unfold Store.putD Store.lookD
  by_cases h : v = d <;> simp [h]

theorem Store.lookD_putD_other [DecidableEq α] (d : α) (m : Store α) (k j : Nat) (v : α) (h : j ≠ k) :
    (Store.putD d m k v).lookD d j = m.lookD d j := by
  unfold Store.putD Store.lookD
  by_cases h2 : v = d <;> simp [h2, Store.look_drop_other _ _ _ h, Store.look_put_other _ _ _ _ h]

/-- The entries after a write are the new one and old ones. -/
theorem Store.mem_put (m : Store α) (k : Nat) (v : α) (p : Nat × α) (h : p ∈ Store.put m k v) :
    p = (k, v) ∨ p ∈ m := by
  induction m with
  | nil => simpa [Store.put] using h
  | cons q m ih =>
    obtain ⟨a, w⟩ := q
    by_cases h1 : k < a
    · simp only [Store.put, h1, if_true, List.mem_cons] at h ⊢; tauto
    · by_cases h2 : k = a
      · simp only [Store.put, h2, lt_irrefl, if_false, if_true, List.mem_cons] at h ⊢; tauto
      · simp only [Store.put, h1, h2, if_false, List.mem_cons] at h ⊢
        rcases h with h | h
        · tauto
        · rcases ih h with h | h <;> tauto

theorem Store.sorted_nil : Store.Sorted ([] : Store α) := List.Pairwise.nil

/-- A write keeps the keys strictly rising. -/
theorem Store.sorted_put (m : Store α) (k : Nat) (v : α) (h : Store.Sorted m) : Store.Sorted (Store.put m k v) := by
  induction m with
  | nil => simp [Store.put, Store.Sorted]
  | cons q m ih =>
    obtain ⟨a, w⟩ := q
    have h0 := h
    simp only [Store.Sorted, List.map_cons, List.pairwise_cons, List.mem_map, forall_exists_index, and_imp] at h ih
    by_cases h1 : k < a
    · simp only [Store.Sorted, Store.put, h1, if_true, List.map_cons, List.pairwise_cons, List.mem_cons, List.mem_map]
      refine ⟨?_, ?_, h.2⟩
      · rintro b (rfl | ⟨p, hp, rfl⟩)
        · exact h1
        · exact lt_trans h1 (h.1 _ p hp rfl)
      · rintro b ⟨p, hp, rfl⟩; exact h.1 _ p hp rfl
    · by_cases h2 : k = a
      · subst h2
        simpa [Store.Sorted, Store.put] using h0
      · simp only [Store.Sorted, Store.put, h1, h2, if_false, List.map_cons, List.pairwise_cons, List.mem_map]
        refine ⟨?_, ih h.2⟩
        rintro b ⟨p, hp, rfl⟩
        rcases Store.mem_put m k v p hp with rfl | hp
        · exact lt_of_le_of_ne (not_lt.mp h1) (Ne.symm h2)
        · exact h.1 _ p hp rfl

/-- Leaving entries out keeps the keys strictly rising. -/
theorem Store.sorted_filter (m : Store α) (f : Nat × α → Bool) (h : Store.Sorted m) : Store.Sorted (m.filter f) :=
  List.Pairwise.sublist (List.Sublist.map _ List.filter_sublist) h

/-- A write to a store with a default keeps its canonical form. -/
theorem Store.canon_putD [DecidableEq α] (d : α) (m : Store α) (k : Nat) (v : α) (h : Store.Canon d m) :
    Store.Canon d (Store.putD d m k v) := by
  unfold Store.putD
  split
  · exact ⟨Store.sorted_filter _ _ h.1, fun p hp => h.2 p (List.mem_of_mem_filter hp)⟩
  · rename_i hv
    refine ⟨Store.sorted_put _ _ _ h.1, fun p hp => ?_⟩
    rcases Store.mem_put _ _ _ _ hp with rfl | hp
    · exact hv
    · exact h.2 p hp

theorem Store.canon_nil [DecidableEq α] (d : α) : Store.Canon d ([] : Store α) :=
  ⟨Store.sorted_nil, by simp⟩

end

end Sys2Proof.Machine
end

