-- ==== Sys2Proof/Laws/State.lean ====
section
/-! SUPPORT. One lemma per field per update of the state, and what the look-ups of Operands.lean read
after an update. -/

namespace Sys2Proof.Machine

/-! ## State.emit -/

@[simp] theorem State.emit_par (s : State) (e : Effect) : (s.emit e).par = s.par := rfl
@[simp] theorem State.emit_pending (s : State) (e : Effect) : (s.emit e).pending = s.pending := rfl
@[simp] theorem State.emit_f (s : State) (e : Effect) : (s.emit e).f = s.f := rfl
@[simp] theorem State.emit_txbuf (s : State) (e : Effect) : (s.emit e).txbuf = s.txbuf := rfl
@[simp] theorem State.emit_rxbuf (s : State) (e : Effect) : (s.emit e).rxbuf = s.rxbuf := rfl
@[simp] theorem State.emit_inflight (s : State) (e : Effect) : (s.emit e).inflight = s.inflight := rfl
@[simp] theorem State.emit_mux (s : State) (e : Effect) : (s.emit e).mux = s.mux := rfl
@[simp] theorem State.emit_cs (s : State) (e : Effect) : (s.emit e).cs = s.cs := rfl
@[simp] theorem State.emit_jobs (s : State) (e : Effect) : (s.emit e).jobs = s.jobs := rfl
@[simp] theorem State.emit_cal (s : State) (e : Effect) : (s.emit e).cal = s.cal := rfl
@[simp] theorem State.emit_route (s : State) (e : Effect) : (s.emit e).route = s.route := rfl
@[simp] theorem State.emit_otherHolds (s : State) (e : Effect) : (s.emit e).otherHolds = s.otherHolds := rfl
@[simp] theorem State.emit_hw (s : State) (e : Effect) : (s.emit e).hw = s.hw := rfl
@[simp] theorem State.emit_regs (s : State) (e : Effect) : (s.emit e).regs = s.regs := rfl
@[simp] theorem State.emit_between (s : State) (e : Effect) : (s.emit e).between = s.between := rfl
@[simp] theorem State.emit_waitAnswers (s : State) (e : Effect) : (s.emit e).waitAnswers = s.waitAnswers := rfl
@[simp] theorem State.emit_rxAnswers (s : State) (e : Effect) : (s.emit e).rxAnswers = s.rxAnswers := rfl
@[simp] theorem State.emit_doneAnswers (s : State) (e : Effect) : (s.emit e).doneAnswers = s.doneAnswers := rfl
@[simp] theorem State.emit_nonceAnswers (s : State) (e : Effect) : (s.emit e).nonceAnswers = s.nonceAnswers := rfl
@[simp] theorem State.emit_saneAnswers (s : State) (e : Effect) : (s.emit e).saneAnswers = s.saneAnswers := rfl
@[simp] theorem State.emit_landAnswers (s : State) (e : Effect) : (s.emit e).landAnswers = s.landAnswers := rfl
@[simp] theorem State.emit_draws (s : State) (e : Effect) : (s.emit e).draws = s.draws := rfl
@[simp] theorem State.emit_trace (s : State) (e : Effect) : (s.emit e).trace = s.trace ++ [e] := rfl
@[simp] theorem State.emit_result (s : State) (e : Effect) : (s.emit e).result = s.result := rfl

/-! ## State.setBoard -/

@[simp] theorem State.setBoard_par (s : State) (b : Nat) (c : BoardCal) : (s.setBoard b c).par = s.par := rfl
@[simp] theorem State.setBoard_pending (s : State) (b : Nat) (c : BoardCal) : (s.setBoard b c).pending = s.pending := rfl
@[simp] theorem State.setBoard_f (s : State) (b : Nat) (c : BoardCal) : (s.setBoard b c).f = s.f := rfl
@[simp] theorem State.setBoard_txbuf (s : State) (b : Nat) (c : BoardCal) : (s.setBoard b c).txbuf = s.txbuf := rfl
@[simp] theorem State.setBoard_rxbuf (s : State) (b : Nat) (c : BoardCal) : (s.setBoard b c).rxbuf = s.rxbuf := rfl
@[simp] theorem State.setBoard_inflight (s : State) (b : Nat) (c : BoardCal) : (s.setBoard b c).inflight = s.inflight := rfl
@[simp] theorem State.setBoard_mux (s : State) (b : Nat) (c : BoardCal) : (s.setBoard b c).mux = s.mux := rfl
@[simp] theorem State.setBoard_cs (s : State) (b : Nat) (c : BoardCal) : (s.setBoard b c).cs = s.cs := rfl
@[simp] theorem State.setBoard_jobs (s : State) (b : Nat) (c : BoardCal) : (s.setBoard b c).jobs = s.jobs := rfl
@[simp] theorem State.setBoard_cal (s : State) (b : Nat) (c : BoardCal) : (s.setBoard b c).cal = Store.putD BoardCal.initial s.cal b c := rfl
@[simp] theorem State.setBoard_route (s : State) (b : Nat) (c : BoardCal) : (s.setBoard b c).route = s.route := rfl
@[simp] theorem State.setBoard_otherHolds (s : State) (b : Nat) (c : BoardCal) : (s.setBoard b c).otherHolds = s.otherHolds := rfl
@[simp] theorem State.setBoard_hw (s : State) (b : Nat) (c : BoardCal) : (s.setBoard b c).hw = s.hw := rfl
@[simp] theorem State.setBoard_regs (s : State) (b : Nat) (c : BoardCal) : (s.setBoard b c).regs = s.regs := rfl
@[simp] theorem State.setBoard_between (s : State) (b : Nat) (c : BoardCal) : (s.setBoard b c).between = s.between := rfl
@[simp] theorem State.setBoard_waitAnswers (s : State) (b : Nat) (c : BoardCal) : (s.setBoard b c).waitAnswers = s.waitAnswers := rfl
@[simp] theorem State.setBoard_rxAnswers (s : State) (b : Nat) (c : BoardCal) : (s.setBoard b c).rxAnswers = s.rxAnswers := rfl
@[simp] theorem State.setBoard_doneAnswers (s : State) (b : Nat) (c : BoardCal) : (s.setBoard b c).doneAnswers = s.doneAnswers := rfl
@[simp] theorem State.setBoard_nonceAnswers (s : State) (b : Nat) (c : BoardCal) : (s.setBoard b c).nonceAnswers = s.nonceAnswers := rfl
@[simp] theorem State.setBoard_saneAnswers (s : State) (b : Nat) (c : BoardCal) : (s.setBoard b c).saneAnswers = s.saneAnswers := rfl
@[simp] theorem State.setBoard_landAnswers (s : State) (b : Nat) (c : BoardCal) : (s.setBoard b c).landAnswers = s.landAnswers := rfl
@[simp] theorem State.setBoard_draws (s : State) (b : Nat) (c : BoardCal) : (s.setBoard b c).draws = s.draws := rfl
@[simp] theorem State.setBoard_trace (s : State) (b : Nat) (c : BoardCal) : (s.setBoard b c).trace = s.trace := rfl
@[simp] theorem State.setBoard_result (s : State) (b : Nat) (c : BoardCal) : (s.setBoard b c).result = s.result := rfl

/-! ## State.setMachine -/

@[simp] theorem State.setMachine_par (s : State) (m : Nat) (j : JobMachine) : (s.setMachine m j).par = s.par := rfl
@[simp] theorem State.setMachine_pending (s : State) (m : Nat) (j : JobMachine) : (s.setMachine m j).pending = s.pending := rfl
@[simp] theorem State.setMachine_f (s : State) (m : Nat) (j : JobMachine) : (s.setMachine m j).f = s.f := rfl
@[simp] theorem State.setMachine_txbuf (s : State) (m : Nat) (j : JobMachine) : (s.setMachine m j).txbuf = s.txbuf := rfl
@[simp] theorem State.setMachine_rxbuf (s : State) (m : Nat) (j : JobMachine) : (s.setMachine m j).rxbuf = s.rxbuf := rfl
@[simp] theorem State.setMachine_inflight (s : State) (m : Nat) (j : JobMachine) : (s.setMachine m j).inflight = s.inflight := rfl
@[simp] theorem State.setMachine_mux (s : State) (m : Nat) (j : JobMachine) : (s.setMachine m j).mux = s.mux := rfl
@[simp] theorem State.setMachine_cs (s : State) (m : Nat) (j : JobMachine) : (s.setMachine m j).cs = s.cs := rfl
@[simp] theorem State.setMachine_jobs (s : State) (m : Nat) (j : JobMachine) : (s.setMachine m j).jobs = Store.putD JobMachine.initial s.jobs m j := rfl
@[simp] theorem State.setMachine_cal (s : State) (m : Nat) (j : JobMachine) : (s.setMachine m j).cal = s.cal := rfl
@[simp] theorem State.setMachine_route (s : State) (m : Nat) (j : JobMachine) : (s.setMachine m j).route = s.route := rfl
@[simp] theorem State.setMachine_otherHolds (s : State) (m : Nat) (j : JobMachine) : (s.setMachine m j).otherHolds = s.otherHolds := rfl
@[simp] theorem State.setMachine_hw (s : State) (m : Nat) (j : JobMachine) : (s.setMachine m j).hw = s.hw := rfl
@[simp] theorem State.setMachine_regs (s : State) (m : Nat) (j : JobMachine) : (s.setMachine m j).regs = s.regs := rfl
@[simp] theorem State.setMachine_between (s : State) (m : Nat) (j : JobMachine) : (s.setMachine m j).between = s.between := rfl
@[simp] theorem State.setMachine_waitAnswers (s : State) (m : Nat) (j : JobMachine) : (s.setMachine m j).waitAnswers = s.waitAnswers := rfl
@[simp] theorem State.setMachine_rxAnswers (s : State) (m : Nat) (j : JobMachine) : (s.setMachine m j).rxAnswers = s.rxAnswers := rfl
@[simp] theorem State.setMachine_doneAnswers (s : State) (m : Nat) (j : JobMachine) : (s.setMachine m j).doneAnswers = s.doneAnswers := rfl
@[simp] theorem State.setMachine_nonceAnswers (s : State) (m : Nat) (j : JobMachine) : (s.setMachine m j).nonceAnswers = s.nonceAnswers := rfl
@[simp] theorem State.setMachine_saneAnswers (s : State) (m : Nat) (j : JobMachine) : (s.setMachine m j).saneAnswers = s.saneAnswers := rfl
@[simp] theorem State.setMachine_landAnswers (s : State) (m : Nat) (j : JobMachine) : (s.setMachine m j).landAnswers = s.landAnswers := rfl
@[simp] theorem State.setMachine_draws (s : State) (m : Nat) (j : JobMachine) : (s.setMachine m j).draws = s.draws := rfl
@[simp] theorem State.setMachine_trace (s : State) (m : Nat) (j : JobMachine) : (s.setMachine m j).trace = s.trace := rfl
@[simp] theorem State.setMachine_result (s : State) (m : Nat) (j : JobMachine) : (s.setMachine m j).result = s.result := rfl

/-! ## State.setHw -/

@[simp] theorem State.setHw_par (s : State) (b : Nat) (h : BoardHw) : (s.setHw b h).par = s.par := rfl
@[simp] theorem State.setHw_pending (s : State) (b : Nat) (h : BoardHw) : (s.setHw b h).pending = s.pending := rfl
@[simp] theorem State.setHw_f (s : State) (b : Nat) (h : BoardHw) : (s.setHw b h).f = s.f := rfl
@[simp] theorem State.setHw_txbuf (s : State) (b : Nat) (h : BoardHw) : (s.setHw b h).txbuf = s.txbuf := rfl
@[simp] theorem State.setHw_rxbuf (s : State) (b : Nat) (h : BoardHw) : (s.setHw b h).rxbuf = s.rxbuf := rfl
@[simp] theorem State.setHw_inflight (s : State) (b : Nat) (h : BoardHw) : (s.setHw b h).inflight = s.inflight := rfl
@[simp] theorem State.setHw_mux (s : State) (b : Nat) (h : BoardHw) : (s.setHw b h).mux = s.mux := rfl
@[simp] theorem State.setHw_cs (s : State) (b : Nat) (h : BoardHw) : (s.setHw b h).cs = s.cs := rfl
@[simp] theorem State.setHw_jobs (s : State) (b : Nat) (h : BoardHw) : (s.setHw b h).jobs = s.jobs := rfl
@[simp] theorem State.setHw_cal (s : State) (b : Nat) (h : BoardHw) : (s.setHw b h).cal = s.cal := rfl
@[simp] theorem State.setHw_route (s : State) (b : Nat) (h : BoardHw) : (s.setHw b h).route = s.route := rfl
@[simp] theorem State.setHw_otherHolds (s : State) (b : Nat) (h : BoardHw) : (s.setHw b h).otherHolds = s.otherHolds := rfl
@[simp] theorem State.setHw_hw (s : State) (b : Nat) (h : BoardHw) : (s.setHw b h).hw = Store.putD BoardHw.initial s.hw b h := rfl
@[simp] theorem State.setHw_regs (s : State) (b : Nat) (h : BoardHw) : (s.setHw b h).regs = s.regs := rfl
@[simp] theorem State.setHw_between (s : State) (b : Nat) (h : BoardHw) : (s.setHw b h).between = s.between := rfl
@[simp] theorem State.setHw_waitAnswers (s : State) (b : Nat) (h : BoardHw) : (s.setHw b h).waitAnswers = s.waitAnswers := rfl
@[simp] theorem State.setHw_rxAnswers (s : State) (b : Nat) (h : BoardHw) : (s.setHw b h).rxAnswers = s.rxAnswers := rfl
@[simp] theorem State.setHw_doneAnswers (s : State) (b : Nat) (h : BoardHw) : (s.setHw b h).doneAnswers = s.doneAnswers := rfl
@[simp] theorem State.setHw_nonceAnswers (s : State) (b : Nat) (h : BoardHw) : (s.setHw b h).nonceAnswers = s.nonceAnswers := rfl
@[simp] theorem State.setHw_saneAnswers (s : State) (b : Nat) (h : BoardHw) : (s.setHw b h).saneAnswers = s.saneAnswers := rfl
@[simp] theorem State.setHw_landAnswers (s : State) (b : Nat) (h : BoardHw) : (s.setHw b h).landAnswers = s.landAnswers := rfl
@[simp] theorem State.setHw_draws (s : State) (b : Nat) (h : BoardHw) : (s.setHw b h).draws = s.draws := rfl
@[simp] theorem State.setHw_trace (s : State) (b : Nat) (h : BoardHw) : (s.setHw b h).trace = s.trace := rfl
@[simp] theorem State.setHw_result (s : State) (b : Nat) (h : BoardHw) : (s.setHw b h).result = s.result := rfl

/-! ## State.setFrame -/

@[simp] theorem State.setFrame_par (s : State) (f : Frame) : (s.setFrame f).par = s.par := rfl
@[simp] theorem State.setFrame_pending (s : State) (f : Frame) : (s.setFrame f).pending = s.pending := rfl
@[simp] theorem State.setFrame_f (s : State) (f : Frame) : (s.setFrame f).f = f := rfl
@[simp] theorem State.setFrame_txbuf (s : State) (f : Frame) : (s.setFrame f).txbuf = s.txbuf := rfl
@[simp] theorem State.setFrame_rxbuf (s : State) (f : Frame) : (s.setFrame f).rxbuf = s.rxbuf := rfl
@[simp] theorem State.setFrame_inflight (s : State) (f : Frame) : (s.setFrame f).inflight = s.inflight := rfl
@[simp] theorem State.setFrame_mux (s : State) (f : Frame) : (s.setFrame f).mux = s.mux := rfl
@[simp] theorem State.setFrame_cs (s : State) (f : Frame) : (s.setFrame f).cs = s.cs := rfl
@[simp] theorem State.setFrame_jobs (s : State) (f : Frame) : (s.setFrame f).jobs = s.jobs := rfl
@[simp] theorem State.setFrame_cal (s : State) (f : Frame) : (s.setFrame f).cal = s.cal := rfl
@[simp] theorem State.setFrame_route (s : State) (f : Frame) : (s.setFrame f).route = s.route := rfl
@[simp] theorem State.setFrame_otherHolds (s : State) (f : Frame) : (s.setFrame f).otherHolds = s.otherHolds := rfl
@[simp] theorem State.setFrame_hw (s : State) (f : Frame) : (s.setFrame f).hw = s.hw := rfl
@[simp] theorem State.setFrame_regs (s : State) (f : Frame) : (s.setFrame f).regs = s.regs := rfl
@[simp] theorem State.setFrame_between (s : State) (f : Frame) : (s.setFrame f).between = s.between := rfl
@[simp] theorem State.setFrame_waitAnswers (s : State) (f : Frame) : (s.setFrame f).waitAnswers = s.waitAnswers := rfl
@[simp] theorem State.setFrame_rxAnswers (s : State) (f : Frame) : (s.setFrame f).rxAnswers = s.rxAnswers := rfl
@[simp] theorem State.setFrame_doneAnswers (s : State) (f : Frame) : (s.setFrame f).doneAnswers = s.doneAnswers := rfl
@[simp] theorem State.setFrame_nonceAnswers (s : State) (f : Frame) : (s.setFrame f).nonceAnswers = s.nonceAnswers := rfl
@[simp] theorem State.setFrame_saneAnswers (s : State) (f : Frame) : (s.setFrame f).saneAnswers = s.saneAnswers := rfl
@[simp] theorem State.setFrame_landAnswers (s : State) (f : Frame) : (s.setFrame f).landAnswers = s.landAnswers := rfl
@[simp] theorem State.setFrame_draws (s : State) (f : Frame) : (s.setFrame f).draws = s.draws := rfl
@[simp] theorem State.setFrame_trace (s : State) (f : Frame) : (s.setFrame f).trace = s.trace := rfl
@[simp] theorem State.setFrame_result (s : State) (f : Frame) : (s.setFrame f).result = s.result := rfl
@[simp] theorem State.board_setFrame (s : State) (f : Frame) (b : Nat) : (s.setFrame f).board b = s.board b := rfl
@[simp] theorem State.machine_setFrame (s : State) (f : Frame) (m : Nat) : (s.setFrame f).machine m = s.machine m := rfl

/-! ## Look-ups after an update -/

@[simp] theorem State.board_emit (s : State) (e : Effect) (b : Nat) : (s.emit e).board b = s.board b := rfl
@[simp] theorem State.board_setMachine (s : State) (m : Nat) (j : JobMachine) (b : Nat) :
    (s.setMachine m j).board b = s.board b := rfl
@[simp] theorem State.board_setHw (s : State) (b' : Nat) (h : BoardHw) (b : Nat) :
    (s.setHw b' h).board b = s.board b := rfl
@[simp] theorem State.machine_emit (s : State) (e : Effect) (m : Nat) : (s.emit e).machine m = s.machine m := rfl
@[simp] theorem State.machine_setBoard (s : State) (b : Nat) (c : BoardCal) (m : Nat) :
    (s.setBoard b c).machine m = s.machine m := rfl
@[simp] theorem State.machine_setHw (s : State) (b : Nat) (h : BoardHw) (m : Nat) :
    (s.setHw b h).machine m = s.machine m := rfl
@[simp] theorem State.hwOf_emit (s : State) (e : Effect) (b : Nat) : (s.emit e).hwOf b = s.hwOf b := rfl
@[simp] theorem State.hwOf_setBoard (s : State) (b' : Nat) (c : BoardCal) (b : Nat) :
    (s.setBoard b' c).hwOf b = s.hwOf b := rfl
@[simp] theorem State.hwOf_setMachine (s : State) (m : Nat) (j : JobMachine) (b : Nat) :
    (s.setMachine m j).hwOf b = s.hwOf b := rfl

/-- The board just written. -/
@[simp] theorem State.board_setBoard_same (s : State) (b : Nat) (c : BoardCal) : (s.setBoard b c).board b = c :=
  Store.lookD_putD_same _ _ _ _

/-- Another board than the one written. -/
theorem State.board_setBoard_other (s : State) (b b' : Nat) (c : BoardCal) (h : b' ≠ b) :
    (s.setBoard b c).board b' = s.board b' :=
  Store.lookD_putD_other _ _ _ _ _ h

/-- The machine just written. -/
@[simp] theorem State.machine_setMachine_same (s : State) (m : Nat) (j : JobMachine) :
    (s.setMachine m j).machine m = j :=
  Store.lookD_putD_same _ _ _ _

/-- Another machine than the one written. -/
theorem State.machine_setMachine_other (s : State) (m m' : Nat) (j : JobMachine) (h : m' ≠ m) :
    (s.setMachine m j).machine m' = s.machine m' :=
  Store.lookD_putD_other _ _ _ _ _ h

/-- The supply and clock just written. -/
@[simp] theorem State.hwOf_setHw_same (s : State) (b : Nat) (h : BoardHw) : (s.setHw b h).hwOf b = h :=
  Store.lookD_putD_same _ _ _ _

/-- Another board's supply and clock than those written. -/
theorem State.hwOf_setHw_other (s : State) (b b' : Nat) (h : BoardHw) (hb : b' ≠ b) :
    (s.setHw b h).hwOf b' = s.hwOf b' :=
  Store.lookD_putD_other _ _ _ _ _ hb

end Sys2Proof.Machine
end

