-- ==== Sys2Proof/Laws/Ops.lean ====
section
/-! SUPPORT. For each shared operation, one lemma that says what it can do. `Inert` is what no
collaborator call and no transfer ever touches, with the canonical forms and the chip-select discipline
they all keep. -/

namespace Sys2Proof.Machine

/-- `t` comes from `s` by collaborator calls, transfers and moves of the other agents: the parameters,
the pending events, the job machines, the calibration state and the result are as before, and what is
canonical or disciplined stays so. -/
structure Inert (s t : State) : Prop where
  par : t.par = s.par
  pending : t.pending = s.pending
  jobs : t.jobs = s.jobs
  cal : t.cal = s.cal
  result : t.result = s.result
  memory : s.memoryWf → t.memoryWf
  hwCanon : Store.Canon BoardHw.initial s.hw → Store.Canon BoardHw.initial t.hw
  csCanon : Store.Canon false s.cs → Store.Canon false t.cs
  csDiscipline : csOk s → csOk t
  powered : s.par.plat.chips ≤ 128 → poweredOk s → poweredOk t

theorem Inert.refl (s : State) : Inert s s :=
  ⟨rfl, rfl, rfl, rfl, rfl, id, id, id, id, fun _ h => h⟩

theorem Inert.trans {s t u : State} (h : Inert s t) (k : Inert t u) : Inert s u :=
  ⟨k.par.trans h.par, k.pending.trans h.pending, k.jobs.trans h.jobs, k.cal.trans h.cal, k.result.trans h.result,
    k.memory ∘ h.memory, k.hwCanon ∘ h.hwCanon, k.csCanon ∘ h.csCanon, k.csDiscipline ∘ h.csDiscipline,
    fun hc hp => k.powered (by rw [h.par]; exact hc) (h.powered hc hp)⟩

theorem Inert.board {s t : State} (h : Inert s t) (b : Nat) : t.board b = s.board b := by
  simp [State.board, h.cal]

theorem Inert.machine {s t : State} (h : Inert s t) (m : Nat) : t.machine m = s.machine m := by
  simp [State.machine, h.jobs]

theorem Inert.variantOf {s t : State} (h : Inert s t) (b : Nat) : t.variantOf b = s.variantOf b := by
  simp [State.variantOf, h.board]

theorem Inert.cfgOf {s t : State} (h : Inert s t) (b : Nat) : t.cfgOf b = s.cfgOf b := by
  simp [State.cfgOf, h.variantOf, h.par]

/-- Registers and supply as before: what is known is still of a powered board. -/
theorem poweredOk_congr {s t : State} (h : poweredOk s) (hr : t.regs = s.regs) (hh : t.hw = s.hw) : poweredOk t := by
  intro p hp
  rw [hr] at hp
  simpa only [State.hwOf, hh] using h p hp

/-- An update of fields that no invariant speaks of. -/
theorem Inert.of_fields {s t : State} (h1 : t.par = s.par) (h2 : t.pending = s.pending) (h3 : t.jobs = s.jobs)
    (h4 : t.cal = s.cal) (h5 : t.result = s.result) (h6 : t.regs = s.regs) (h7 : t.hw = s.hw) (h8 : t.cs = s.cs)
    (h9 : t.inflight = s.inflight) : Inert s t := by
  refine ⟨h1, h2, h3, h4, h5, ?_, ?_, ?_, ?_, fun _ h => poweredOk_congr h h6 h7⟩
  · intro h; simpa only [State.memoryWf, h6] using h
  · intro h; rw [h7]; exact h
  · intro h; rw [h8]; exact h
  · intro h b hb
    have hb' : s.csOf b = true := by simpa [State.csOf, h8] using hb
    simpa [h9] using h b hb'

theorem emit_inert (s : State) (e : Effect) : Inert s (s.emit e) :=
  Inert.of_fields rfl rfl rfl rfl rfl rfl rfl rfl rfl

theorem setFrame_inert (s : State) (f : Frame) : Inert s (s.setFrame f) :=
  Inert.of_fields rfl rfl rfl rfl rfl rfl rfl rfl rfl

/-! ## The register bus -/

/-- A frame delivered keeps the register bus in canonical form. -/
theorem deliver_sorted (p : Params) (b : Nat) (w : Wire) (m : Store Word) (h : Store.Sorted m) :
    Store.Sorted (deliver p b w m) := by
  unfold deliver
  split
  · generalize locations p.plat.chips w = l
    induction l generalizing m with
    | nil => exact h
    | cons ck l ih => exact ih _ (Store.sorted_put _ _ _ h)
  · exact Store.sorted_filter _ _ h

theorem deliverBytes_sorted (s : State) (fl : InFlight) (h : s.memoryWf) : Store.Sorted (deliverBytes s fl) := by
  unfold deliverBytes
  split
  · split
    · exact deliver_sorted _ _ _ _ h
    · exact h
  · exact h

/-- The board of a register's key. -/
theorem regKey_board (b c k r : Nat) (hc : c < 128) (hk : k < 256) (hr : r < 128) : regKey b c k r / boardSpan = b := by
  unfold regKey boardSpan
  omega

/-- Every location a frame addresses is a chip and a core of the address space. -/
theorem locations_bound (chips : Nat) (w : Wire) (h : chips ≤ 128) (ck : Nat × Nat) (hm : ck ∈ locations chips w) :
    ck.1 < 128 ∧ ck.2 < 256 := by
  have hv : w.fmt.cores ≤ 128 := by cases w.fmt <;> decide
  have h1 : w.chip.toNat < 128 := w.chip.isLt
  have h2 : w.core.toNat < 256 := w.core.isLt
  unfold locations at hm
  cases hmode : w.mode <;> simp only [hmode, List.mem_map, List.mem_flatMap, List.mem_range, List.mem_singleton,
    List.not_mem_nil] at hm
  · subst hm; exact ⟨h1, h2⟩
  · obtain ⟨k, hk, rfl⟩ := hm; exact ⟨h1, by show k < 256; omega⟩
  · obtain ⟨c, hc, k, hk, rfl⟩ := hm; exact ⟨by show c < 128; omega, by show k < 256; omega⟩

/-- What a delivered frame makes known is of its own board. -/
theorem deliver_known (p : Params) (b : Nat) (w : Wire) (m : Store Word) (hc : p.plat.chips ≤ 128) (q : Nat × Word)
    (hq : q ∈ deliver p b w m) : q ∈ m ∨ q.1 / boardSpan = b := by
  unfold deliver at hq
  split at hq
  · have hb := locations_bound p.plat.chips w hc
    generalize locations p.plat.chips w = l at hq hb
    induction l generalizing m with
    | nil => exact .inl hq
    | cons ck l ih =>
      rcases ih _ hq fun x hx => hb x (List.mem_cons_of_mem _ hx) with h | h
      · rcases Store.mem_put _ _ _ _ h with rfl | h
        · exact .inr (regKey_board _ _ _ _ (hb ck List.mem_cons_self).1 (hb ck List.mem_cons_self).2 w.reg.isLt)
        · exact .inl h
      · exact .inr h
  · exact .inl (List.mem_of_mem_filter hq)

/-- A delivery makes nothing known of a board without supply (R367). -/
theorem deliverBytes_powered (s t : State) (fl : InFlight) (hc : s.par.plat.chips ≤ 128) (h : poweredOk s)
    (hr : t.regs = deliverBytes s fl) (hh : t.hw = s.hw) : poweredOk t := by
  intro q hq
  rw [hr] at hq
  rw [show t.hwOf (q.1 / boardSpan) = s.hwOf (q.1 / boardSpan) by simp only [State.hwOf, hh]]
  unfold deliverBytes at hq
  split at hq
  · rename_i ha
    have hp : (s.hwOf fl.board).supplyOn = true := by
      unfold State.reaches at ha
      exact (Bool.and_eq_true _ _ ▸ ha).2
    split at hq
    · rcases deliver_known _ _ _ _ hc q hq with hq | hq
      · exact h q hq
      · rw [hq]; exact hp
    · exact h q hq
  · exact h q hq

/-- What back-end completion does (R149): nothing without a write in flight; else the bytes are delivered,
that board's chip-select falls and nothing is in flight. -/
theorem land_cases (s : State) :
    (s.inflight = none ∧ land s = s) ∨
      ∃ fl, s.inflight = some fl ∧
        land s = { s with
          regs := deliverBytes s fl
          cs := Store.putD false s.cs fl.board false
          inflight := none
          trace := s.trace ++ [.landed fl.board fl.bytes (s.reaches fl.board)] } := by
  unfold land
  cases h : s.inflight with
  | none => exact .inl ⟨rfl, rfl⟩
  | some fl => exact .inr ⟨fl, rfl, rfl⟩

theorem land_inflight (s : State) : (land s).inflight = none := by
  rcases land_cases s with ⟨h, e⟩ | ⟨fl, -, e⟩ <;> simp [*]

theorem csOk_none {s : State} (h : csOk s) (hi : s.inflight = none) (b : Nat) : s.csOf b = false := by
  by_contra hb
  obtain ⟨fl, hf, -⟩ := h b (by simpa using hb)
  simp [hi] at hf

theorem land_cs (s : State) (h : csOk s) (b : Nat) : (land s).csOf b = false := by
  rcases land_cases s with ⟨hi, e⟩ | ⟨fl, hi, e⟩
  · rw [e]; exact csOk_none h hi b
  · simp only [e, State.csOf]
    by_cases hb : b = fl.board
    · subst hb; simp
    · rw [Store.lookD_putD_other _ _ _ _ _ hb]
      by_contra hc
      obtain ⟨fl', hf, rfl⟩ := h b (by simpa [State.csOf] using hc)
      rw [hi, Option.some.injEq] at hf
      exact hb (by rw [hf])

theorem land_inert (s : State) : Inert s (land s) := by
  have hcs := land_cs s
  rcases land_cases s with ⟨hi, e⟩ | ⟨fl, hi, e⟩
  · rw [e]; exact Inert.refl s
  · rw [e] at hcs ⊢
    exact ⟨rfl, rfl, rfl, rfl, rfl, deliverBytes_sorted s fl, id,
      fun h => Store.canon_putD false s.cs fl.board false h,
      fun h b hb => absurd hb (by simp [hcs h b]), fun hc h => deliverBytes_powered s _ fl hc h rfl rfl⟩

/-- What a physical failure of the write in flight does (U4): as its completion, but for the registers. -/
theorem lose_cases (s : State) :
    (s.inflight = none ∧ lose s = s) ∨
      ∃ fl, s.inflight = some fl ∧
        lose s = { s with
          cs := Store.putD false s.cs fl.board false
          inflight := none
          trace := s.trace ++ [.landed fl.board fl.bytes false] } := by
  unfold lose
  cases h : s.inflight with
  | none => exact .inl ⟨rfl, rfl⟩
  | some fl => exact .inr ⟨fl, rfl, rfl⟩

theorem lose_cs (s : State) : (lose s).cs = (land s).cs := by
  unfold lose land
  cases s.inflight <;> rfl

theorem lose_inert (s : State) : Inert s (lose s) := by
  have hcs : csOk s → ∀ b, (lose s).csOf b = false := fun h b => by
    simpa [State.csOf, lose_cs] using land_cs s h b
  rcases lose_cases s with ⟨hi, e⟩ | ⟨fl, hi, e⟩
  · rw [e]; exact Inert.refl s
  · rw [e] at hcs ⊢
    exact ⟨rfl, rfl, rfl, rfl, rfl, id, id, fun h => Store.canon_putD false s.cs fl.board false h,
      fun h b hb => absurd hb (by simp [hcs h b]), fun _ h => poweredOk_congr h rfl rfl⟩

theorem envMove_inert (m : EnvMove) (s : State) : Inert s (envMove m s) := by
  cases m with
  | backendDone => exact land_inert s
  | backendLost => exact lose_inert s
  | busUser holds => exact Inert.of_fields rfl rfl rfl rfl rfl rfl rfl rfl rfl
  | muxUser t u =>
    cases h : s.busHeld <;> simp only [envMove, h, if_true]
    · exact Inert.of_fields rfl rfl rfl rfl rfl rfl rfl rfl rfl
    · exact Inert.refl s
  | engine b c k found => exact emit_inert _ _
  | candidate b c k slot x => exact emit_inert _ _

theorem envMoves_inert (ms : List EnvMove) (s : State) : Inert s (ms.foldl (fun s m => envMove m s) s) := by
  induction ms generalizing s with
  | nil => exact Inert.refl s
  | cons m ms ih => exact (envMove_inert m s).trans (ih _)

/-- What the other agents can do between two actions of a command. -/
theorem environment_inert (s : State) : Inert s (environment s) := by
  unfold environment
  split
  · exact Inert.refl s
  · rename_i ms rest h
    exact Inert.trans (t := { s with between := rest }) (Inert.of_fields rfl rfl rfl rfl rfl rfl rfl rfl rfl)
      (envMoves_inert ms _)

/-- With nothing scripted the other agents do nothing. -/
theorem environment_idle (s : State) (h : s.between = []) : environment s = s := by
  simp [environment, h]

/-! ## Answers -/

theorem drawWait_inert (s : State) : Inert s (drawWait s).2 := by
  unfold drawWait; split <;> exact Inert.of_fields rfl rfl rfl rfl rfl rfl rfl rfl rfl

theorem drawRx_inert (s : State) : Inert s (drawRx s).2 := by
  unfold drawRx; split <;> exact Inert.of_fields rfl rfl rfl rfl rfl rfl rfl rfl rfl

theorem drawSane_inert (s : State) : Inert s (drawSane s).2 := by
  unfold drawSane; split <;> exact Inert.of_fields rfl rfl rfl rfl rfl rfl rfl rfl rfl

theorem drawLand_inert (s : State) : Inert s (drawLand s).2 := by
  unfold drawLand; split <;> exact Inert.of_fields rfl rfl rfl rfl rfl rfl rfl rfl rfl

theorem drawLine_inert (l : Line) (s : State) : Inert s (drawLine l s).2 := by
  cases l <;> unfold drawLine <;> dsimp only <;> split <;> exact Inert.of_fields rfl rfl rfl rfl rfl rfl rfl rfl rfl

/-- A draw changes nothing of the bus. -/
theorem drawWait_bus (s : State) :
    (drawWait s).2.inflight = s.inflight ∧ (drawWait s).2.cs = s.cs ∧ (drawWait s).2.regs = s.regs
      ∧ (drawWait s).2.mux = s.mux ∧ (drawWait s).2.route = s.route ∧ (drawWait s).2.trace = s.trace := by
  unfold drawWait; split <;> exact ⟨rfl, rfl, rfl, rfl, rfl, rfl⟩

theorem drawRx_bus (s : State) :
    (drawRx s).2.inflight = s.inflight ∧ (drawRx s).2.cs = s.cs ∧ (drawRx s).2.regs = s.regs
      ∧ (drawRx s).2.mux = s.mux ∧ (drawRx s).2.route = s.route ∧ (drawRx s).2.trace = s.trace := by
  unfold drawRx; split <;> exact ⟨rfl, rfl, rfl, rfl, rfl, rfl⟩

/-! ## Collaborator calls -/

/-- A line is sampled: the bits lie inside the string, and only the draw and the trace move. -/
theorem readLine_inert (l : Line) (b : Nat) (s : State) : Inert s (readLine l b s).2 :=
  ((environment_inert s).trans (drawLine_inert l _)).trans (emit_inert _ _)

/-- Writing supply and clock of a board keeps what `Inert` says, when the supply does not go off or nothing is known
of the board. -/
theorem setHw_inert (s : State) (b : Nat) (h : BoardHw)
    (hp : ((s.hwOf b).supplyOn = true → h.supplyOn = true) ∨ ∀ p ∈ s.regs, p.1 / boardSpan ≠ b) :
    Inert s (s.setHw b h) := by
  refine ⟨rfl, rfl, rfl, rfl, rfl, id, Store.canon_putD _ _ _ _, id, id, fun _ hk p hpm => ?_⟩
  have hk' := hk p hpm
  by_cases e : p.1 / boardSpan = b
  · rcases hp with hp | hp
    · rw [e] at hk'
      rw [e, State.hwOf_setHw_same]; exact hp hk'
    · exact absurd e (hp p hpm)
  · rw [State.hwOf_setHw_other _ _ _ _ e]; exact hk'

theorem clockEnable_inert (b : Nat) (on : Bool) (s : State) : Inert s (clockEnable b on s) :=
  ((environment_inert s).trans (setHw_inert _ b { (environment s).hwOf b with clockOn := on } (.inl fun h => h))).trans (emit_inert _ _)

theorem supplySetLevel_inert (b : Nat) (l : Int) (s : State) : Inert s (supplySetLevel b l s) :=
  ((environment_inert s).trans (setHw_inert _ b { (environment s).hwOf b with supplyLevel := l } (.inl fun h => h))).trans (emit_inert _ _)

theorem supplyEnable_inert (b : Nat) (on : Bool) (s : State) : Inert s (supplyEnable b on s) := by
  have hf : ∀ p ∈ forgetBoard b (environment s).regs, p.1 / boardSpan ≠ b := fun p hp => by
    simpa using (List.mem_filter.mp hp).2
  have k : Inert (environment s) { environment s with regs := forgetBoard b (environment s).regs } :=
    ⟨rfl, rfl, rfl, rfl, rfl, fun h => Store.sorted_filter _ _ h, id, id, id,
      fun _ h p hp => h p (List.mem_of_mem_filter hp)⟩
  refine ((environment_inert s).trans ?_).trans (emit_inert _ _)
  dsimp only
  split
  · rename_i h
    exact setHw_inert _ _ _ (.inl fun _ => (Bool.and_eq_true _ _ ▸ h).1)
  · exact k.trans (setHw_inert _ _ _ (.inr hf))

theorem supplySane_inert (b : Nat) (s : State) : Inert s (supplySane b s).2 :=
  ((environment_inert s).trans (drawSane_inert _)).trans (emit_inert _ _)

theorem delay_inert (d : Duration) (s : State) : Inert s (delay d s) :=
  (environment_inert s).trans (emit_inert _ _)

theorem logMsg_inert (m : LogMsg) (s : State) : Inert s (logMsg m s) :=
  emit_inert _ _

/-! ## Bus transactions -/

theorem abandon_inert (s : State) : Inert s { abandon s with cs := [] } := by
  unfold abandon
  split
  · rename_i hi
    exact ⟨rfl, rfl, rfl, rfl, rfl, id, id, fun _ => Store.canon_nil _, fun _ b hb => by simp [State.csOf] at hb,
      fun _ h => poweredOk_congr h rfl rfl⟩
  · rename_i fl hi
    have hd := drawLand_inert s
    rcases h : drawLand s with ⟨a, t⟩
    rw [h] at hd
    cases a
    · exact ⟨hd.par, hd.pending, hd.jobs, hd.cal, hd.result, hd.memory, hd.hwCanon, fun _ => Store.canon_nil _,
        fun _ b hb => by simp [State.csOf] at hb, fun hc hp => poweredOk_congr (hd.powered hc hp) rfl rfl⟩
    · exact ⟨hd.par, hd.pending, hd.jobs, hd.cal, hd.result, fun hm => deliverBytes_sorted t fl (hd.memory hm), hd.hwCanon,
        fun _ => Store.canon_nil _, fun _ b hb => by simp [State.csOf] at hb,
        fun hc hp => deliverBytes_powered t _ fl (by rw [hd.par]; exact hc) (hd.powered hc hp) rfl rfl⟩

/-- After a recovery (R305) no chip-select is set and nothing is in flight. -/
theorem recovery_bus (s : State) : (recovery s).cs = [] ∧ (recovery s).inflight = none := by
  refine ⟨rfl, ?_⟩
  unfold recovery abandon
  cases h : s.inflight with
  | none => exact h
  | some fl => cases h2 : (drawLand s).1 <;> simp [h2]

theorem recovery_inert (s : State) : Inert s (recovery s) :=
  (abandon_inert s).trans (Inert.of_fields rfl rfl rfl rfl rfl rfl rfl rfl rfl)

/-- The bus wait (R142): at once on an idle bus, else as the environment answers. -/
theorem busWait_cases (s : State) :
    (s.busHeld = false ∧ busWait s = (true, s)) ∨
      (s.busHeld = true ∧ (drawWait s).1 = true ∧
        busWait s = (true, { land (drawWait s).2 with otherHolds := false })) ∨
      (s.busHeld = true ∧ (drawWait s).1 = false ∧ busWait s = (false, recovery (drawWait s).2)) := by
  unfold busWait
  cases h : s.busHeld with
  | false => simp
  | true => cases h2 : (drawWait s).1 <;> simp [h2]

theorem busWait_inert (s : State) : Inert s (busWait s).2 := by
  rcases busWait_cases s with ⟨-, e⟩ | ⟨-, -, e⟩ | ⟨-, -, e⟩ <;> rw [e]
  · exact Inert.refl s
  · exact ((drawWait_inert s).trans (land_inert _)).trans (Inert.of_fields rfl rfl rfl rfl rfl rfl rfl rfl rfl)
  · exact (drawWait_inert s).trans (recovery_inert _)

/-- After a wait that ended in time the bus is idle. -/
theorem busWait_idle (s : State) (h : (busWait s).1 = true) : busIdle (busWait s).2 := by
  rcases busWait_cases s with ⟨hb, e⟩ | ⟨-, -, e⟩ | ⟨-, -, e⟩
  · rw [e]
    simpa [State.busHeld, busIdle] using hb
  · rw [e]
    exact ⟨land_inflight _, rfl⟩
  · simp [e] at h

/-- The state in which a transaction has the bus, in terms of the state after the wait. -/
theorem openBus_eq (b : Nat) (tx : List Byte) (s : State) :
    openBus b tx s =
      if (busWait s).1 then (true, { assertCs b (routeMux (busWait s).2) with txbuf := tx })
      else (false, (busWait s).2) := by
  unfold openBus
  rcases h : busWait s with ⟨a, t⟩
  cases a <;> rfl

theorem routeMux_fields (s : State) :
    (routeMux s).par = s.par ∧ (routeMux s).pending = s.pending ∧ (routeMux s).jobs = s.jobs
      ∧ (routeMux s).cal = s.cal ∧ (routeMux s).result = s.result ∧ (routeMux s).regs = s.regs
      ∧ (routeMux s).hw = s.hw ∧ (routeMux s).cs = s.cs ∧ (routeMux s).inflight = s.inflight
      ∧ (routeMux s).mux = .asic ∧ (routeMux s).draws = s.draws ∧ (routeMux s).f = s.f
      ∧ (routeMux s).rxAnswers = s.rxAnswers ∧ (routeMux s).waitAnswers = s.waitAnswers
      ∧ (routeMux s).between = s.between ∧ (routeMux s).otherHolds = s.otherHolds
      ∧ (routeMux s).doneAnswers = s.doneAnswers ∧ (routeMux s).nonceAnswers = s.nonceAnswers
      ∧ (routeMux s).saneAnswers = s.saneAnswers ∧ (routeMux s).rxbuf = s.rxbuf := by
  unfold routeMux
  split
  · rename_i h; simp [h]
  · simp

/-- The state in which a transaction has the bus: only the multiplexer, one chip-select, `txbuf` and the
trace differ from the state after the wait. -/
theorem opened_fields (b : Nat) (tx : List Byte) (t u : State)
    (hu : u = { assertCs b (routeMux t) with txbuf := tx }) :
    u.par = t.par ∧ u.pending = t.pending ∧ u.jobs = t.jobs ∧ u.cal = t.cal ∧ u.result = t.result ∧ u.regs = t.regs
      ∧ u.hw = t.hw ∧ u.cs = Store.putD false t.cs b true ∧ u.inflight = t.inflight ∧ u.mux = .asic ∧ u.draws = t.draws
      ∧ u.f = t.f ∧ u.rxAnswers = t.rxAnswers ∧ u.waitAnswers = t.waitAnswers ∧ u.between = t.between
      ∧ u.doneAnswers = t.doneAnswers ∧ u.nonceAnswers = t.nonceAnswers ∧ u.saneAnswers = t.saneAnswers
      ∧ u.rxbuf = t.rxbuf ∧ u.txbuf = tx := by
  have r := routeMux_fields t
  subst hu
  simp [assertCs, r]

/-- A transaction that has the bus and ends with every chip-select as `g` leaves it. -/
theorem opened_inert (b : Nat) (s t : State) (ht : busIdle t) (k : Inert s t) (u : State)
    (h1 : u.par = t.par) (h2 : u.pending = t.pending) (h3 : u.jobs = t.jobs) (h4 : u.cal = t.cal)
    (h5 : u.result = t.result) (h6 : u.regs = t.regs) (h7 : u.hw = t.hw)
    (h8 : u.cs = Store.putD false (Store.putD false t.cs b true) b false ∨
      (u.cs = Store.putD false t.cs b true ∧ ∃ fl, u.inflight = some fl ∧ fl.board = b)) : Inert s u := by
  refine k.trans ⟨h1, h2, h3, h4, h5, fun h => by simpa only [State.memoryWf, h6] using h, fun h => by rw [h7]; exact h,
    fun h => ?_, fun h b' hb' => ?_, fun _ h => poweredOk_congr h h6 h7⟩
  · rcases h8 with e | ⟨e, -⟩ <;> rw [e]
    · exact Store.canon_putD _ _ _ _ (Store.canon_putD _ _ _ _ h)
    · exact Store.canon_putD _ _ _ _ h
  · have hn := csOk_none h ht.1
    rcases h8 with e | ⟨e, fl, hf, hfb⟩
    · exfalso
      simp only [State.csOf, e] at hb' hn
      by_cases hbb : b' = b
      · subst hbb; simp at hb'
      · rw [Store.lookD_putD_other _ _ _ _ _ hbb, Store.lookD_putD_other _ _ _ _ _ hbb, hn b'] at hb'
        exact Bool.noConfusion hb'
    · simp only [State.csOf, e] at hb' hn
      by_cases hbb : b' = b
      · exact ⟨fl, hf, by rw [hfb, hbb]⟩
      · rw [Store.lookD_putD_other _ _ _ _ _ hbb, hn b'] at hb'
        exact Bool.noConfusion hb'

/-- A write transaction (R148): `Busy` with the state the wait left, or the write is in flight. -/
theorem busWrite_cases (b : Nat) (v : Variant) (tx : List Byte) (s : State) :
    ((busWait s).1 = false ∧ busWrite b v tx s = (.error raisedBusy, (busWait s).2)) ∨
      ((busWait s).1 = true ∧ ∃ u, u = assertCs b (routeMux (busWait s).2) ∧
        busWrite b v tx s = (.ok (), { u with
          txbuf := tx
          inflight := some ⟨b, tx⟩
          rxbuf := rxBytes v (Config.freeRx u.draws)
          draws := u.draws + 1
          trace := u.trace ++ [.xferStart b tx] })) := by
  unfold busWrite
  rw [openBus_eq]
  cases h : (busWait s).1
  · exact .inl ⟨rfl, by simp⟩
  · exact .inr ⟨rfl, _, rfl, by simp [State.emit]⟩

theorem busWrite_inert (b : Nat) (v : Variant) (tx : List Byte) (s : State) : Inert s (busWrite b v tx s).2 := by
  rcases busWrite_cases b v tx s with ⟨-, e⟩ | ⟨h, u, hu, e⟩ <;> rw [e]
  · exact busWait_inert s
  · have r := routeMux_fields (busWait s).2
    refine opened_inert b s (busWait s).2 (busWait_idle s h) (busWait_inert s) _ ?_ ?_ ?_ ?_ ?_ ?_ ?_ (.inr ⟨?_, ⟨b, tx⟩, rfl, rfl⟩) <;>
      simp [hu, assertCs, r]

/-- A read transaction (R147): `Busy` after a wait that expired or a back-end timeout, else the decoded
data, with the chip-select deasserted and nothing in flight. -/
theorem busRead_cases (b : Nat) (v : Variant) (shift : Nat) (tx : List Byte) (s : State) :
    ((busWait s).1 = false ∧ busRead b v shift tx s = (.error raisedBusy, (busWait s).2)) ∨
      ((busWait s).1 = true ∧
        ∃ u, u = { assertCs b (routeMux (busWait s).2) with txbuf := tx } ∧
          (((drawRx u).1 = none ∧ busRead b v shift tx s =
              (.error raisedBusy, recovery
                { (drawRx u).2 with
                  rxbuf := rxBytes v (Config.freeRx (drawRx u).2.draws)
                  draws := (drawRx u).2.draws + 1
                  trace := (drawRx u).2.trace ++ [.xferSync b tx none] })) ∨
            ∃ rx, (drawRx u).1 = some rx ∧ busRead b v shift tx s =
              (.ok (readData v shift (rxBytes v rx)),
                { (drawRx u).2 with
                  rxbuf := rxBytes v rx
                  f := { (drawRx u).2.f with data := (readData v shift (rxBytes v rx)).toNat }
                  cs := Store.putD false (drawRx u).2.cs b false
                  trace := (drawRx u).2.trace ++ [.xferSync b tx (some (rxBytes v rx))] }))) := by
  unfold busRead
  rw [openBus_eq]
  cases h : (busWait s).1
  · exact .inl ⟨rfl, by simp⟩
  · refine .inr ⟨rfl, _, rfl, ?_⟩
    simp only [if_true]
    rcases hd : drawRx { assertCs b (routeMux (busWait s).2) with txbuf := tx } with ⟨_ | rx, t⟩
    · exact .inl ⟨rfl, rfl⟩
    · exact .inr ⟨rx, rfl, rfl⟩

theorem drawRx_hw (s : State) : (drawRx s).2.hw = s.hw := by
  unfold drawRx; split <;> rfl

theorem busRead_inert (b : Nat) (v : Variant) (shift : Nat) (tx : List Byte) (s : State) :
    Inert s (busRead b v shift tx s).2 := by
  rcases busRead_cases b v shift tx s with ⟨-, e⟩ | ⟨h, u, hu, ⟨-, e⟩ | ⟨rx, -, e⟩⟩ <;> rw [e]
  · exact busWait_inert s
  · obtain ⟨h1, h2, h3, h4, h5, h6, h7, -⟩ := opened_fields b tx _ u hu
    have d := drawRx_inert u
    have w := busWait_inert s
    clear hu e
    generalize (drawRx u).2 = t at *
    have k := recovery_inert { t with
      rxbuf := rxBytes v (Config.freeRx t.draws), draws := t.draws + 1, trace := t.trace ++ [.xferSync b tx none] }
    have kc := (recovery_bus { t with
      rxbuf := rxBytes v (Config.freeRx t.draws), draws := t.draws + 1, trace := t.trace ++ [.xferSync b tx none] }).1
    exact w.trans ⟨k.par.trans (d.par.trans h1), k.pending.trans (d.pending.trans h2), k.jobs.trans (d.jobs.trans h3),
      k.cal.trans (d.cal.trans h4), k.result.trans (d.result.trans h5),
      fun hm => k.memory (d.memory (by simpa only [State.memoryWf, h6] using hm)),
      fun hm => k.hwCanon (d.hwCanon (by rw [h7]; exact hm)),
      fun _ => by rw [kc]; exact Store.canon_nil _, fun _ b' hb' => by simp [State.csOf, kc] at hb',
      fun hc hp => k.powered (by show t.par.plat.chips ≤ 128; rw [d.par, h1]; exact hc)
        (poweredOk_congr (d.powered (by rw [h1]; exact hc) (poweredOk_congr hp h6 h7)) rfl rfl)⟩
  · obtain ⟨h1, h2, h3, h4, h5, h6, h7, h8, -⟩ := opened_fields b tx _ u hu
    have d := drawRx_inert u
    have db := drawRx_bus u
    have dh := drawRx_hw u
    refine opened_inert b s (busWait s).2 (busWait_idle s h) (busWait_inert s) _ (d.par.trans h1) (d.pending.trans h2)
      (d.jobs.trans h3) (d.cal.trans h4) (d.result.trans h5) (db.2.2.1.trans h6) (dh.trans h7) (.inl ?_)
    show Store.putD false (drawRx u).2.cs b false = _
    rw [db.2.1, h8]

/-! ## Transfers -/

theorem transferWrite_inert (f : Frame) (s : State) : Inert s (transferWrite f s).2 :=
  ((environment_inert s).trans (setFrame_inert _ f)).trans (busWrite_inert _ _ _ _)

theorem transferRead_inert (f : Frame) (s : State) : Inert s (transferRead f s).2 :=
  ((environment_inert s).trans (setFrame_inert _ f)).trans (busRead_inert _ _ _ _ _)

/-- Sequencing: what the first part and every continuation keep, the whole keeps. -/
theorem andThen_inert {α β : Type} {s : State} {r : Res α} {k : α → State → Res β} (hr : Inert s r.2)
    (hk : ∀ a t, Inert t (k a t).2) : Inert s (r.andThen k).2 := by
  obtain ⟨a | a, t⟩ := r
  · exact hr
  · exact hr.trans (hk a t)

theorem memRead_inert (b c k : Nat) (r : BitVec 7) (s : State) : Inert s (memRead b c k r s).2 :=
  transferRead_inert _ _

theorem memWrite_inert (b c k : Nat) (r : BitVec 7) (x : Word) (s : State) : Inert s (memWrite b c k r x s).2 :=
  transferWrite_inert _ _

theorem memWriteAll_inert (b : Nat) (r : BitVec 7) (x : Word) (s : State) : Inert s (memWriteAll b r x s).2 :=
  transferWrite_inert _ _

theorem transfer_inert (f : Frame) (s : State) : Inert s (transfer f s).2 := by
  unfold transfer
  cases f.mode <;>
    first
      | exact andThen_inert (transferRead_inert _ _) fun _ _ => Inert.refl _
      | exact andThen_inert (transferWrite_inert _ _) fun _ _ => Inert.refl _

theorem sendAll_inert (fs : List Frame) (s : State) : Inert s (sendAll fs s).2 := by
  induction fs generalizing s with
  | nil => exact Inert.refl s
  | cons f fs ih => exact andThen_inert (transferWrite_inert _ _) fun _ t => ih t

theorem firstError_inert {s : State} {r : Except Raised Unit} {c : Res Unit} (h : Inert s c.2) :
    Inert s (firstError r c).2 := by
  unfold firstError
  obtain ⟨a | a, t⟩ := c <;> cases r
  · exact h.trans (logMsg_inert _ _)
  · exact h
  · exact h
  · exact h

/-- The register bus right after reset is in canonical form. -/
theorem reset_memoryWf : State.reset.memoryWf :=
  Store.sorted_nil

end Sys2Proof.Machine
end

