-- ==== Sys2Proof/Laws/Moves.lean ====
section
/-! SUPPORT. What the moves of the tuning caller and of the persistence collaborator can do, and what a delivery
changes where it reaches nothing. -/

namespace Sys2Proof.Machine

/-! ## BoardCal.tuned -/

@[simp] theorem BoardCal.tuned_present (cal : BoardCal) (c : Nat) (d : Divider) (bias : Bias) :
    (cal.tuned c d bias).present = cal.present := rfl
@[simp] theorem BoardCal.tuned_variant (cal : BoardCal) (c : Nat) (d : Divider) (bias : Bias) :
    (cal.tuned c d bias).variant = cal.variant := rfl
@[simp] theorem BoardCal.tuned_pass (cal : BoardCal) (c : Nat) (d : Divider) (bias : Bias) :
    (cal.tuned c d bias).pass = cal.pass := rfl
@[simp] theorem BoardCal.tuned_awake (cal : BoardCal) (c : Nat) (d : Divider) (bias : Bias) :
    (cal.tuned c d bias).awake = cal.awake := rfl
@[simp] theorem BoardCal.tuned_level (cal : BoardCal) (c : Nat) (d : Divider) (bias : Bias) :
    (cal.tuned c d bias).level = cal.level := rfl
@[simp] theorem BoardCal.tuned_state (cal : BoardCal) (c : Nat) (d : Divider) (bias : Bias) :
    (cal.tuned c d bias).state = cal.state := rfl
@[simp] theorem BoardCal.tuned_status (cal : BoardCal) (c : Nat) (d : Divider) (bias : Bias) :
    (cal.tuned c d bias).status = cal.status := rfl

theorem BoardCal.tuned_divOf (cal : BoardCal) (c : Nat) (d : Divider) (bias : Bias) (k : Nat) :
    (cal.tuned c d bias).divOf k = if k = c then d else cal.divOf k := by
  unfold BoardCal.divOf BoardCal.tuned
  split
  · rename_i h; subst h; exact Store.lookD_putD_same _ _ _ _
  · rename_i h; exact Store.lookD_putD_other _ _ _ _ _ h

theorem BoardCal.tuned_biasOf (cal : BoardCal) (c : Nat) (d : Divider) (bias : Bias) (k : Nat) :
    (cal.tuned c d bias).biasOf k = if k = c then bias else cal.biasOf k := by
  unfold BoardCal.biasOf BoardCal.tuned
  split
  · rename_i h; subst h; exact Store.lookD_putD_same _ _ _ _
  · rename_i h; exact Store.lookD_putD_other _ _ _ _ _ h

/-- A board that checks out is in range and present (R303). -/
theorem checkBoard_none (s : State) (b : Nat) (h : checkBoard s b = none) :
    b < s.par.plat.boards ∧ (s.board b).present = true := by
  unfold checkBoard at h
  split at h
  · cases h
  · rename_i hn
    simp only [not_or] at hn
    exact ⟨by omega, by simpa using hn.2⟩

/-- All that a tuning move can do (R41, R249). -/
theorem moveTune_next (b c : Nat) (d : Divider) (bias : Bias) (s t : State) (h : moveTune b c d bias s = .next t) :
    (b < s.par.plat.boards ∧ (s.board b).present = true ∧ c < s.par.plat.chips ∧ (s.board b).state = .calDone)
      ∧ t = s.setBoard b ((s.board b).tuned c d bias) := by
  unfold moveTune at h
  split at h
  · rename_i hc
    obtain ⟨h1, h2⟩ := checkBoard_none s b hc.1
    cases h
    exact ⟨⟨h1, h2, hc.2⟩, rfl⟩
  · cases h

/-- All that a restoring move can do (R327, R345). -/
theorem moveRestore_next (b c : Nat) (d : Divider) (bias : Bias) (s t : State)
    (h : moveRestore b c d bias s = .next t) :
    (b < s.par.plat.boards ∧ (s.board b).present = true ∧ c < s.par.plat.chips ∧ (s.board b).state = .notInitialized)
      ∧ t = s.setBoard b ((s.board b).tuned c d bias) := by
  unfold moveRestore at h
  split at h
  · rename_i hc
    obtain ⟨h1, h2⟩ := checkBoard_none s b hc.1
    cases h
    exact ⟨⟨h1, h2, hc.2⟩, rfl⟩
  · cases h

/-! ## Deliveries -/

/-- Bytes reach chips exactly where the multiplexer points to the ASICs and the board has its supply (R354, R367). -/
theorem reaches_iff (s : State) (b : Nat) : s.reaches b = true ↔ s.route = .asic ∧ (s.hwOf b).supplyOn = true := by
  simp [State.reaches]

/-- A write that reaches no chip changes no register. -/
theorem deliverBytes_unreached (s : State) (fl : InFlight) (h : s.reaches fl.board = false) :
    deliverBytes s fl = s.regs := by
  simp [deliverBytes, h]

/-- A write that reaches the chips does to the known registers what its frame says. -/
theorem deliverBytes_reached (s : State) (fl : InFlight) (i : Instr) (h : s.reaches fl.board = true)
    (hd : decode fl.bytes = .ok i) : deliverBytes s fl = deliver s.par fl.board (wireOf i) s.regs := by
  simp [deliverBytes, h, hd]

/-- What is known after a board's registers are forgotten. -/
theorem look_forgetBoard (b : Nat) (m : Store Word) (k : Nat) :
    Store.look (forgetBoard b m) k = if k / boardSpan = b then none else Store.look m k := by
  have h := Store.look_filter m (fun a => decide (a / boardSpan ≠ b)) k
  unfold forgetBoard
  by_cases e : k / boardSpan = b <;> simpa [e] using h

end Sys2Proof.Machine
end

