-- ==== Sys2Proof/Laws/Transfers.lean ====
section
/-! SUPPORT. What a transfer does when the bus wait ends in time and a read is answered, and what any
transfer does whether it succeeds or not: the facts that every command's proof cites. -/

namespace Sys2Proof.Machine

/-- What no transfer, line read or delay touches. -/
structure Calm (s t : State) : Prop where
  inert : Inert s t
  hw : t.hw = s.hw

theorem Calm.refl (s : State) : Calm s s := ⟨Inert.refl s, rfl⟩

theorem Calm.trans {s t u : State} (h : Calm s t) (k : Calm t u) : Calm s u :=
  ⟨h.inert.trans k.inert, k.hw.trans h.hw⟩

/-! ## The other agents between two actions -/

/-- What the other agents leave alone besides what `Inert` says: the scripts, the buffers, `f`, supply and
clock, the draw counter, and the frames on the bus. -/
structure EnvFrame (s t : State) : Prop where
  hw : t.hw = s.hw
  f : t.f = s.f
  txbuf : t.txbuf = s.txbuf
  rxbuf : t.rxbuf = s.rxbuf
  wait : t.waitAnswers = s.waitAnswers
  rx : t.rxAnswers = s.rxAnswers
  done : t.doneAnswers = s.doneAnswers
  nonce : t.nonceAnswers = s.nonceAnswers
  sane : t.saneAnswers = s.saneAnswers
  landA : t.landAnswers = s.landAnswers
  draws : t.draws = s.draws
  frames : busFrames t.trace = busFrames s.trace
  settles : t.trace.count (.delay .settle) = s.trace.count (.delay .settle)

theorem EnvFrame.refl (s : State) : EnvFrame s s :=
  ⟨rfl, rfl, rfl, rfl, rfl, rfl, rfl, rfl, rfl, rfl, rfl, rfl, rfl⟩

theorem EnvFrame.trans {s t u : State} (h : EnvFrame s t) (k : EnvFrame t u) : EnvFrame s u :=
  ⟨k.hw.trans h.hw, k.f.trans h.f, k.txbuf.trans h.txbuf, k.rxbuf.trans h.rxbuf, k.wait.trans h.wait, k.rx.trans h.rx,
    k.done.trans h.done, k.nonce.trans h.nonce, k.sane.trans h.sane, k.landA.trans h.landA, k.draws.trans h.draws,
    k.frames.trans h.frames, k.settles.trans h.settles⟩

theorem busFrames_append (a b : List Effect) : busFrames (a ++ b) = busFrames a ++ busFrames b := by
  simp [busFrames]

theorem land_frame (s : State) : EnvFrame s (land s) := by
  rcases land_cases s with ⟨-, e⟩ | ⟨fl, -, e⟩ <;> rw [e]
  · exact EnvFrame.refl s
  · refine ⟨rfl, rfl, rfl, rfl, rfl, rfl, rfl, rfl, rfl, rfl, rfl, ?_, ?_⟩
    · simp [busFrames]
    · simp [List.count_append]

theorem lose_frame (s : State) : EnvFrame s (lose s) := by
  rcases lose_cases s with ⟨-, e⟩ | ⟨fl, -, e⟩ <;> rw [e]
  · exact EnvFrame.refl s
  · refine ⟨rfl, rfl, rfl, rfl, rfl, rfl, rfl, rfl, rfl, rfl, rfl, ?_, ?_⟩
    · simp [busFrames]
    · simp [List.count_append]

theorem envMove_frame (m : EnvMove) (s : State) : EnvFrame s (envMove m s) := by
  cases m with
  | backendDone => exact land_frame s
  | backendLost => exact lose_frame s
  | busUser holds => exact ⟨rfl, rfl, rfl, rfl, rfl, rfl, rfl, rfl, rfl, rfl, rfl, rfl, rfl⟩
  | muxUser t u =>
    cases h : s.busHeld <;> simp only [envMove, h, if_true]
    · exact ⟨rfl, rfl, rfl, rfl, rfl, rfl, rfl, rfl, rfl, rfl, rfl, rfl, rfl⟩
    · exact EnvFrame.refl s
  | engine b c k found =>
    refine ⟨rfl, rfl, rfl, rfl, rfl, rfl, rfl, rfl, rfl, rfl, rfl, ?_, ?_⟩
    · simp [envMove, busFrames]
    · simp [envMove, List.count_append]
  | candidate b c k slot x =>
    refine ⟨rfl, rfl, rfl, rfl, rfl, rfl, rfl, rfl, rfl, rfl, rfl, ?_, ?_⟩
    · simp [envMove, busFrames]
    · simp [envMove, List.count_append]

theorem environment_frame (s : State) : EnvFrame s (environment s) := by
  unfold environment
  split
  · exact EnvFrame.refl s
  · rename_i ms rest h
    refine EnvFrame.trans (t := { s with between := rest })
      ⟨rfl, rfl, rfl, rfl, rfl, rfl, rfl, rfl, rfl, rfl, rfl, rfl, rfl⟩ ?_
    generalize ({ s with between := rest } : State) = u
    clear h
    induction ms generalizing u with
    | nil => exact EnvFrame.refl u
    | cons m ms ih => exact (envMove_frame m u).trans (ih _)

theorem environment_between (s : State) (h : s.between = []) : (environment s).between = [] := by
  rw [environment_idle s h, h]

theorem environment_calm (s : State) : Calm s (environment s) :=
  ⟨environment_inert s, (environment_frame s).hw⟩

/-! ## Scripts -/

theorem waitsEnd_mono {s : State} {n k : Nat} (h : waitsEnd s n) (hk : k ≤ n) : waitsEnd s k := by
  obtain ⟨rest, hr⟩ := h
  refine ⟨List.replicate (n - k) true ++ rest, ?_⟩
  rw [hr, ← List.append_assoc, ← List.replicate_add, Nat.add_sub_cancel' hk]

theorem waitsEnd_congr {s t : State} {n : Nat} (h : waitsEnd s n) (e : t.waitAnswers = s.waitAnswers) : waitsEnd t n := by
  obtain ⟨rest, hr⟩ := h
  exact ⟨rest, e.trans hr⟩

theorem readsAnswer_congr {s t : State} {l : List (Option Rx)} (h : readsAnswer s l) (e : t.rxAnswers = s.rxAnswers) :
    readsAnswer t l := by
  obtain ⟨rest, hr⟩ := h
  exact ⟨rest, e.trans hr⟩

/-! ## The bus wait -/

/-- With the next wait scripted to end, the bus is acquired and nothing but the bus state has moved. -/
theorem busWait_ok (s : State) (n : Nat) (h : waitsEnd s (n + 1)) :
    ∃ t, busWait s = (true, t) ∧ busIdle t ∧ waitsEnd t n ∧ Inert s t ∧ t.f = s.f ∧ t.hw = s.hw
      ∧ t.rxAnswers = s.rxAnswers ∧ t.doneAnswers = s.doneAnswers ∧ t.nonceAnswers = s.nonceAnswers
      ∧ t.saneAnswers = s.saneAnswers ∧ t.between = s.between ∧ t.mux = s.mux ∧ t.route = s.route
      ∧ busFrames t.trace = busFrames s.trace
      ∧ t.trace.count (.delay .settle) = s.trace.count (.delay .settle) := by
  obtain ⟨rest, hr⟩ := h
  have hi := busWait_inert s
  have hid := busWait_idle s
  rcases busWait_cases s with ⟨hb, e⟩ | ⟨hb, hd, e⟩ | ⟨hb, hd, e⟩
  · rw [e] at hi hid
    exact ⟨s, e, hid rfl, waitsEnd_mono ⟨rest, hr⟩ (Nat.le_succ n), hi, rfl, rfl, rfl, rfl, rfl, rfl, rfl, rfl, rfl, rfl, rfl⟩
  · have hw : (drawWait s).2 = { s with waitAnswers := List.replicate n true ++ rest } := by
      simp [drawWait, hr, List.replicate_succ]
    rw [e] at hi hid
    refine ⟨_, e, hid rfl, ⟨rest, ?_⟩, hi, ?_⟩
    · show (land (drawWait s).2).waitAnswers = _
      rw [(land_frame _).wait, hw]
    · have k := land_frame (drawWait s).2
      have kb : (land (drawWait s).2).between = (drawWait s).2.between ∧ (land (drawWait s).2).mux = (drawWait s).2.mux
          ∧ (land (drawWait s).2).route = (drawWait s).2.route := by
        rcases land_cases (drawWait s).2 with ⟨-, e⟩ | ⟨fl, -, e⟩ <;> rw [e] <;> exact ⟨rfl, rfl, rfl⟩
      rw [hw] at k kb
      simp only [hw]
      exact ⟨k.f, k.hw, k.rx, k.done, k.nonce, k.sane, kb.1, kb.2.1, kb.2.2, k.frames, k.settles⟩
  · exfalso
    simp [drawWait, hr, List.replicate_succ] at hd

/-! ## What a read brings back -/

theorem ofBeBytes_append (a b : List Byte) : ofBeBytes (a ++ b) = ofBeBytes a * 256 ^ b.length + ofBeBytes b := by
  unfold ofBeBytes
  rw [List.foldl_append]
  generalize List.foldl (fun a (b : Byte) => a * 256 + b.toNat) 0 a = x
  have key : ∀ (l : List Byte) (x : Nat), List.foldl (fun a (b : Byte) => a * 256 + b.toNat) x l
      = x * 256 ^ l.length + List.foldl (fun a (b : Byte) => a * 256 + b.toNat) 0 l := by
    intro l
    induction l with
    | nil => intro x; simp
    | cons y l ih =>
      intro x
      simp only [List.foldl_cons, List.length_cons]
      rw [ih (x * 256 + y.toNat), ih (0 * 256 + y.toNat)]
      ring
  exact key b x

@[simp] theorem beBytes_length (n x : Nat) : (beBytes n x).length = n := by
  induction n generalizing x with
  | zero => rfl
  | succ n ih => simp [beBytes, ih]

/-- Spelling a number in bytes and reading it back keeps its low bytes. -/
theorem ofBeBytes_beBytes (n x : Nat) : ofBeBytes (beBytes n x) = x % 256 ^ n := by
  induction n generalizing x with
  | zero => simp [beBytes, ofBeBytes, Nat.mod_one]
  | succ n ih =>
    have : beBytes (n + 1) x = [BitVec.ofNat 8 (x / 256 ^ n)] ++ beBytes n x := rfl
    rw [this, ofBeBytes_append, ih, beBytes_length]
    simp only [ofBeBytes, List.foldl_cons, List.foldl_nil, BitVec.toNat_ofNat, Nat.zero_mul, Nat.zero_add, show (2 : Nat) ^ 8 = 256 from rfl]
    have e : (256 : Nat) ^ (n + 1) = 256 ^ n * 256 := pow_succ 256 n
    rw [e, Nat.mod_mul]
    ring

/-- Bytes spell their number again. -/
theorem beBytes_ofBeBytes (bs : List Byte) : beBytes bs.length (ofBeBytes bs) = bs := by
  have key : ∀ (bs : List Byte) (y : Nat), beBytes bs.length (y * 256 ^ bs.length + ofBeBytes bs) = bs := by
    intro bs
    induction bs with
    | nil => intro y; rfl
    | cons b bs ih =>
      intro y
      have e : ofBeBytes (b :: bs) = b.toNat * 256 ^ bs.length + ofBeBytes bs := by
        have := ofBeBytes_append [b] bs
        simpa [ofBeBytes] using this
      have lt : ofBeBytes bs < 256 ^ bs.length := by
        clear ih e
        induction bs with
        | nil => simp [ofBeBytes]
        | cons c bs ih =>
          have e : ofBeBytes (c :: bs) = c.toNat * 256 ^ bs.length + ofBeBytes bs := by
            have := ofBeBytes_append [c] bs
            simpa [ofBeBytes] using this
          rw [e, List.length_cons, pow_succ]
          have := c.isLt
          nlinarith
      rw [e, List.length_cons]
      show BitVec.ofNat 8 _ :: beBytes bs.length _ = _
      have r : y * 256 ^ (bs.length + 1) + (b.toNat * 256 ^ bs.length + ofBeBytes bs)
          = (y * 256 + b.toNat) * 256 ^ bs.length + ofBeBytes bs := by ring
      rw [r, ih]
      congr 1
      have pos : 0 < 256 ^ bs.length := by positivity
      rw [Nat.add_comm, Nat.add_mul_div_right _ _ pos, Nat.div_eq_of_lt lt, Nat.zero_add]
      apply BitVec.eq_of_toNat_eq
      have := b.isLt
      simp only [BitVec.toNat_ofNat]
      omega
  simpa using key bs 0

theorem rxBytes_length (v : Variant) (rx : Rx) : (rxBytes v rx).length = v.frameLen := by
  cases v <;> simp [rxBytes, Variant.dataBytes, Variant.frameLen]

theorem wireOf_decodeWord64 (w : BitVec 88) : wireOf (decodeWord64 w) =
    ⟨.sc1, modeOf (w.extractLsb' 86 2), w.extractLsb' 79 7, w.extractLsb' 71 8, w.extractLsb' 64 7,
      w.extractLsb' 0 64⟩ := by
  unfold decodeWord64; cases modeOf (w.extractLsb' 86 2) <;> rfl

theorem wireOf_decodeWord32 (w : BitVec 56) : wireOf (decodeWord32 w) =
    ⟨.dcr1, modeOf (w.extractLsb' 54 2), w.extractLsb' 47 7, w.extractLsb' 39 8, w.extractLsb' 32 7,
      (w.extractLsb' 0 32).setWidth 64⟩ := by
  unfold decodeWord32; cases modeOf (w.extractLsb' 54 2) <;> rfl

theorem decode_of_length11 (bs : List Byte) (h : bs.length = 11) :
    decode bs = .ok (decodeWord64 (BitVec.ofNat 88 (ofBeBytes bs))) := by
  simp [decode, h]

theorem decode_of_length7 (bs : List Byte) (h : bs.length = 7) :
    decode bs = .ok (decodeWord32 (BitVec.ofNat 56 (ofBeBytes bs))) := by
  simp [decode, h]

theorem ofNat_shiftRight (x : Word) (k : Nat) : BitVec.ofNat 64 (x.toNat >>> k) = x >>> k := by
  apply BitVec.eq_of_toNat_eq
  rw [BitVec.toNat_ofNat, BitVec.toNat_ushiftRight]
  exact Nat.mod_eq_of_lt (lt_of_le_of_lt (Nat.shiftRight_le _ _) x.isLt)

theorem low_data64 (h r : Nat) (hr : r < 2 ^ 64) : (h * 256 ^ 8 + r % 256 ^ 8) % 2 ^ 88 % 2 ^ 64 = r := by
  norm_num at hr ⊢
  omega

theorem low_data32 (h r : Nat) : (h * 256 ^ 4 + r % 256 ^ 4) % 2 ^ 56 % 2 ^ 32 = r % 2 ^ 32 := by
  norm_num

/-- The value a read brings back: the low `W` raw bits, shifted (R101, R109). -/
theorem readData_rxBytes (v : Variant) (shift : Nat) (rx : Rx) :
    readData v shift (rxBytes v rx) = decodedRead v shift rx := by
  have hl := rxBytes_length v rx
  have hb : ofBeBytes (rxBytes v rx)
      = (rx.header.toNat % 256 ^ 3) * 256 ^ v.dataBytes + rx.raw.toNat % 256 ^ v.dataBytes := by
    rw [rxBytes, ofBeBytes_append, ofBeBytes_beBytes, ofBeBytes_beBytes, beBytes_length]
  unfold readData decodeFrame decodedRead
  cases v
  · rw [decode_of_length11 _ hl]
    have key : (BitVec.ofNat 88 (ofBeBytes (rxBytes .sc1 rx))).extractLsb' 0 64 = rx.raw := by
      apply BitVec.eq_of_toNat_eq
      rw [hb, BitVec.extractLsb'_toNat, BitVec.toNat_ofNat, Nat.shiftRight_zero]
      exact low_data64 _ _ rx.raw.isLt
    simp only [wireOf_decodeWord64, key, if_true, truncW, ofNat_shiftRight]
  · rw [decode_of_length7 _ hl]
    have key : (BitVec.ofNat 56 (ofBeBytes (rxBytes .dcr1 rx))).extractLsb' 0 32 = rx.raw.setWidth 32 := by
      apply BitVec.eq_of_toNat_eq
      rw [hb, BitVec.extractLsb'_toNat, BitVec.toNat_ofNat, Nat.shiftRight_zero, BitVec.toNat_setWidth]
      exact low_data32 _ _
    simp only [wireOf_decodeWord32, key, if_true, truncW, ofNat_shiftRight]

/-! ## Transfers that succeed -/

/-- Everything that a transfer which succeeds leaves for the next action of a command: one frame more on the
bus, the scripts of the lines and the voltages as they were. -/
structure Sent (s t : State) (fs : List Frame) : Prop where
  calm : Calm s t
  frames : sends s t fs
  done : t.doneAnswers = s.doneAnswers
  nonce : t.nonceAnswers = s.nonceAnswers
  sane : t.saneAnswers = s.saneAnswers
  settles : t.trace.count (.delay .settle) = s.trace.count (.delay .settle)

theorem onTheBus_congr {s t : State} (h : Inert s t) (fs : List Frame) : onTheBus t fs = onTheBus s fs := by
  unfold onTheBus State.encodeFor
  simp [h.variantOf, h.cfgOf]

theorem onTheBus_append (s : State) (fs gs : List Frame) : onTheBus s (fs ++ gs) = onTheBus s fs ++ onTheBus s gs := by
  simp [onTheBus]

theorem Sent.refl (s : State) : Sent s s [] :=
  ⟨Calm.refl s, by simp [sends, onTheBus], rfl, rfl, rfl, rfl⟩

theorem Sent.trans {s t u : State} {fs gs : List Frame} (h : Sent s t fs) (k : Sent t u gs) : Sent s u (fs ++ gs) := by
  refine ⟨h.calm.trans k.calm, ?_, k.done.trans h.done, k.nonce.trans h.nonce, k.sane.trans h.sane,
    k.settles.trans h.settles⟩
  have h1 := h.frames
  have h2 := k.frames
  unfold sends at *
  rw [h2, h1, onTheBus_congr h.calm.inert, onTheBus_append, List.append_assoc]

theorem routeMux_trace (s : State) : busFrames (routeMux s).trace = busFrames s.trace
    ∧ (routeMux s).trace.count (.delay .settle) = s.trace.count (.delay .settle) := by
  unfold routeMux
  split
  · exact ⟨rfl, rfl⟩
  · exact ⟨by simp [busFrames], by simp [List.count_append]⟩

/-- A write whose bus wait ends in time is started. -/
theorem transferWrite_ok (f : Frame) (s : State) (n : Nat) (h : waitsEnd s (n + 1)) :
    ∃ t, transferWrite f s = (.ok (), t) ∧ Sent s t [f] ∧ waitsEnd t n ∧ t.rxAnswers = s.rxAnswers
      ∧ t.inflight = some ⟨f.board, s.encodeFor f⟩ := by
  have e := environment_frame s
  obtain ⟨u, hu, -, hn, hi, -, hhw, hrx, hd, hno, hsa, -, -, -, hfr, hst⟩ :=
    busWait_ok ((environment s).setFrame f) n (waitsEnd_congr h e.wait)
  have hinert := transferWrite_inert f s
  have hc := busWrite_cases f.board (s.variantOf f.board) (s.encodeFor f) ((environment s).setFrame f)
  rw [hu] at hc
  rcases hc with ⟨h0, -⟩ | ⟨-, w, hw, ew⟩
  · exact absurd h0 (by simp)
  · have r := routeMux_fields u
    have rt := routeMux_trace u
    have ew' : transferWrite f s = _ := ew
    rw [ew'] at hinert
    have wt : w.trace = (routeMux u).trace ++ [.csAssert f.board] := by rw [hw]; rfl
    have wp : w.hw = u.hw ∧ w.waitAnswers = u.waitAnswers ∧ w.rxAnswers = u.rxAnswers ∧ w.doneAnswers = u.doneAnswers
        ∧ w.nonceAnswers = u.nonceAnswers ∧ w.saneAnswers = u.saneAnswers := by
      rw [hw]; simp [assertCs, r]
    refine ⟨_, ew', ⟨⟨hinert, (wp.1.trans hhw).trans e.hw⟩, ?_, (wp.2.2.2.1.trans hd).trans e.done,
      (wp.2.2.2.2.1.trans hno).trans e.nonce, (wp.2.2.2.2.2.trans hsa).trans e.sane, ?_⟩, waitsEnd_congr hn wp.2.1,
      (wp.2.2.1.trans hrx).trans e.rx, rfl⟩
    · show busFrames (w.trace ++ _) = _
      rw [wt, busFrames_append, busFrames_append, rt.1, hfr]
      simp [e.frames, onTheBus]
      simp [busFrames]
    · show List.count _ (w.trace ++ _) = _
      rw [wt, List.count_append, List.count_append, rt.2, hst]
      simp [e.settles]

/-- A read whose bus wait ends in time and which is answered brings the decoded value. -/
theorem transferRead_ok (f : Frame) (s : State) (n : Nat) (rx : Rx) (l : List (Option Rx)) (h : waitsEnd s (n + 1))
    (ha : readsAnswer s (some rx :: l)) :
    ∃ t, transferRead f s = (.ok (decodedRead (s.variantOf f.board) (s.cfgOf f.board).shift rx), t) ∧ Sent s t [f]
      ∧ waitsEnd t n ∧ readsAnswer t l ∧ t.inflight = none := by
  have e := environment_frame s
  obtain ⟨u, hu, hidle, hn, hi, -, hhw, hrx, hd, hno, hsa, -, -, -, hfr, hst⟩ :=
    busWait_ok ((environment s).setFrame f) n (waitsEnd_congr h e.wait)
  have hinert := transferRead_inert f s
  obtain ⟨rest, hrest⟩ := ha
  have hc := busRead_cases f.board (s.variantOf f.board) (s.cfgOf f.board).shift (s.encodeFor f) ((environment s).setFrame f)
  rw [hu] at hc
  rcases hc with ⟨h0, -⟩ | ⟨-, w, hw, hc⟩
  · exact absurd h0 (by simp)
  · obtain ⟨o1, o2, o3, o4, o5, o6, o7, o8, o9, o10, o11, o12, o13, o14, o15, o16, o17, o18, -⟩ := opened_fields _ _ _ _ hw
    have rt := routeMux_trace u
    have wt : w.trace = (routeMux u).trace ++ [.csAssert f.board] := by rw [hw]; rfl
    have wrx : w.rxAnswers = some rx :: (l ++ rest) := by
      rw [o13]; exact (hrx.trans e.rx).trans hrest
    have hdr : drawRx w = (some rx, { w with rxAnswers := l ++ rest }) := by simp [drawRx, wrx]
    rw [hdr] at hc
    rcases hc with ⟨h0, -⟩ | ⟨rx', hrx', ew⟩
    · exact absurd h0 (by simp)
    · obtain rfl : rx = rx' := by simpa using hrx'
      rw [readData_rxBytes] at ew
      have ew' : transferRead f s = _ := ew
      rw [ew'] at hinert
      refine ⟨_, ew', ⟨⟨hinert, (o7.trans hhw).trans e.hw⟩, ?_, (o16.trans hd).trans e.done, (o17.trans hno).trans e.nonce,
        (o18.trans hsa).trans e.sane, ?_⟩, waitsEnd_congr hn o14, ⟨rest, rfl⟩, o9.trans hidle.1⟩
      · show busFrames (w.trace ++ _) = _
        rw [wt, busFrames_append, busFrames_append, rt.1, hfr]
        simp [e.frames, onTheBus]
        simp [busFrames]
      · show List.count _ (w.trace ++ _) = _
        rw [wt, List.count_append, List.count_append, rt.2, hst]
        simp [e.settles]

/-! ## Transfers whatever happens -/

/-- A transfer of either kind ends as started or answered, with its frame on the bus, or as `Busy`. -/
theorem recovery_frames (s : State) : busFrames (recovery s).trace = busFrames s.trace
    ∧ (recovery s).trace.count (.delay .settle) = s.trace.count (.delay .settle) := by
  have key : ∀ l : List Nat, busFrames (l.map Effect.csDeassert) = []
      ∧ (l.map Effect.csDeassert).count (.delay .settle) = 0 := by
    intro l
    induction l with
    | nil => exact ⟨rfl, rfl⟩
    | cons b l ih => exact ⟨by simp [busFrames], by simp [ih.2]⟩
  have ha : busFrames (abandon s).trace = busFrames s.trace
      ∧ (abandon s).trace.count (.delay .settle) = s.trace.count (.delay .settle) := by
    unfold abandon
    split
    · exact ⟨rfl, rfl⟩
    · have hd : (drawLand s).2.trace = s.trace := by unfold drawLand; split <;> rfl
      cases h : (drawLand s).1 <;> simp only [h, if_true]
      · exact ⟨by simp [hd], by simp [hd]⟩
      · exact ⟨by simp [hd, busFrames], by simp [hd, List.count_append]⟩
  unfold recovery
  dsimp only
  rw [busFrames_append, List.count_append, (key _).1, (key _).2, ha.1, ha.2]
  simp

theorem drawLand_hw (s : State) : (drawLand s).2.hw = s.hw := by
  unfold drawLand; split <;> rfl

theorem recovery_hw (s : State) : (recovery s).hw = s.hw := by
  show (abandon s).hw = s.hw
  unfold abandon
  split
  · rfl
  · cases h : (drawLand s).1 <;> simp [h, drawLand_hw]

theorem busWait_calm (s : State) : Calm s (busWait s).2 ∧ busFrames (busWait s).2.trace = busFrames s.trace
    ∧ (busWait s).2.trace.count (.delay .settle) = s.trace.count (.delay .settle) := by
  have hi := busWait_inert s
  have hw : (drawWait s).2.hw = s.hw := by unfold drawWait; split <;> rfl
  have ht := (drawWait_bus s).2.2.2.2.2
  rcases busWait_cases s with ⟨-, e⟩ | ⟨-, -, e⟩ | ⟨-, -, e⟩ <;> rw [e] at hi ⊢
  · exact ⟨⟨hi, rfl⟩, rfl, rfl⟩
  · have k := land_frame (drawWait s).2
    exact ⟨⟨hi, k.hw.trans hw⟩, by simp [k.frames, ht], by simp [k.settles, ht]⟩
  · have k := recovery_frames (drawWait s).2
    exact ⟨⟨hi, (recovery_hw _).trans hw⟩, by simp [k.1, ht], by simp [k.2, ht]⟩

/-- What a write transfer can do: start its frame, or answer `Busy` with no frame of its own on the bus. -/
theorem transferWrite_cases (f : Frame) (s : State) :
    ∃ t, Calm s t ∧ t.trace.count (.delay .settle) = s.trace.count (.delay .settle)
      ∧ ((transferWrite f s = (.ok (), t) ∧ sends s t [f]) ∨ (transferWrite f s = (.error raisedBusy, t) ∧ sends s t [])) := by
  have e := environment_frame s
  have hinert := transferWrite_inert f s
  have hwt := busWait_calm ((environment s).setFrame f)
  have hc := busWrite_cases f.board (s.variantOf f.board) (s.encodeFor f) ((environment s).setFrame f)
  rcases hc with ⟨-, ew⟩ | ⟨-, w, hw, ew⟩
  · have ew' : transferWrite f s = _ := ew
    rw [ew'] at hinert
    refine ⟨_, ⟨hinert, hwt.1.hw.trans e.hw⟩, hwt.2.2.trans e.settles, .inr ⟨ew', ?_⟩⟩
    simp only [sends, hwt.2.1, onTheBus, List.map_nil, List.append_nil]
    exact e.frames
  · have ew' : transferWrite f s = _ := ew
    rw [ew'] at hinert
    have r := routeMux_fields (busWait ((environment s).setFrame f)).2
    have rt := routeMux_trace (busWait ((environment s).setFrame f)).2
    have wt : w.trace = (routeMux (busWait ((environment s).setFrame f)).2).trace ++ [.csAssert f.board] := by rw [hw]; rfl
    have wh : w.hw = (busWait ((environment s).setFrame f)).2.hw := by rw [hw]; simp [assertCs, r]
    refine ⟨_, ⟨hinert, (wh.trans hwt.1.hw).trans e.hw⟩, ?_, .inl ⟨ew', ?_⟩⟩
    · show List.count _ (w.trace ++ _) = _
      rw [wt, List.count_append, List.count_append, rt.2, hwt.2.2]
      simp [e.settles]
    · show busFrames (w.trace ++ _) = _
      rw [wt, busFrames_append, busFrames_append, rt.1, hwt.2.1]
      simp [e.frames, onTheBus]
      simp [busFrames]

/-- What a read transfer can do: bring a value, or answer `Busy` with its frame cut short or never sent. -/
theorem transferRead_cases (f : Frame) (s : State) :
    ∃ t, Calm s t ∧ t.trace.count (.delay .settle) = s.trace.count (.delay .settle)
      ∧ ((∃ d, transferRead f s = (.ok d, t) ∧ sends s t [f])
        ∨ (transferRead f s = (.error raisedBusy, t) ∧ (sends s t [] ∨ sends s t [f]))) := by
  have e := environment_frame s
  have hinert := transferRead_inert f s
  have hwt := busWait_calm ((environment s).setFrame f)
  have hc := busRead_cases f.board (s.variantOf f.board) (s.cfgOf f.board).shift (s.encodeFor f) ((environment s).setFrame f)
  rcases hc with ⟨-, ew⟩ | ⟨-, w, hw, hc⟩
  · have ew' : transferRead f s = _ := ew
    rw [ew'] at hinert
    refine ⟨_, ⟨hinert, hwt.1.hw.trans e.hw⟩, hwt.2.2.trans e.settles, .inr ⟨ew', .inl ?_⟩⟩
    simp only [sends, hwt.2.1, onTheBus, List.map_nil, List.append_nil]
    exact e.frames
  · have o := opened_fields _ _ _ _ hw
    have rt := routeMux_trace (busWait ((environment s).setFrame f)).2
    have wt : w.trace = (routeMux (busWait ((environment s).setFrame f)).2).trace ++ [.csAssert f.board] := by rw [hw]; rfl
    have dt := (drawRx_bus w).2.2.2.2.2
    have dh := drawRx_hw w
    have wh : w.hw = (environment s).hw := o.2.2.2.2.2.2.1.trans hwt.1.hw
    have wf : busFrames w.trace = busFrames s.trace := by
      rw [wt, busFrames_append, rt.1, hwt.2.1]
      simp [e.frames]
      simp [busFrames]
    have ws : w.trace.count (.delay .settle) = s.trace.count (.delay .settle) := by
      rw [wt, List.count_append, rt.2, hwt.2.2]
      simp [e.settles]
    rcases hc with ⟨-, ew⟩ | ⟨rx, -, ew⟩
    · have ew' : transferRead f s = _ := ew
      rw [ew'] at hinert
      refine ⟨_, ⟨hinert, (recovery_hw _).trans ((dh.trans wh).trans e.hw)⟩, ?_, .inr ⟨ew', .inr ?_⟩⟩
      · rw [(recovery_frames _).2]
        show List.count _ ((drawRx w).2.trace ++ _) = _
        rw [dt, List.count_append, ws]
        simp
      · unfold sends
        rw [(recovery_frames _).1]
        show busFrames ((drawRx w).2.trace ++ _) = _
        rw [dt, busFrames_append, wf]
        simp [busFrames, onTheBus]
    · have ew' : transferRead f s = _ := ew
      rw [ew'] at hinert
      refine ⟨_, ⟨hinert, (dh.trans wh).trans e.hw⟩, ?_, .inl ⟨_, ew', ?_⟩⟩
      · show List.count _ ((drawRx w).2.trace ++ _) = _
        rw [dt, List.count_append, ws]
        simp
      · show busFrames ((drawRx w).2.trace ++ _) = _
        rw [dt, busFrames_append, wf]
        simp [busFrames, onTheBus]

end Sys2Proof.Machine
end

