-- ==== Sys2Proof/Laws/PerInstr.lean ====
section
/-! SUPPORT. Facts about each frame as syntax, one lemma per constructor of Instr. -/

namespace Sys2Proof.Laws

open Sys2Proof.Machine

/-- A frame takes the bytes of its format, whatever its mode and operands (R90). -/
def EncodedLength.Statement (i : Instr) : Prop :=
  (encode i).length = (wireOf i).fmt.frameLen

theorem EncodedLength.wr32 (c : BitVec 7) (k : BitVec 8) (r : BitVec 7) (d : BitVec 32) :
    EncodedLength.Statement (.wr32 c k r d) := beBytes_length _ _
theorem EncodedLength.rd32 (c : BitVec 7) (k : BitVec 8) (r : BitVec 7) (d : BitVec 32) :
    EncodedLength.Statement (.rd32 c k r d) := beBytes_length _ _
theorem EncodedLength.wrc32 (c : BitVec 7) (k : BitVec 8) (r : BitVec 7) (d : BitVec 32) :
    EncodedLength.Statement (.wrc32 c k r d) := beBytes_length _ _
theorem EncodedLength.wra32 (c : BitVec 7) (k : BitVec 8) (r : BitVec 7) (d : BitVec 32) :
    EncodedLength.Statement (.wra32 c k r d) := beBytes_length _ _
theorem EncodedLength.wr64 (c : BitVec 7) (k : BitVec 8) (r : BitVec 7) (d : BitVec 64) :
    EncodedLength.Statement (.wr64 c k r d) := beBytes_length _ _
theorem EncodedLength.rd64 (c : BitVec 7) (k : BitVec 8) (r : BitVec 7) (d : BitVec 64) :
    EncodedLength.Statement (.rd64 c k r d) := beBytes_length _ _
theorem EncodedLength.wrc64 (c : BitVec 7) (k : BitVec 8) (r : BitVec 7) (d : BitVec 64) :
    EncodedLength.Statement (.wrc64 c k r d) := beBytes_length _ _
theorem EncodedLength.wra64 (c : BitVec 7) (k : BitVec 8) (r : BitVec 7) (d : BitVec 64) :
    EncodedLength.Statement (.wra64 c k r d) := beBytes_length _ _

end Sys2Proof.Laws
end

