-- ==== Sys2Proof/Tests/Slice0.lean ====
section
/-! SUPPORT. Tests of the model on small states, and one witness for the hypotheses of each statement. The
expected values come from spec/95_test_vectors.md, named beside each test, or are worked by hand from the
encoding of spec/30_encoding.md. -/

namespace Sys2Proof.Tests

open Sys2Proof Sys2Proof.Machine

/-! ## States to test on -/

/-- The example configuration with a read erratum of `shift` bits on both variants. -/
def parS (shift : Nat) : Params :=
  { sc1 := { Config.exChip with shift := shift }, dcr1 := { Config.exChip with shift := shift }, plat := Config.exPlat }

/-- Reset with board 0 present, its supply on, of variant `v`, in calibration state `c`. -/
def onBoard (v : Variant) (shift : Nat) (c : CalState) : State :=
  { State.reset with
    par := parS shift, cal := [(0, { BoardCal.initial with present := true, variant := v, state := c })]
    hw := [(0, { BoardHw.initial with supplyOn := true })] }

/-- The same with `n` bus waits that end in time and these read answers. -/
def ready (v : Variant) (shift n : Nat) (rx : List (Option Rx)) : State :=
  { onBoard v shift .calDone with waitAnswers := List.replicate n true, rxAnswers := rx }

/-- A job machine in a given state on chip 2, last core of its variant. -/
def machineAt (j : JState) (core : Nat) : JobMachine :=
  { JobMachine.initial with jstate := j, tgt := { board := 0, chip := 2, core := core, bmode := .chipWide } }

/-- `ready` with machine 0 in a given state and these line samples. -/
def withJob (v : Variant) (shift n : Nat) (rx : List (Option Rx)) (j : JState) (core : Nat) (d nn : List ChipBits) :
    State :=
  { ready v shift n rx with jobs := [(0, machineAt j core)], doneAnswers := d, nonceAnswers := nn }

/-- The raw data of a read answer. -/
def raw (x : Word) : Option Rx := some { header := 0xABCDEF, raw := x }

/-- What a next state shows, and nothing for a stop. -/
def shows {α : Type} (o : Host.Outcome State Fault Refusal) (f : State → α) : Option α :=
  match o with
  | .next s => some (f s)
  | _ => none

/-- A state in which a write to board 0 is in flight. -/
def flying (v : Variant) (i : Instr) : State :=
  { onBoard v 0 .calDone with
    mux := .asic, route := .asic, cs := [(0, true)], inflight := some ⟨0, encode i⟩
    pending := [.move (.env .backendDone)] }

/-! ## Well-formedness -/

theorem test_wrc32_with_a_core_is_ill_formed : (Instr.wrc32 3 0x55 0x10 1).wf = false := by decide
theorem test_wra32_with_a_core_is_ill_formed : (Instr.wra32 0 1 0x10 1).wf = false := by decide
theorem test_wrc64_with_a_core_is_ill_formed : (Instr.wrc64 3 0x80 0x10 1).wf = false := by decide
theorem test_wra64_with_a_core_is_ill_formed : (Instr.wra64 0 0xFF 0x10 1).wf = false := by decide

/-! ## Decoding: one word for each constructor, written out from the encoding -/

/-- E2. -/
theorem test_decode_wr32 : decodeTableWord 56 0x0284AA89ABCDEF = some (.wr32 5 9 0x2A 0x89ABCDEF) := by decide
/-- K4's bytes. -/
theorem test_decode_rd32 : decodeTableWord 56 0x4080AAC9DC3AEC = some (.rd32 1 1 0x2A 0xC9DC3AEC) := by decide
/-- Mode `10`, chip `0000010`, core 0, register 0x1C (L2, frame 12). -/
theorem test_decode_wrc32 : decodeTableWord 56 0x81001C00000001 = some (.wrc32 2 0 0x1C 1) := by decide
/-- K5. -/
theorem test_decode_wra32 : decodeTableWord 56 0xFFFFFFFFFFFFFF = some (.wra32 0x7F 0xFF 0x7F 0xFFFFFFFF) := by decide
/-- E1. -/
theorem test_decode_wr64 :
    decodeTableWord 88 0x0284AA0123456789ABCDEF = some (.wr64 5 9 0x2A 0x0123456789ABCDEF) := by decide
/-- E14: chip 64, core 1, register 1. -/
theorem test_decode_rd64 : decodeTableWord 88 0x6000810000000000000000 = some (.rd64 64 1 1 0) := by decide
/-- E5's fields in the 64-bit format, the core as sent. -/
theorem test_decode_wrc64 : decodeTableWord 88 0x81801000000000DEADBEEF = some (.wrc64 3 0 0x10 0xDEADBEEF) := by decide
/-- E6. -/
theorem test_decode_wra64 : decodeTableWord 88 0xC00020000000000B609366 = some (.wra64 0 0 0x20 0x0B609366) := by decide
theorem test_decode_refuses_six_bytes : decode [0, 0, 0, 0, 0, 0] = .error (.badLength 6) := by decide

/-! ## The codec -/

/-- E5 and E7: the core of a broadcast frame is sent as 0. -/
theorem test_encode_zeroes_the_core :
    encodeFrame .dcr1 0 ⟨.chipWideWrite, 0, 3, 0x55, 0x10, 0xDEADBEEF⟩ = [0x81, 0x80, 0x10, 0xDE, 0xAD, 0xBE, 0xEF]
      ∧ encodeFrame .sc1 0 ⟨.multicastWrite, 0, 0x7F, 0xFF, 0x7F, 2 ^ 64 - 1⟩
        = [0xFF, 0x80, 0x7F, 0xFF, 0xFF, 0xFF, 0xFF, 0xFF, 0xFF, 0xFF, 0xFF] := by decide
/-- E4 and E10: the pre-shift of a read address, and the address bit it loses. -/
theorem test_encode_shifts_read_addresses :
    encodeFrame .sc1 1 ⟨.singleRead, 0, 14, 0x80, 0x35, 0⟩ = [0x47, 0x40, 0x6A, 0, 0, 0, 0, 0, 0, 0, 0]
      ∧ encodeFrame .sc1 1 ⟨.singleRead, 0, 1, 1, 0x40, 0⟩ = [0x40, 0x80, 0x80, 0, 0, 0, 0, 0, 0, 0, 0] := by decide
/-- E12 and E13: writes are not shifted, over-wide fields are truncated. -/
theorem test_encode_truncates :
    encodeFrame .dcr1 1 ⟨.singleWrite, 0, 2, 127, 0x33, 0x80000001⟩ = [0x01, 0x3F, 0xB3, 0x80, 0x00, 0x00, 0x01]
      ∧ encodeFrame .dcr1 0 ⟨.singleWrite, 0, 0x41, 0x101, 0x95, 0x1FFFFFFFF⟩
        = [0x20, 0x80, 0x95, 0xFF, 0xFF, 0xFF, 0xFF] := by decide
/-- K3 and K6: the data is halved whatever the mode, the register field comes back as received. -/
theorem test_decode_shifts_data :
    decodeFrame .sc1 1 0 [0x42, 0x80, 0x6A, 0, 0, 0, 0, 0x16, 0xC1, 0x26, 0xEC]
        = some ⟨.singleRead, 0, 5, 0, 0x6A, 0x0B609376⟩
      ∧ decodeFrame .dcr1 1 0 [0, 0, 0, 0xFF, 0xFF, 0xFF, 0xFF] = some ⟨.singleWrite, 0, 0, 0, 0, 0x7FFFFFFF⟩ := by
  decide

/-! ## The frames -/

/-- T1: the calls of the first write after reset; the register has not changed yet. -/
theorem test_wr64_starts :
    shows (exec (.wr64 5 9 0x2A 0x0123456789ABCDEF) (onBoard .sc1 0 .calDone)) (fun t => (t.trace, t.csOf 0, t.regs))
      = some ([.muxSet .asic, .csAssert 0,
          .xferStart 0 [0x02, 0x84, 0xAA, 0x01, 0x23, 0x45, 0x67, 0x89, 0xAB, 0xCD, 0xEF]], true, []) := by decide
/-- T2: the write lands in its one register. -/
theorem test_wr64_lands :
    shows (step (flying .sc1 (.wr64 3 9 0x0A 0x0123456789ABCDEF)))
      (fun t => (t.regs, t.inflight.isSome, t.csOf 0))
      = some ([(regKey 0 3 9 0x0A, 0x0123456789ABCDEF)], false, false) := by decide
/-- U4: a write that fails physically leaves its register alone and frees the bus. -/
theorem test_lost_write :
    shows (step { flying .sc1 (.wr64 3 9 0x0A 1) with pending := [.move (.env .backendLost)] })
      (fun t => (t.regs, t.inflight.isSome, t.csOf 0)) = some ([], false, false) := by decide
/-- R367: a board without supply takes nothing. -/
theorem test_unpowered_board_takes_nothing :
    shows (step { flying .sc1 (.wr64 3 9 0x0A 1) with hw := [] })
      (fun t => (t.regs, t.inflight.isSome, t.csOf 0, t.trace))
      = some ([], false, false, [.landed 0 (encode (.wr64 3 9 0x0A 1)) false]) := by decide
/-- E2's bytes as the started write. -/
theorem test_wr32_starts :
    shows (exec (.wr32 5 9 0x2A 0x89ABCDEF) (onBoard .dcr1 0 .calDone)) (fun t => t.inflight)
      = some (some ⟨0, [0x02, 0x84, 0xAA, 0x89, 0xAB, 0xCD, 0xEF]⟩) := by decide
theorem test_wr32_lands :
    shows (step (flying .dcr1 (.wr32 2 127 0x20 0x64EE1000))) (fun t => t.regs)
      = some [(regKey 0 2 127 0x20, 0x64EE1000)] := by decide
/-- T3: the data of a read, the chip-select released. -/
theorem test_rd64_reads :
    shows (exec (.rd64 5 9 0x2A 0) { ready .sc1 0 0 [raw 0x0123456789ABCDEF] with mux := .asic })
      (fun t => (t.result, t.f.data, t.csOf 0)) = some (.transferred (some 0x0123456789ABCDEF), 0x0123456789ABCDEF, false) := by
  decide
/-- T6: a back-end timeout is `Busy` and leaves `f.data` as it was. -/
theorem test_rd64_times_out :
    shows (exec (.rd64 5 9 0x2A 0) (ready .sc1 0 0 [none])) (fun t => (t.result, t.f.data, t.inflight.isSome))
      = some (.err ⟨.busy, .nothing⟩, 0, false) := by decide
/-- T8: through the erratum. The register field 0x54 is already the shifted one. -/
theorem test_rd32_reads_through_the_erratum :
    shows (exec (.rd32 1 1 0x54 0) (ready .dcr1 1 0 [raw 0xC9DC3AEC])) (fun t => (t.result, t.trace.getLast?))
      = some (.transferred (some 0x64EE1D76), some (.xferSync 0 [0x40, 0x80, 0xD4, 0, 0, 0, 0]
          (some [0xAB, 0xCD, 0xEF, 0xC9, 0xDC, 0x3A, 0xEC]))) := by decide
/-- The transfer command for T8 sends the same bytes from the plain address 0x2A. -/
theorem test_rd32_as_a_command :
    shows (runCommand (.transfer ⟨1, 0, 1, 1, 0x2A, 0⟩) (ready .dcr1 1 0 [raw 0xC9DC3AEC]))
      (fun t => (t.result, t.txbuf)) = some (.transferred (some 0x64EE1D76), [0x40, 0x80, 0xD4, 0, 0, 0, 0]) := by decide
/-- L2, frame 3: the bytes of a chip-wide write. -/
theorem test_wrc32_starts :
    shows (exec (.wrc32 2 0 0x10 7) (onBoard .dcr1 0 .calDone)) (fun t => t.txbuf)
      = some [0x81, 0x00, 0x10, 0, 0, 0, 7] := by decide
/-- R61: every core of the one chip, first and last core, no other chip. -/
theorem test_wrc32_lands :
    shows (step (flying .dcr1 (.wrc32 2 0 0x10 7)))
      (fun t => (t.regAt 0 2 0 0x10, t.regAt 0 2 127 0x10, t.regAt 0 1 0 0x10, t.regAt 0 3 127 0x10))
      = some (some 7, some 7, none, none) := by decide +kernel
/-- E5's fields in the 64-bit format. -/
theorem test_wrc64_starts :
    shows (exec (.wrc64 3 0 0x10 0xDEADBEEF) (onBoard .sc1 0 .calDone)) (fun t => t.txbuf)
      = some [0x81, 0x80, 0x10, 0, 0, 0, 0, 0xDE, 0xAD, 0xBE, 0xEF] := by decide
theorem test_wrc64_lands :
    shows (step (flying .sc1 (.wrc64 3 0 0x10 7))) (fun t => (t.regAt 0 3 63 0x10, t.regAt 0 2 63 0x10))
      = some (some 7, none) := by decide +kernel
/-- R108: the chip field of a multicast is ignored. -/
theorem test_wra32_lands :
    shows (step { flying .dcr1 (.wra32 0x7F 0 0x10 7) with par := { parS 0 with plat := { Config.exPlat with chips := 2 } } })
      (fun t => (t.regAt 0 0 0 0x10, t.regAt 0 1 127 0x10, t.regAt 1 0 0 0x10)) = some (some 7, some 7, none) := by
  decide +kernel
theorem test_wra32_starts :
    shows (exec (.wra32 0 0 0x24 7) (onBoard .dcr1 0 .calDone)) (fun t => t.txbuf)
      = some [0xC0, 0x00, 0x24, 0, 0, 0, 7] := by decide
/-- E6. -/
theorem test_wra64_starts :
    shows (exec (.wra64 0 0 0x20 0x0B609366) (onBoard .sc1 0 .calDone)) (fun t => t.txbuf)
      = some [0xC0, 0x00, 0x20, 0, 0, 0, 0, 0x0B, 0x60, 0x93, 0x66] := by decide
theorem test_wra64_lands :
    shows (step { flying .sc1 (.wra64 0 0 0x10 7) with par := { parS 0 with plat := { Config.exPlat with chips := 2 } } })
      (fun t => (t.regAt 0 0 63 0x10, t.regAt 0 1 0 0x10, t.regAt 0 2 0 0x10)) = some (some 7, some 7, none) := by
  decide +kernel
/-- Reset then one table word: the frame runs as the first thing after reset. -/
theorem test_fetch_runs_the_word :
    (shows (step (State.reset.withFetchWord 56 0x0284AA89ABCDEF)) fun t => t.inflight.isSome) = some true
      ∧ (shows (step (State.reset.withFetchWord 88 0x0284AA0123456789ABCDEF)) fun t => t.inflight.isSome) = some true := by
  decide

/-! ## Commands -/

/-- T7: an undefined mode touches nothing. -/
theorem test_undefined_mode :
    shows (runCommand (.transfer ⟨4, 0, 5, 9, 0x2A, 1⟩) (flying .sc1 (.wr64 0 0 0 0)))
      (fun t => (t.result, t.trace.length, t.inflight.isSome)) = some (.err ⟨.invalidArgument, .nothing⟩, 0, true) := by
  decide
/-- T5: the wait for the bus expires. -/
theorem test_bus_wait_expires :
    shows (exec (.rd64 5 9 0x2A 0)
        { flying .sc1 (.wr64 3 9 0x0A 1) with waitAnswers := [false], landAnswers := [false] })
      (fun t => (t.result, t.trace, t.csOf 0, t.regs))
      = some (.err ⟨.busy, .nothing⟩, [.csDeassert 0, .csDeassert 1], false, []) := by decide
/-- R63: the data of a write frame is cut to `W` bits before `f` holds it. -/
theorem test_write_data_is_truncated :
    (memWrite 0 3 9 0x0A 0x1FFFFFFFF (onBoard .dcr1 0 .calDone)).2.f.data = 0xFFFFFFFF := by decide
/-- P2, frames 21 to 25: the solution through the erratum. -/
theorem test_read_solution :
    shows (runCommand (.readSolution 0)
        (withJob .dcr1 1 5 [raw 0xFE02, raw 0xC9DC3AEC] .solutionReady 127 [0] [0]))
      (fun t => (t.result, (t.machine 0).jstate, (busFrames t.trace).map Prod.snd))
      = some (.solution 0x64EE1D76 false, .idle,
          [[0x41, 0x40, 0x6A, 0, 0, 0, 0], [0x41, 0x3F, 0xF0, 0, 0, 0, 0], [0x01, 0x3F, 0xB3, 0, 0, 0, 0xFF],
            [0x01, 0x3F, 0xB0, 0, 0, 0, 8], [0x01, 0x3F, 0xB0, 0, 0, 0, 0]]) := by decide
/-- J10: two slots set. -/
theorem test_vector_mismatch :
    shows (runCommand (.readSolution 0) (withJob .sc1 0 1 [raw 0x0003] .solutionReady 0 [] []))
      (fun t => (t.result, (t.machine 0).jstate, (t.machine 0).jerr)) = some (.err ⟨.failure, .ivr 3⟩, .error, .failure) := by
  decide
/-- J8: the line is examined before the deadline. -/
theorem test_wait_poll_line_before_deadline :
    shows (runCommand (.waitPoll 0 true) (withJob .sc1 0 0 [] .awaitingSolution 0 [0b100] []))
      (fun t => (t.result, (t.machine 0).jstate)) = some (.ready, .solutionReady) := by decide
/-- J8: another chip's bit is no answer. -/
theorem test_wait_poll_other_chip :
    shows (runCommand (.waitPoll 0 false) (withJob .sc1 0 0 [] .started 0 [0b001] []))
      (fun t => (t.result, (t.machine 0).jstate, t.trace)) = some (.notYet, .awaitingSolution, [.lines .done 0 1]) := by decide
/-- J14: the board is checked before the chip, the sentinel is no core. -/
theorem test_preload_job_ranges :
    shows (runCommand (.preloadJob 0 JobMachine.initial.job ⟨2, 9, 0, .chipWide⟩) (onBoard .sc1 0 .calDone))
        (fun t => (t.result, (t.machine 0).jstate)) = some (.err ⟨.notFound, .index 2⟩, .error)
      ∧ shows (runCommand (.preloadJob 0 JobMachine.initial.job ⟨0, 3, 0x80, .chipWide⟩) (onBoard .sc1 0 .calDone))
        (fun t => (t.result, (t.machine 0).jstate)) = some (.err ⟨.unsupported, .index 0x80⟩, .error) := by decide
/-- J13: a command that the state does not admit is refused. -/
theorem test_start_in_idle_is_refused :
    runCommand (.startJob 0) (onBoard .sc1 0 .calDone) = .refused .notAdmitted := by rfl
/-- Q12: insane voltages. -/
theorem test_insane_voltages :
    shows (runCommand (.calibrationStep 0 true) { onBoard .dcr1 0 .calPowerUp with saneAnswers := [false] })
      (fun t => (t.trace, (t.board 0).state))
      = some ([.clockEnable 0 false, .supplySetLevel 0 10, .supplyEnable 0 true, .supplySane 0 false,
          .supplyEnable 0 false], .calFailed) := by decide
/-- Q8: with the erratum a bus stuck at one decodes to `ALL_ONES`, and the displaced pattern passes. -/
theorem test_attempt_through_the_erratum :
    (attempt 0 1 (ready .dcr1 1 2 [raw 0xFFFFFFFF])).1 = .ok .clearlyWrong
      ∧ (attempt 0 1 (ready .dcr1 1 2 [raw 0xB4B4B4B4])).1 = .ok .pass := ⟨rfl, rfl⟩
/-- Q6 and Q7: one retry after a near miss. -/
theorem test_near_miss :
    (testChip 0 1 (ready .dcr1 0 4 [raw 0x5A5A5A5B, raw 0x5A5A5A5A])).1 = .ok true
      ∧ (testChip 0 1 (ready .dcr1 0 4 [raw 0x5A5A5A5B, raw 0x00005A5A])).1 = .ok false := ⟨rfl, rfl⟩
/-- R333: what was known of a board is not known when its supply has come on again. -/
theorem test_supply_on_forgets :
    (supplyEnable 0 true { flying .sc1 (.wr64 0 0 0 0) with hw := [], regs := [(regKey 0 1 1 1, 5), (regKey 1 1 1 1, 6)] }).regs
      = [(regKey 1 1 1 1, 6)] := by decide
/-- R41, R249: tuning writes one chip's divider and bias after CalDone, and R35: not while calibration runs. -/
theorem test_tune :
    shows (runMove (.tune 0 3 .d8 10) (onBoard .sc1 0 .calDone))
        (fun t => ((t.board 0).divOf 3, (t.board 0).biasOf 3, (t.board 0).divOf 2)) = some (.d8, 10, .d1)
      ∧ runMove (.tune 0 3 .d8 10) (onBoard .sc1 0 .calSweep) = .refused .noMove := ⟨by decide, by rfl⟩
/-- R41, R327, R345: persistence restores divider and bias before a calibration, and leaves the level. -/
theorem test_restore :
    shows (runMove (.restore 0 1 .d4 0) (onBoard .dcr1 0 .notInitialized))
        (fun t => ((t.board 0).level, (t.board 0).divOf 1, (t.board 0).biasOf 1, (t.board 0).state))
        = some (0, .d4, 0, .notInitialized)
      ∧ runMove (.restore 0 1 .d4 0) (onBoard .dcr1 0 .calDone) = .refused .noMove := ⟨by decide, by rfl⟩
/-- Section 8 of the vectors. -/
theorem test_oscillator_patterns :
    oscPattern Config.exChip .d1 5 = 0x1 ∧ oscPattern Config.exChip .d2 8 = 0x70002
      ∧ oscPattern Config.exChip .d8 0 = 0x1F08 ∧ oscPattern Config.exChip .d4 10 = 0x1F0004
      ∧ oscPattern Config.exChip .d1 4 = 0x101 := by decide
/-- I6: a split pattern, low word first. -/
theorem test_split_pattern :
    oscResult .dcr1 { Config.exChip with ocrSplit := true, ocrFastPos := 40 } 2 3 = .patternPair 2 0x700 := by decide
/-- The vectors' configuration is an admissible one, with and without the erratum. -/
theorem test_example_is_admissible : (parS 0).admissible = true ∧ (parS 1).admissible = true := by decide +kernel
/-- A register address used twice, or a startup pattern that the erratum cannot bring back, is not. -/
theorem test_inadmissible_configurations :
    chipAdmissible .sc1 { Config.exChip with reg := { Config.exRegs with lb := 0x10 } } = false
      ∧ chipAdmissible .dcr1 { Config.exChip with shift := 1, ocrbStartup := 0xDA5A5A5A } = false := by decide +kernel

/-! ## The reference engine -/

/-- A core after these writes of engine-control and lower bound, in order. -/
def engineAfter (l : List (BitVec 7 × Word)) : Engine :=
  l.foldl (fun e w => e.write Config.exChip w.1 w.2) Engine.unknown

/-- R79: only both bits clear end the reset; after it nothing is pending and the core is at rest. -/
theorem test_engine_reset :
    (engineAfter [(0x30, 3), (0x30, 1)]).phase = .unknown ∧ (engineAfter [(0x30, 3), (0x30, 1)]).cleared = false
      ∧ (engineAfter [(0x30, 3), (0x30, 0)]).phase = .idle ∧ (engineAfter [(0x30, 3), (0x30, 0)]).cleared = true := by
  decide
/-- R74, R78: the bounds are seen at once, and survive the reset; M is held until valid-data. -/
theorem test_engine_sees_bounds_at_once :
    (engineAfter [(0x30, 3), (0x30, 0), (0x20, 7), (0x10, 9)]).bounds = [(0x20, 7)]
      ∧ (engineAfter [(0x30, 3), (0x30, 0), (0x20, 7), (0x10, 9)]).taken = []
      ∧ (engineAfter [(0x20, 7), (0x10, 9), (0x30, 3), (0x30, 0), (0x30, 4)]).bounds = [(0x20, 7)]
      ∧ (engineAfter [(0x20, 7), (0x10, 9), (0x30, 3), (0x30, 0), (0x30, 4)]).taken = [(0x10, 9)] := by decide
/-- R80, R74: a busy core's job stays, at a second pulse too, whatever is written. -/
theorem test_engine_takes_a_job_once :
    let e := engineAfter [(0x30, 3), (0x30, 0), (0x20, 7), (0x10, 9), (0x30, 4), (0x20, 8), (0x10, 1), (0x30, 0), (0x30, 4)]
    e.phase = .busy ∧ e.bounds = [(0x20, 7)] ∧ e.taken = [(0x10, 9)] := by decide
/-- R81, R83: DONE stays owed through a reset and through a repeated bit, until the next read-complete pulse. -/
theorem test_engine_done_is_withdrawn_by_read_complete :
    let e := ((engineAfter [(0x30, 3), (0x30, 0), (0x30, 4)]).finish (some (0, 5)))
    let again := (e.writeEcr Config.exChip 8).finish none
    e.phase = .ended ∧ e.unacked = some true ∧ e.pending = [(0, 5)]
      ∧ ((e.writeEcr Config.exChip 3).writeEcr Config.exChip 0).unacked = some true
      ∧ (e.writeEcr Config.exChip 8).unacked = some false ∧ (again.writeEcr Config.exChip 8).unacked = some true
      ∧ ((again.writeEcr Config.exChip 0).writeEcr Config.exChip 8).unacked = some false := by decide
/-- R81: a clear sample of DONE settles what was not known, and ends no recorded finish. -/
theorem test_engine_clear_sample :
    let p := parS 0
    (Engine.observe p 0 1 5 Engine.unknown (.lines .done 0 0)).unacked = some false
      ∧ (Engine.observe p 0 1 5 (Engine.unknown.finish none) (.lines .done 0 0)).unacked = some true := by decide
/-- R83: a pulse on a core whose engine-control was not known withdraws DONE at its end, at the latest. -/
theorem test_engine_pulse_on_unknown_control :
    let e := (Engine.unknown.finish none).writeEcr Config.exChip 8
    e.unacked = none ∧ (e.writeEcr Config.exChip 0).unacked = some false
      ∧ ((e.finish none).writeEcr Config.exChip 0).unacked = some true := by decide
/-- R81: a busy core that puts a candidate in its FIFO raises NONCE and is busy still. -/
theorem test_engine_candidate :
    let e := Engine.observe (parS 0) 0 1 5 (engineAfter [(0x30, 3), (0x30, 0), (0x31, 0), (0x30, 4)]) (.candidate 0 1 5 0 9)
    e.phase = .busy ∧ e.pending = [(0, 9)] ∧ e.unacked = none ∧ e.silentNonce Config.exChip = false := by decide
/-- U2: nothing learned before the supply comes on outlives it, and a line sampled without supply tells nothing. -/
theorem test_engine_supply :
    let see (l : List Effect) := l.foldl (Engine.observe (parS 0) 0 1 5) Engine.unknown
    (see [.lines .done 0 0, .supplyEnable 0 true]).unacked = none
      ∧ (see [.supplyEnable 0 false, .lines .done 0 0]).unacked = none
      ∧ (see [.supplyEnable 0 true, .lines .done 0 0, .supplyEnable 0 true]).unacked = some false := by decide

/-! ## Witnesses: for each statement with hypotheses, a state and operands that meet them -/

/-- The target of the witnesses: chip 3 and the last core. -/
def lastCore (v : Variant) (bmode : BMode) : Target := { board := 0, chip := 3, core := v.cores - 1, bmode := bmode }

/-- A job of zeros. -/
def zeroJob : Job := JobMachine.initial.job

theorem witness_DecodeEncodeRoundTrip :
    (Instr.wr32 0x7F 0xFF 0x7F 0xFFFFFFFF).wf = true ∧ (Instr.rd32 0 0 0 0).wf = true
      ∧ (Instr.wrc32 0x7F 0 0x7F 0xFFFFFFFF).wf = true ∧ (Instr.wra32 0x7F 0 0x7F 0xFFFFFFFF).wf = true
      ∧ (Instr.wr64 0x7F 0xFF 0x7F 0xFFFFFFFFFFFFFFFF).wf = true ∧ (Instr.rd64 0x7F 0xFF 0x7F 0).wf = true
      ∧ (Instr.wrc64 0x7F 0 0x7F 0).wf = true ∧ (Instr.wra64 0 0 0 0xFFFFFFFFFFFFFFFF).wf = true := by decide

theorem witness_HeaderByteLayout : (Instr.wr64 0x7F 0xFF 0x7F 0).wf = true ∧ (Instr.wrc32 1 0 0x7F 0).wf = true := by
  decide

theorem witness_DataByteLayout :
    3 < (wireOf (.wr32 1 2 3 0x89ABCDEF)).fmt.dataBytes ∧ 7 < (wireOf (.wr64 1 2 3 0x0123456789ABCDEF)).fmt.dataBytes := by
  decide

theorem witness_CodecDecodeAfterEncode :
    0 ≤ 1 ∧ 1 ≤ 1 ∧ Frame.valid .sc1 ⟨.singleRead, 0, 0x7F, 0xFF, 0x7F, 2 ^ 64 - 1⟩
      ∧ Frame.valid .dcr1 ⟨.multicastWrite, 1, 0x7F, 0, 0x7F, 2 ^ 32 - 1⟩ := by
  unfold Frame.valid; decide

theorem witness_CodecEncodeAfterDecode :
    (decode [0x60, 0, 0x81, 0, 0, 0, 0, 0, 0, 0, 1] = .ok (.rd64 64 1 1 1) ∧ (wireOf (.rd64 64 1 1 1)).fmt = .sc1
      ∧ (Instr.rd64 64 1 1 1).wf = true)
    ∧ (decode [0xC0, 0, 0x7F, 0, 0, 0, 1] = .ok (.wra32 0 0 0x7F 1) ∧ (wireOf (.wra32 0 0 0x7F 1)).fmt = .dcr1
      ∧ (Instr.wra32 0 0 0x7F 1).wf = true)
    ∧ (Frame.valid .dcr1 ⟨.singleRead, 1, 0x7F, 0xFF, 0x40, 2 ^ 32 - 1⟩
      ∧ encodeFrame .dcr1 0 ⟨.singleRead, 1, 0x7F, 0xFF, 0x40, 2 ^ 32 - 1⟩
        = encodeFrame .dcr1 0 ⟨.singleRead, 1, 0x7F, 0xFF, 0x40, 2 ^ 32 - 1⟩) := by
  unfold Frame.valid; decide

theorem witness_EveryBufferDecodes :
    (List.replicate 7 (0xFF : Byte)).length = 7 ∧ (List.replicate 11 (0xFF : Byte)).length = 11
      ∧ (List.replicate 8 (0xFF : Byte)).length ≠ 7 ∧ (List.replicate 8 (0xFF : Byte)).length ≠ 11
      ∧ (Instr.rd32 1 1 1 0).wf = true := by decide

theorem witness_StepRunsDecodedInstr :
    let bytes : List Byte := [0x02, 0x84, 0xAA, 0x89, 0xAB, 0xCD, 0xEF]
    let s := { onBoard .dcr1 0 .calDone with pending := [.frame 0 bytes] }
    let s' := { onBoard .dcr1 0 .calDone with pending := [.frame 1 []] }
    s.pending = .frame 0 bytes :: [] ∧ decode bytes = .ok (.wr32 5 9 0x2A 0x89ABCDEF)
      ∧ s'.pending = .frame 1 [] :: [] ∧ ([] : List Byte).length ≠ 7 ∧ ([] : List Byte).length ≠ 11 := by decide

theorem witness_StepRunsCommandsAndMoves :
    State.reset.pending = []
      ∧ { State.reset with pending := [.command (.jobReset 0)] }.pending = .command (.jobReset 0) :: []
      ∧ { State.reset with pending := [.move (.env (.busUser true))] }.pending = .move (.env (.busUser true)) :: [] := by
  decide

theorem witness_WriteFrameStarts :
    let s := { onBoard .sc1 0 .calDone with f := { State.reset.f with board := 0 } }
    (∀ i ∈ [Instr.wr64 0x7F 0xFF 0x7F 1, .wrc64 1 0 2 3, .wra64 1 0 2 3],
      (wireOf i).mode ≠ .singleRead ∧ s.f.board < s.par.plat.boards ∧ s.variantOf s.f.board = (wireOf i).fmt)
      ∧ busIdle s
      ∧ (∀ i ∈ [Instr.wr32 0x7F 0xFF 0x7F 1, .wrc32 1 0 2 3, .wra32 1 0 2 3],
        (wireOf i).mode ≠ .singleRead ∧ (onBoard .dcr1 0 .calDone).variantOf 0 = (wireOf i).fmt)
      ∧ busIdle (onBoard .dcr1 0 .calDone) := by
  unfold busIdle; decide

theorem witness_ReadFrameCompletes :
    let s := ready .sc1 1 0 [raw 5]
    let s' := ready .dcr1 0 0 [raw 5]
    ((wireOf (.rd64 1 2 3 0)).mode = .singleRead ∧ s.f.board < s.par.plat.boards
      ∧ s.variantOf s.f.board = (wireOf (.rd64 1 2 3 0)).fmt ∧ busIdle s ∧ s.rxAnswers = raw 5 :: [])
    ∧ (wireOf (.rd32 1 2 3 0)).mode = .singleRead ∧ s'.f.board < s'.par.plat.boards
      ∧ s'.variantOf s'.f.board = (wireOf (.rd32 1 2 3 0)).fmt ∧ busIdle s' ∧ s'.rxAnswers = raw 5 :: [] := by
  unfold busIdle; decide

theorem witness_ReadFrameTimesOut :
    let s := ready .sc1 1 0 [none]
    (wireOf (.rd64 1 2 3 0)).mode = .singleRead ∧ s.f.board < s.par.plat.boards
      ∧ s.variantOf s.f.board = (wireOf (.rd64 1 2 3 0)).fmt ∧ busIdle s ∧ s.rxAnswers = none :: [] := by
  unfold busIdle; decide

/-- Board 1 is the last board of the platform; at reset it is of variant SC1. -/
theorem witness_FrameAlwaysCompletes :
    let s := { onBoard .dcr1 0 .calDone with f := { State.reset.f with board := 1 } }
    s.f.board < s.par.plat.boards ∧ s.variantOf s.f.board = (wireOf (.rd64 1 2 3 0)).fmt
      ∧ (onBoard .dcr1 0 .calDone).variantOf 0 = (wireOf (.wra32 0 0 3 0)).fmt := by decide

theorem witness_HeldBusIsWaitedFor :
    let s := { flying .sc1 (.wr64 1 2 3 4) with waitAnswers := [true] }
    let s' := { onBoard .sc1 0 .calDone with otherHolds := true, waitAnswers := [true] }
    s.busHeld = true ∧ s.waitAnswers = true :: [] ∧ s'.busHeld = true ∧ s'.waitAnswers = true :: [] := by decide

theorem witness_ExpiredBusWaitIsBusy :
    let s := { flying .sc1 (.wr64 1 2 3 4) with waitAnswers := [false] }
    s.f.board < s.par.plat.boards ∧ s.variantOf s.f.board = (wireOf (.wr64 1 2 3 4)).fmt ∧ s.busHeld = true
      ∧ s.waitAnswers = false :: [] := by decide

theorem witness_FrameStops :
    let s := { onBoard .dcr1 0 .calDone with f := { State.reset.f with board := 2 } }
    s.par.plat.boards ≤ s.f.board
      ∧ (onBoard .dcr1 0 .calDone).f.board < (onBoard .dcr1 0 .calDone).par.plat.boards
      ∧ (onBoard .dcr1 0 .calDone).variantOf 0 ≠ (wireOf (.wr64 1 2 3 4)).fmt := by decide

theorem witness_FrameChangesOnlyBusState :
    ∃ t, exec (.wra64 0 0 0x10 1) { flying .sc1 (.wr64 1 2 3 4) with waitAnswers := [true] } = .next t := ⟨_, rfl⟩

theorem witness_LandedWriteReachesItsRegisters :
    let s := flying .dcr1 (.wrc32 3 0 0x10 7)
    s.par.plat.chips ≤ 128 ∧ s.pending = .move (.env .backendDone) :: []
      ∧ s.inflight = some ⟨0, encode (.wrc32 3 0 0x10 7)⟩ ∧ decode (encode (.wrc32 3 0 0x10 7)) = .ok (.wrc32 3 0 0x10 7)
      ∧ s.route = .asic ∧ (s.hwOf 0).supplyOn = true ∧ effectGiven s.par (wireOf (.wrc32 3 0 0x10 7)) = true
      ∧ addresses s.par (wireOf (.wrc32 3 0 0x10 7)) 3 127 ∧ ¬ addresses s.par (wireOf (.wrc32 3 0 0x10 7)) 3 128
      ∧ ¬ addresses s.par (wireOf (.wrc32 3 0 0x10 7)) 2 127 :=
  ⟨by decide, rfl, rfl, rfl, rfl, rfl, by decide, show 3 = 3 ∧ 127 < 128 by decide, show ¬(3 = 3 ∧ 128 < 128) by decide,
    show ¬(2 = 3 ∧ 127 < 128) by decide⟩

/-- The wrong route; no supply; and chip 4, one beyond the string. -/
theorem witness_StrayFramesTeachNothing :
    let s := { flying .sc1 (.wr64 4 0 0x10 7) with route := .other }
    let s' := flying .sc1 (.wr64 4 0 0x10 7)
    let s'' := { flying .sc1 (.wr64 4 0 0x10 7) with hw := [] }
    s.pending = .move (.env .backendDone) :: [] ∧ s.inflight = some ⟨0, encode (.wr64 4 0 0x10 7)⟩
      ∧ decode (encode (.wr64 4 0 0x10 7)) = .ok (.wr64 4 0 0x10 7) ∧ s.route ≠ .asic
      ∧ s''.pending = s.pending ∧ s''.inflight = s.inflight ∧ (s''.hwOf 0).supplyOn = false
      ∧ s'.pending = s.pending ∧ s'.inflight = s.inflight ∧ s'.route = .asic ∧ (s'.hwOf 0).supplyOn = true
      ∧ effectGiven s'.par (wireOf (.wr64 4 0 0x10 7)) = false := by decide

/-- The last core of the last chip, on a chip that stores (P5: the chip drives the value one bit to the left). -/
theorem witness_ReadAfterWriteReturnsTheValue :
    let s := ready .dcr1 1 2 [raw 0xC9DC3AEC]
    s.par.plat.chips ≤ 128 ∧ s.between = [] ∧ waitsEnd s 2 ∧ (s.mux = .asic → s.route = .asic)
      ∧ (s.hwOf 0).supplyOn = true
      ∧ effectGiven s.par
          (wireOf (assemble (s.variantOf 0) (s.cfgOf 0).shift (writeFrame (s.variantOf 0) 0 3 127 0x20 0x64EE1D76))) = true
      ∧ s.rxAnswers = some ⟨0xABCDEF, 0xC9DC3AEC⟩ :: []
      ∧ ∃ t, memWrite 0 3 127 0x20 0x64EE1D76 s = (.ok (), t)
        ∧ Assume.storage (fun _ _ _ => True) (land t) 0 3 127 0x20 ⟨0xABCDEF, 0xC9DC3AEC⟩ := by
  refine ⟨by decide, rfl, ⟨[], rfl⟩, by decide, rfl, by decide +kernel, rfl,
    (memWrite 0 3 127 0x20 0x64EE1D76 (ready .dcr1 1 2 [raw 0xC9DC3AEC])).2, rfl, ?_⟩
  intro before after bytes i x _ _ _ _ _ h
  have e : (land (memWrite 0 3 127 0x20 0x64EE1D76 (ready .dcr1 1 2 [raw 0xC9DC3AEC])).2).regAt 0 3 127 0x20
      = some 0x64EE1D76 := by decide +kernel
  cases e.symm.trans h
  decide +kernel

theorem witness_UndefinedModeIsRejected :
    4 ≤ 4 ∧ 3 < 4 ∧ (⟨3, 1, 0x1FF, 0x1FF, 0x1FF, 2 ^ 70⟩ : RawFrame).board < State.reset.par.plat.boards := by decide

theorem witness_TransferIsTheWireFrame :
    (⟨1, 1, 1, 1, 0x2A, 0⟩ : RawFrame).typed? = some ⟨.singleRead, 1, 1, 1, 0x2A, 0⟩
      ∧ (⟨.singleRead, 1, 1, 1, 0x2A, 0⟩ : Frame).board < State.reset.par.plat.boards ∧ State.reset.between = [] := by
  decide

theorem witness_PreloadSkipsTheReservedIndex :
    (regAddresses .sc1 Config.exChip).Nodup ∧ (regAddresses .dcr1 Config.exChip).Nodup
      ∧ bFrame .dcr1 (lastCore .dcr1 .multicast) 0x1E 0 ∈ preloadFrames .dcr1 Config.exChip zeroJob (lastCore .dcr1 .multicast) := by
  decide +kernel

/-- The last chip and the last core of either variant. -/
theorem witness_PreloadJobSucceeds :
    let s := ready .sc1 0 28 []
    let s' := ready .dcr1 1 15 []
    (s.machine 0).jstate = .idle ∧ 0 < s.par.plat.boards ∧ (s.board 0).present = true ∧ 3 < s.par.plat.chips
      ∧ 63 < (s.variantOf 0).cores
      ∧ waitsEnd s (preloadFrames (s.variantOf 0) (s.cfgOf 0) zeroJob (lastCore .sc1 .multicast)).length
      ∧ 127 < (s'.variantOf 0).cores
      ∧ waitsEnd s' (preloadFrames (s'.variantOf 0) (s'.cfgOf 0) zeroJob (lastCore .dcr1 .chipWide)).length :=
  ⟨rfl, by decide, rfl, by decide, by decide, ⟨[], rfl⟩, by decide, ⟨[], rfl⟩⟩

/-- One case of each clause, at its boundary; board 1 is in range and absent. -/
theorem witness_PreloadJobRangeErrors :
    let s := onBoard .sc1 0 .calDone
    (s.machine 0).jstate = .idle ∧ s.par.plat.boards ≤ 2 ∧ (1 < s.par.plat.boards ∧ (s.board 1).present = false)
      ∧ (0 < s.par.plat.boards ∧ (s.board 0).present = true ∧ s.par.plat.chips ≤ 4)
      ∧ 3 < s.par.plat.chips ∧ (s.variantOf 0).cores ≤ 64 := by decide

/-- The platform of the examples with the pre-start check made. -/
def checked (shift : Nat) : Params :=
  { parS shift with plat := { Config.exPlat with verifyPrestart := true } }

/-- Without the check, and with one that finds DONE set for chip 2. -/
theorem witness_StartIsTimedOnTheErratumVariant :
    let s := withJob .dcr1 1 5 [] .preloaded 127 [] []
    let s' := { withJob .dcr1 1 5 [] .preloaded 127 [0b100] [0] with par := checked 1 }
    (s.machine 0).jstate = .preloaded ∧ (s.cfgOf (s.machine 0).tgt.board).shift ≠ 0 ∧ waitsEnd s 5
      ∧ (s'.machine 0).jstate = .preloaded ∧ (s'.cfgOf (s'.machine 0).tgt.board).shift ≠ 0 ∧ waitsEnd s' 5
      ∧ s'.par.plat.verifyPrestart = true ∧ s'.doneAnswers = 0b100 :: [] ∧ s'.nonceAnswers = 0 :: []
      ∧ ((0b100 : ChipBits) &&& chipMask s'.par.plat.chips).getLsbD (s'.machine 0).tgt.chip = true :=
  ⟨rfl, by decide, ⟨[], rfl⟩, rfl, by decide, ⟨[], rfl⟩, rfl, rfl, rfl, by decide⟩

/-- J2: two reads of 0, then done; the pre-start check made and passed, another chip's bit being no concern. -/
theorem witness_StartPollsUntilStatusIsSeen :
    let s := { withJob .sc1 0 8 [raw 0, raw 0xFC, raw 2] .preloaded 63 [0b1000] [0] with par := checked 0 }
    (s.machine 0).jstate = .preloaded ∧ (s.cfgOf (s.machine 0).tgt.board).shift = 0
      ∧ prestartClear s (s.machine 0).tgt ∧ 2 < s.par.plat.nStartPolls ∧ waitsEnd s 8
      ∧ readsAnswer s ([⟨0xABCDEF, 0⟩, ⟨0xABCDEF, 0xFC⟩].map some ++ [raw 2])
      ∧ (∀ rx ∈ [(⟨0xABCDEF, 0⟩ : Rx), ⟨0xABCDEF, 0xFC⟩], decodedRead (s.variantOf (s.machine 0).tgt.board) 0 rx
          &&& ((s.cfgOf (s.machine 0).tgt.board).esrBusy ||| (s.cfgOf (s.machine 0).tgt.board).esrDone) = 0)
      ∧ decodedRead (s.variantOf (s.machine 0).tgt.board) 0 ⟨0xABCDEF, 2⟩
          &&& ((s.cfgOf (s.machine 0).tgt.board).esrBusy ||| (s.cfgOf (s.machine 0).tgt.board).esrDone) ≠ 0 :=
  ⟨rfl, rfl, .inr ⟨0b1000, [], 0, [], rfl, rfl, by decide, by decide⟩, by decide, ⟨[], rfl⟩, ⟨[], rfl⟩, by decide,
    by decide⟩

/-- J3: three polls, none of which shows anything; the pre-start check not made. -/
theorem witness_StartTimesOut :
    let s := { withJob .sc1 0 8 [raw 0, raw 0, raw 0] .preloaded 63 [] [] with
      par := { parS 0 with plat := { Config.exPlat with nStartPolls := 3 } } }
    let unseen : List Rx := List.replicate 3 ⟨0xABCDEF, 0⟩
    (s.machine 0).jstate = .preloaded ∧ (s.cfgOf (s.machine 0).tgt.board).shift = 0
      ∧ prestartClear s (s.machine 0).tgt ∧ unseen.length = s.par.plat.nStartPolls
      ∧ waitsEnd s (5 + s.par.plat.nStartPolls) ∧ readsAnswer s (unseen.map some)
      ∧ ∀ rx ∈ unseen, decodedRead (s.variantOf (s.machine 0).tgt.board) 0 rx
          &&& ((s.cfgOf (s.machine 0).tgt.board).esrBusy ||| (s.cfgOf (s.machine 0).tgt.board).esrDone) = 0 :=
  ⟨rfl, rfl, .inl rfl, rfl, ⟨[], rfl⟩, ⟨[], rfl⟩, by decide⟩

/-- Each clause: a start that ends Started; one whose waits all end; one whose third wait, for S4, expires; and one whose
fourth wait expires, for the first poll and, with the erratum, for the clearing write. -/
theorem witness_StartedMeansDeasserted :
    (∃ t, runCommand (.startJob 0) (withJob .dcr1 1 5 [] .preloaded 127 [] []) = .next t
      ∧ (t.machine 0).jstate = .started)
    ∧ (let s := { withJob .sc1 0 9 [none] .preloaded 63 [] [] with
          par := { parS 0 with plat := { Config.exPlat with nStartPolls := 3 } } }
      (s.machine 0).jstate = .preloaded ∧ waitsEnd s (6 + s.par.plat.nStartPolls))
    ∧ (let s := { withJob .sc1 0 0 [] .preloaded 63 [] [] with waitAnswers := [true, true, false] }
      (s.machine 0).jstate = .preloaded ∧ s.between = [] ∧ busIdle s ∧ prestartClear s (s.machine 0).tgt
        ∧ s.waitAnswers = true :: true :: false :: [])
    ∧ (let s := { withJob .sc1 0 0 [] .preloaded 63 [] [] with waitAnswers := [true, true, true, false] }
      (s.machine 0).jstate = .preloaded ∧ s.between = [] ∧ busIdle s ∧ prestartClear s (s.machine 0).tgt
        ∧ (s.cfgOf (s.machine 0).tgt.board).shift = 0 ∧ 0 < s.par.plat.nStartPolls
        ∧ s.waitAnswers = true :: true :: true :: false :: [])
    ∧ let s := { withJob .dcr1 1 0 [] .preloaded 127 [] [] with waitAnswers := [true, true, true, false] }
      (s.machine 0).jstate = .preloaded ∧ s.between = [] ∧ busIdle s ∧ (s.cfgOf (s.machine 0).tgt.board).shift ≠ 0
        ∧ s.waitAnswers = true :: true :: true :: false :: [] :=
  ⟨⟨_, rfl, rfl⟩, ⟨rfl, ⟨[], rfl⟩⟩, ⟨rfl, rfl, ⟨rfl, rfl⟩, .inl rfl, rfl⟩,
    ⟨rfl, rfl, ⟨rfl, rfl⟩, .inl rfl, rfl, by decide, rfl⟩, rfl, rfl, ⟨rfl, rfl⟩, by decide, rfl⟩

/-- One line or the other has the bit of chip 2. -/
theorem witness_PrestartCheckIsFatal :
    let s := { withJob .sc1 0 3 [] .preloaded 63 [0b100] [0b100] with
      par := { parS 0 with plat := { Config.exPlat with verifyPrestart := true } } }
    (s.machine 0).jstate = .preloaded ∧ (s.cfgOf (s.machine 0).tgt.board).shift = 0 ∧ s.par.plat.verifyPrestart = true
      ∧ waitsEnd s 3 ∧ s.doneAnswers = 0b100 :: [] ∧ s.nonceAnswers = 0b100 :: []
      ∧ ((0b100 : ChipBits) &&& chipMask s.par.plat.chips).getLsbD (s.machine 0).tgt.chip = true :=
  ⟨rfl, rfl, rfl, ⟨[], rfl⟩, rfl, rfl, by decide⟩

/-- The bit set, clear with the deadline reached, clear without; and each outcome of the polls of the blocking form. -/
theorem witness_WaitPollRule :
    (∃ u, (withJob .sc1 0 0 [] .started 0 [0b100] []).machine 0 = machineAt .started 0
      ∧ readLine .done 0 (withJob .sc1 0 0 [] .started 0 [0b100] []) = (0b100, u)
      ∧ (0b100 : ChipBits).getLsbD 2 = true)
    ∧ (∃ u, readLine .done 0 (withJob .sc1 0 0 [] .awaitingSolution 0 [0b011] []) = (0b011, u)
      ∧ (0b011 : ChipBits).getLsbD 2 = false)
    ∧ (∃ u, runCommand (.waitPoll 0 true) (withJob .sc1 0 0 [] .started 0 [0b100] []) = .next u ∧ u.result = .ready)
    ∧ (∃ u, runCommand (.waitPoll 0 true) (withJob .sc1 0 0 [] .started 0 [0] []) = .next u ∧ u.result ≠ .ready)
    ∧ (∃ u, runCommand (.waitPoll 0 false) (withJob .sc1 0 0 [] .started 0 [0b100] []) = .next u ∧ u.result = .ready)
    ∧ ∃ u, runCommand (.waitPoll 0 false) (withJob .sc1 0 0 [] .started 0 [0] []) = .next u ∧ u.result ≠ .ready :=
  ⟨⟨_, rfl, rfl, by decide⟩, ⟨_, rfl, by decide⟩, ⟨_, rfl, rfl⟩, ⟨_, rfl, by decide⟩, ⟨_, rfl, rfl⟩, ⟨_, rfl, by decide⟩⟩

/-- A wrong core with the right slot, and the right core with a wrong slot. -/
theorem witness_VectorMismatchIsFailure :
    let s := withJob .dcr1 1 1 [raw 0x0202] .solutionReady 127 [] []
    let s' := withJob .dcr1 1 1 [raw 0xFE04] .solutionReady 127 [] []
    (s.machine 0).jstate = .solutionReady ∧ waitsEnd s 1 ∧ readsAnswer s [raw 0x0202]
      ∧ (decodedRead (s.variantOf 0) (s.cfgOf 0).shift ⟨0xABCDEF, 0x0202⟩).toNat / 2 ^ (s.cfgOf 0).ivrCoreLo
          % 2 ^ (s.cfgOf 0).ivrCoreWidth ≠ (s.machine 0).tgt.core
      ∧ (s'.machine 0).jstate = .solutionReady ∧ waitsEnd s' 1 ∧ readsAnswer s' [raw 0xFE04]
      ∧ (decodedRead (s'.variantOf 0) (s'.cfgOf 0).shift ⟨0xABCDEF, 0xFE04⟩).toNat / 2 ^ (s'.cfgOf 0).ivrMaskLo
          % 2 ^ (s'.cfgOf 0).ivrMaskWidth ≠ (s'.cfgOf 0).ivrFirstSlot :=
  ⟨rfl, ⟨[], rfl⟩, ⟨[], rfl⟩, by decide, rfl, ⟨[], rfl⟩, ⟨[], rfl⟩, by decide⟩

/-- P2, frames 21 and 22; and J12, the wait of the fourth write expiring. -/
theorem witness_ReadSolutionSucceeds :
    let s := withJob .dcr1 1 5 [raw 0xFE02, raw 0xC9DC3AEC] .solutionReady 127 [0b100] [0]
    let y := decodedRead (s.variantOf (s.machine 0).tgt.board) (s.cfgOf (s.machine 0).tgt.board).shift ⟨0xABCDEF, 0xFE02⟩
    (s.machine 0).jstate = .solutionReady ∧ waitsEnd s 5 ∧ readsAnswer s [raw 0xFE02, raw 0xC9DC3AEC]
      ∧ s.doneAnswers = 0b100 :: [] ∧ s.nonceAnswers = 0 :: []
      ∧ y.toNat / 2 ^ (s.cfgOf 0).ivrCoreLo % 2 ^ (s.cfgOf 0).ivrCoreWidth = (s.machine 0).tgt.core
      ∧ y.toNat / 2 ^ (s.cfgOf 0).ivrMaskLo % 2 ^ (s.cfgOf 0).ivrMaskWidth = (s.cfgOf 0).ivrFirstSlot
      ∧ let s' := { s with waitAnswers := [false] }
        (s'.machine 0).jstate = .solutionReady ∧ s'.between = [] ∧ busIdle s' ∧ s'.waitAnswers = false :: []
          ∧ readsAnswer s' [raw 0xFE02, raw 0xC9DC3AEC] :=
  ⟨rfl, ⟨[], rfl⟩, ⟨[], rfl⟩, rfl, rfl, by decide, by decide, rfl, rfl, ⟨rfl, rfl⟩, rfl, ⟨[], rfl⟩⟩

theorem witness_JobMachinesFollowTheTransitionRelation :
    ∃ t, step { withJob .sc1 0 0 [] .error 0 [] [] with pending := [.command (.jobReset 0)] } = .next t := ⟨_, rfl⟩

theorem witness_JobErrorsEnterError :
    jobOf (.waitPoll 0 true) = some 0
      ∧ ∃ t, runCommand (.waitPoll 0 true) (withJob .sc1 0 0 [] .started 0 [0] []) = .next t
        ∧ t.result = .err ⟨.timeout, .nothing⟩ := ⟨rfl, _, rfl, rfl⟩

/-- Board 0 present and not initialised; board 1 absent; board 2 out of range. -/
theorem witness_CalibrationStart :
    let s := onBoard .dcr1 0 .notInitialized
    0 < s.par.plat.boards ∧ (s.board 0).present = true ∧ (s.board 0).state = .notInitialized
      ∧ (s.board 1).present = false ∧ calTerminal (s.board 1).state = false ∧ s.par.plat.boards ≤ 2 := by decide

theorem witness_CalibrationPowerUp :
    let s := { onBoard .dcr1 0 .calPowerUp with saneAnswers := [true] }
    let s' := { onBoard .sc1 0 .calPowerUp with saneAnswers := [false] }
    0 < s.par.plat.boards ∧ (s.board 0).present = true ∧ (s.board 0).state = .calPowerUp ∧ s.between = []
      ∧ s.saneAnswers = true :: [] ∧ (s'.board 0).state = .calPowerUp ∧ s'.saneAnswers = false :: [] := by decide

theorem witness_CalibrationSettle :
    let s := onBoard .dcr1 0 .calSettle
    0 < s.par.plat.boards ∧ (s.board 0).present = true ∧ (s.board 0).state = .calSettle := by decide

theorem witness_AttemptClassifiesTheReadback :
    waitsEnd (ready .dcr1 1 2 [raw 0xB4B4B4B4]) 2 ∧ readsAnswer (ready .dcr1 1 2 [raw 0xB4B4B4B4]) [raw 0xB4B4B4B4]
      ∧ (0x5A5A5A5A : Word) = decodedRead .dcr1 1 ⟨0xABCDEF, 0xB4B4B4B4⟩ := ⟨⟨[], rfl⟩, ⟨[], rfl⟩, by decide⟩

/-- Each of the four outcomes of a first attempt. -/
theorem witness_ChipTestRetriesOnce :
    (∃ t, attempt 0 1 (ready .dcr1 0 4 [raw 0x5A5A5A5A]) = (.ok .pass, t))
      ∧ (∃ t, attempt 0 1 (ready .dcr1 0 4 [raw 0]) = (.ok .clearlyWrong, t))
      ∧ (∃ t, attempt 0 1 (ready .dcr1 0 4 [raw 1]) = (.ok .nearMiss, t))
      ∧ ∃ t, attempt 0 1 (ready .dcr1 0 4 [none]) = (.error ⟨.busy, .nothing⟩, t) :=
  ⟨⟨_, rfl⟩, ⟨_, rfl⟩, ⟨_, rfl⟩, ⟨_, rfl⟩⟩

/-- The last chip, with the bit clear and with it set. -/
theorem witness_PassMaskAndCountAgree :
    (parS 0).plat.chips ≤ 128 ∧ 3 < (parS 0).plat.chips ∧ calOk (parS 0) BoardCal.initial
      ∧ calOk (parS 0) { BoardCal.initial with pass := 0b1000, awake := 1 }
      ∧ BoardCal.initial.pass.getLsbD 3 = false ∧ (0b1000 : ChipBits).getLsbD 3 = true := by
  refine ⟨by decide, by decide, ⟨by decide, fun i _ => by simp [BoardCal.initial]⟩, ⟨by decide, fun i h => ?_⟩, by decide,
    by decide⟩
  have h4 : 4 ≤ i := h
  by_cases hi : i < 128
  · have : ∀ j : Fin 128, 4 ≤ j.val → (0b1000 : ChipBits).getLsbD j = false := by decide
    exact this ⟨i, hi⟩ h4
  · exact BitVec.getLsbD_of_ge _ _ (by omega)

/-- One case of each clause: all passed, above the floor, at the floor with none, at the floor with some. -/
theorem witness_DecisionAfterASweep :
    let s (awake : Nat) (level : Int) : State :=
      { onBoard .dcr1 0 .calSweep with
        cal := [(0, { BoardCal.initial with present := true, variant := .dcr1, awake := awake, level := level })] }
    (s 4 3).between = [] ∧ ((s 4 3).board 0).awake = (s 4 3).par.plat.chips
      ∧ (3 : Int) = max (s 4 3).par.plat.levelFloor (((s 4 3).board 0).level - (s 4 3).par.plat.levelMargin)
      ∧ (((s 3 4).board 0).awake ≠ (s 3 4).par.plat.chips ∧ (s 3 4).par.plat.levelFloor < ((s 3 4).board 0).level
        ∧ (3 : Int) = ((s 3 4).board 0).level - 1)
      ∧ (((s 0 3).board 0).level ≤ (s 0 3).par.plat.levelFloor ∧ ((s 0 3).board 0).awake = 0
        ∧ ((s 0 3).board 0).awake ≠ (s 0 3).par.plat.chips)
      ∧ ((s 3 3).board 0).level ≤ (s 3 3).par.plat.levelFloor ∧ ((s 3 3).board 0).awake ≠ 0
        ∧ ((s 3 3).board 0).awake ≠ (s 3 3).par.plat.chips := by decide

/-- Q1, sweep 1: level 10 against the thresholds 10, 8, 9, 7. -/
theorem witness_SweepMarksTheChipsAboveThreshold :
    let th : Nat → Int := fun k => [10, 8, 9, 7].getD k 0
    let c : BoardCal := { BoardCal.initial with present := true, variant := .dcr1, state := .calSweep, level := 10 }
    let s : State := { ready .dcr1 0 8 ((List.range 4).map (thresholdAnswer .dcr1 Config.exChip th 10)) with
      cal := [(0, c)] }
    s.par.plat.chips ≤ 128 ∧ chipAdmissible (s.variantOf 0) (s.cfgOf 0) = true ∧ calOk s.par (s.board 0)
      ∧ waitsEnd s (2 * s.par.plat.chips)
      ∧ readsAnswer s ((List.range s.par.plat.chips).map
          (thresholdAnswer (s.variantOf 0) (s.cfgOf 0) th (s.board 0).level)) := by
  refine ⟨by decide, by decide +kernel, ⟨rfl, fun i _ => ?_⟩, ⟨[], rfl⟩, ⟨[], rfl⟩⟩
  exact BitVec.getLsbD_zero

/-- A string of one chip, so that the sequence is short. -/
def oneChip (c : CalState) (d n : ChipBits) : State :=
  { onBoard .sc1 0 c with
    waitAnswers := List.replicate 34 true
    par := { parS 0 with plat := { Config.exPlat with chips := 1 } }, doneAnswers := d :: [0], nonceAnswers := n :: [0] }

/-- Whether a result is a success. -/
def okRes (r : Res Unit) : Bool :=
  match r.1 with
  | .ok _ => true
  | .error _ => false

theorem okRes_true (r : Res Unit) (h : okRes r = true) : ∃ u, r = (.ok (), u) := by
  obtain ⟨_ | _, u⟩ := r
  · simp [okRes] at h
  · exact ⟨u, rfl⟩

theorem okRes_false (r : Res Unit) (h : okRes r = false) : ∃ e u, r = (.error e, u) := by
  obtain ⟨e | _, u⟩ := r
  · exact ⟨e, u, rfl⟩
  · simp [okRes] at h

/-- A board not initialised; and a hand-off whose device initialisation succeeds, and one whose lines are not clear. -/
theorem witness_CalibrationTerminates :
    let s := onBoard .dcr1 0 .notInitialized
    let s' := oneChip .calInit 0 0
    (s.par.plat.levelFloor ≤ s.par.plat.levelStart ∧ 0 < s.par.plat.boards ∧ (s.board 0).present = true
      ∧ (s.board 0).state = .notInitialized)
    ∧ (0 < s'.par.plat.boards ∧ (s'.board 0).present = true ∧ (s'.board 0).state = .calInit)
    ∧ (∃ u, deviceInit 0 s' = (.ok (), u)) ∧ ∃ e u, deviceInit 0 (oneChip .calInit 1 0) = (.error e, u) :=
  ⟨by decide, by decide, okRes_true _ (by decide +kernel), okRes_false _ (by decide +kernel)⟩

theorem witness_LevelStaysBetweenFloorAndStart :
    let c : BoardCal := { BoardCal.initial with present := true, variant := .dcr1, state := .calSettle, level := 3 }
    let s : State := { onBoard .dcr1 0 .calSettle with
      cal := [(0, c)], hw := [(0, { BoardHw.initial with supplyLevel := 3 })]
      pending := [.command (.calibrationStep 0 true)] }
    s.par.plat.levelFloor ≤ s.par.plat.levelStart ∧ 0 ≤ s.par.plat.levelMargin ∧ (∃ t, step s = .next t) ∧ levelOk s 0
      ∧ s.pending = .command (.calibrationStep 0 true) :: [] ∧ (s.board 0).state ≠ .calPowerUp :=
  ⟨by decide, by decide, ⟨_, rfl⟩, fun _ _ => ⟨by decide, by decide, rfl⟩, rfl, by decide⟩

theorem witness_CalibrationStateHasOneOwner :
    (∃ t, step { onBoard .sc1 0 .calDone with pending := [.move (.tune 0 3 .d8 10)] } = .next t)
      ∧ ∃ t, step { onBoard .sc1 0 .notInitialized with pending := [.move (.restore 0 3 .d8 10)] } = .next t :=
  ⟨⟨_, rfl⟩, _, rfl⟩

/-- Line bits of chips that do not exist are no line bits. -/
theorem witness_InitializeDeviceSucceeds :
    let s := oneChip .calDone 0b10 0
    0 < s.par.plat.boards ∧ (s.board 0).present = true ∧ initAdmitted (s.board 0).state = true
      ∧ waitsEnd s (initFrames s 0).length ∧ s.doneAnswers = 0b10 :: [0] ∧ s.nonceAnswers = 0 :: [0]
      ∧ (0b10 : ChipBits) &&& chipMask s.par.plat.chips = 0 ∧ (0 : ChipBits) &&& chipMask s.par.plat.chips = 0
      ∧ s.variantOf 0 = .sc1 ∧ (onBoard .dcr1 1 .calInit).variantOf 0 = .dcr1 :=
  ⟨by decide, rfl, rfl, ⟨[], rfl⟩, rfl, rfl, by decide, by decide, rfl, rfl⟩

theorem witness_InitializeDeviceChecksTheLines :
    let s := oneChip .calDone 0 1
    0 < s.par.plat.boards ∧ (s.board 0).present = true ∧ initAdmitted (s.board 0).state = true
      ∧ waitsEnd s (initFrames s 0).length ∧ s.doneAnswers = 0 :: [0] ∧ s.nonceAnswers = 1 :: [0]
      ∧ (1 : ChipBits) &&& chipMask s.par.plat.chips ≠ 0 :=
  ⟨by decide, rfl, rfl, ⟨[], rfl⟩, rfl, rfl, by decide⟩

/-- Whether two device initialisations in a row both answer `Ok`. -/
def bothOk (s : State) : Bool :=
  match runCommand (.initializeDevice 0) s with
  | .next t =>
    match runCommand (.initializeDevice 0) t with
    | .next u => t.result = .ok ∧ u.result = .ok
    | _ => false
  | _ => false

theorem bothOk_runs (s : State) (h : bothOk s = true) :
    ∃ t, runCommand (.initializeDevice 0) s = .next t ∧ t.result = .ok
      ∧ ∃ u, runCommand (.initializeDevice 0) t = .next u ∧ u.result = .ok := by
  unfold bothOk at h
  split at h
  · rename_i t ht
    split at h
    · rename_i u hu
      have h' := of_decide_eq_true h
      exact ⟨t, ht, h'.1, u, hu, h'.2⟩
    · cases h
  · cases h

/-- The two runs, each answered `Ok`. -/
theorem witness_InitializeDeviceIsIdempotent :
    let s := { oneChip .calDone 0 0 with waitAnswers := List.replicate 68 true }
    s.par.plat.chips ≤ 128 ∧ s.between = [] ∧ (s.mux = .asic → s.route = .asic)
      ∧ ∃ t, runCommand (.initializeDevice 0) s = .next t ∧ t.result = .ok
        ∧ ∃ u, runCommand (.initializeDevice 0) t = .next u ∧ u.result = .ok :=
  ⟨by decide, rfl, by decide, bothOk_runs _ (by decide +kernel)⟩

theorem witness_BuilderProperties :
    ocrOk .sc1 Config.exChip = true ∧ ocrOk .dcr1 { Config.exChip with ocrSplit := true, ocrFastPos := 40 } = true
      ∧ oscPattern Config.exChip .d8 0 = oscPattern Config.exChip .d8 0 := by decide

theorem witness_BuilderDomain :
    (8 = 1 ∨ 8 = 2 ∨ 8 = 4 ∨ 8 = 8) ∧ (-5 : Int) ≤ -5 ∧ (-5 : Int) ≤ 5 ∧ (-5 : Int) ≤ 5 ∧ (5 : Int) ≤ 5
      ∧ ¬((3 = 1 ∨ 3 = 2 ∨ 3 = 4 ∨ 3 = 8) ∧ (-5 : Int) ≤ 0 ∧ (0 : Int) ≤ 5)
      ∧ ¬((1 = 1 ∨ 1 = 2 ∨ 1 = 4 ∨ 1 = 8) ∧ (-5 : Int) ≤ -6 ∧ (-6 : Int) ≤ 5) := by decide

theorem witness_BoardDetectAndReset :
    let s := onBoard .dcr1 0 .calFailed
    0 < s.par.plat.boards ∧ (s.board 0).present = true ∧ s.par.plat.boards ≤ 2 ∧ (s.board 1).present = false := by decide

theorem witness_EveryStepKeepsTheInvariant :
    let s : State := { State.reset with pending := [.command (.boardDetect 0 true .dcr1)] }
    MachineInv s ∧ ∃ t, step s = .next t := by
  refine ⟨⟨by decide, by decide, by decide, by decide, by decide, by decide, fun b => ⟨?_, fun i _ => ?_⟩, fun b h => ?_,
    fun p h => ?_⟩, ⟨_, rfl⟩⟩
  · show BoardCal.initial.awake = countBits BoardCal.initial.pass 4
    decide
  · exact BitVec.getLsbD_zero
  · cases h
  · cases h

theorem witness_ParametersAreConstant :
    ∃ t, step { State.reset with pending := [.command (.encode .sc1 State.reset.f)] } = .next t := ⟨_, rfl⟩

end Sys2Proof.Tests
end

section
/-! Every frame is sent as the three bytes of its header word and then the data bytes of its format
(`encode_eq`). The layout of R91 and R93 is that equation, read byte by byte. -/

namespace Sys2Proof

open Sys2Proof.Machine

/-! ## The bytes of a number -/

/-- Splitting the bytes of a number after the first `m`. -/
theorem beBytes_add (m n x : Nat) : beBytes (m + n) x = beBytes m (x / 256 ^ n) ++ beBytes n x := by
  induction m with
  | zero => simp [beBytes]
  | succ m ih =>
    rw [Nat.succ_add_eq_add_succ, Nat.add_succ]
    simp only [beBytes, ih, List.cons_append, Nat.div_div_eq_div_mul, ← pow_add, Nat.add_comm n m]

/-- The low bytes of a number do not depend on what stands above them. -/
theorem beBytes_mul_pow_add (n h x : Nat) : beBytes n (h * 256 ^ n + x) = beBytes n x := by
  induction n generalizing h with
  | zero => rfl
  | succ n ih =>
    have split : h * 256 ^ (n + 1) + x = h * 256 * 256 ^ n + x := by ring
    simp only [beBytes]
    rw [split, ih]
    congr 1
    apply BitVec.eq_of_toNat_eq
    rw [Nat.add_comm, Nat.add_mul_div_right _ _ (by positivity)]
    simp

/-- A word followed by `n` bytes of data is sent as the bytes of the word and then those of the data. -/
theorem beBytes_append_toNat {w : Nat} (m n : Nat) (h : BitVec w) (d : BitVec (8 * n)) :
    beBytes (m + n) (h ++ d).toNat = beBytes m h.toNat ++ beBytes n d.toNat := by
  have pow : 2 ^ (8 * n) = 256 ^ n := by rw [pow_mul]; norm_num
  have hd : d.toNat < 256 ^ n := pow ▸ d.isLt
  have val : (h ++ d).toNat = h.toNat * 256 ^ n + d.toNat := by
    rw [BitVec.toNat_append, ← Nat.shiftLeft_add_eq_or_of_lt d.isLt, Nat.shiftLeft_eq, pow]
  have high : (h.toNat * 256 ^ n + d.toNat) / 256 ^ n = h.toNat := by
    rw [Nat.add_comm, Nat.add_mul_div_right _ _ (by positivity), Nat.div_eq_of_lt hd, Nat.zero_add]
  rw [val, beBytes_add, high, beBytes_mul_pow_add]

/-- Byte `i` of the `n` bytes of a word, the most significant one first. -/
theorem beBytes_toNat_getElem? {w : Nat} (x : BitVec w) {n i : Nat} (h : i < n) :
    (beBytes n x.toNat)[i]? = some (x.extractLsb' (8 * (n - 1 - i)) 8) := by
  induction n generalizing i with
  | zero => omega
  | succ n ih =>
    cases i with
    | zero =>
      simp only [beBytes, List.getElem?_cons_zero, BitVec.extractLsb', Nat.shiftRight_eq_div_pow]
      simp [pow_mul]
    | succ i =>
      rw [beBytes, List.getElem?_cons_succ, ih (by omega)]
      congr 3
      omega

/-! ## The bytes of a frame -/

/-- The core field a frame is sent with: 0 in the broadcast modes (R97). -/
def Wire.sentCore (w : Wire) : BitVec 8 :=
  if broadcast w.mode then 0 else w.core

/-- The header word a frame is sent with (R92). -/
def Wire.header (w : Wire) : BitVec 24 :=
  headerWord (modeCode w.mode) w.chip w.sentCore w.reg

/-- A well-formed frame is sent with the core field it holds. -/
theorem sentCore_of_wf {i : Instr} (h : i.wf = true) : (wireOf i).sentCore = (wireOf i).core := by
  cases i with
  | wr32 | rd32 | wr64 | rd64 => rfl
  | wrc32 | wra32 | wrc64 | wra64 => exact (eq_of_beq h).symm

theorem beBytes_frameWord32 (m : BitVec 2) (c : BitVec 7) (k : BitVec 8) (r : BitVec 7) (d : BitVec 32) :
    beBytes 7 (frameWord32 m c k r d).toNat
      = beBytes 3 (headerWord m c k r).toNat ++ beBytes 4 (d.setWidth 64).toNat := by
  rw [BitVec.toNat_setWidth_of_le (by decide)]
  exact beBytes_append_toNat 3 4 (headerWord m c k r) d

theorem beBytes_frameWord64 (m : BitVec 2) (c : BitVec 7) (k : BitVec 8) (r : BitVec 7) (d : BitVec 64) :
    beBytes 11 (frameWord64 m c k r d).toNat = beBytes 3 (headerWord m c k r).toNat ++ beBytes 8 d.toNat :=
  beBytes_append_toNat 3 8 (headerWord m c k r) d

/-- R90 to R93 in one equation: a frame is its header word and then the data bytes of its format. -/
theorem encode_eq (i : Instr) :
    encode i = beBytes 3 (wireOf i).header.toNat ++ beBytes (wireOf i).fmt.dataBytes (wireOf i).data.toNat := by
  cases i with
  | wr32 | rd32 | wrc32 | wra32 => exact beBytes_frameWord32 _ _ _ _ _
  | wr64 | rd64 | wrc64 | wra64 => exact beBytes_frameWord64 _ _ _ _ _

/-- Header byte `j` of a frame. -/
theorem encode_header_getElem? (i : Instr) {j : Nat} (h : j < 3) :
    (encode i)[j]? = some ((wireOf i).header.extractLsb' (8 * (2 - j)) 8) := by
  rw [encode_eq, List.getElem?_append_left (by simpa using h), beBytes_toNat_getElem? _ h]

/-- Data byte `j` of a frame. -/
theorem encode_data_getElem? (i : Instr) {j : Nat} (h : j < (wireOf i).fmt.dataBytes) :
    (encode i)[3 + j]? = some ((wireOf i).data.extractLsb' (8 * ((wireOf i).fmt.dataBytes - 1 - j)) 8) := by
  rw [encode_eq, List.getElem?_append_right (by simp), beBytes_length, Nat.add_sub_cancel_left,
    beBytes_toNat_getElem? _ h]

/-! ## The bytes of the header word (R91, R92) -/

/-- The field each bit of the header word belongs to: `H = {mode, chip, core, register}`. -/
theorem headerWord_getLsbD (m : BitVec 2) (c : BitVec 7) (k : BitVec 8) (r : BitVec 7) (i : Nat) :
    (headerWord m c k r).getLsbD i =
      if i < 7 then r.getLsbD i else if i < 15 then k.getLsbD (i - 7)
      else if i < 22 then c.getLsbD (i - 15) else m.getLsbD (i - 22) := by
  simp only [headerWord, BitVec.getLsbD_append]
  grind

theorem headerWord_byte0 (m : BitVec 2) (c : BitVec 7) (k : BitVec 8) (r : BitVec 7) :
    (headerWord m c k r).extractLsb' 16 8 = m ++ c.extractLsb' 1 6 := by
  ext i hi
  simp only [BitVec.getElem_extractLsb', headerWord_getLsbD]
  grind

theorem headerWord_byte1 (m : BitVec 2) (c : BitVec 7) (k : BitVec 8) (r : BitVec 7) :
    (headerWord m c k r).extractLsb' 8 8 = c.extractLsb' 0 1 ++ k.extractLsb' 1 7 := by
  ext i hi
  simp only [BitVec.getElem_extractLsb', headerWord_getLsbD]
  grind

theorem headerWord_byte2 (m : BitVec 2) (c : BitVec 7) (k : BitVec 8) (r : BitVec 7) :
    (headerWord m c k r).extractLsb' 0 8 = k.extractLsb' 0 1 ++ r := by
  ext i hi
  simp only [BitVec.getElem_extractLsb', headerWord_getLsbD]
  grind

/-- Settles O2: the header bytes of `encode_eq`, the core field sent being the one a well-formed frame holds. -/
theorem headerByteLayout : Obligations.HeaderByteLayout := by
  intro i hwf
  have hdr : (wireOf i).header = headerWord (modeCode (wireOf i).mode) (wireOf i).chip (wireOf i).core (wireOf i).reg := by
    rw [Wire.header, sentCore_of_wf hwf]
  refine ⟨?_, ?_, ?_⟩
  · rw [encode_header_getElem? i (by decide), hdr, headerWord_byte0]
  · rw [encode_header_getElem? i (by decide), hdr, headerWord_byte1]
  · rw [encode_header_getElem? i (by decide), hdr, headerWord_byte2]

theorem Variant.width_eq (v : Variant) : v.width = 8 * v.dataBytes := by
  cases v <;> rfl

/-- Settles O3: the data bytes of `encode_eq`, `W` being 8 times the number of data bytes. -/
theorem dataByteLayout : Obligations.DataByteLayout := by
  intro i
  refine ⟨?_, ?_, fun j hj => ?_⟩
  · rw [encode_eq, List.length_append, beBytes_length, beBytes_length]
  · cases (wireOf i).fmt <;> rfl
  · have low : (wireOf i).fmt.width - 8 - 8 * j = 8 * ((wireOf i).fmt.dataBytes - 1 - j) := by
      rw [Variant.width_eq]; omega
    rw [encode_data_getElem? i hj, low]

/-! ## The fields of an assembled frame -/

theorem wireOf_instr32 (m : Mode) (c : BitVec 7) (k : BitVec 8) (r : BitVec 7) (d : BitVec 32) :
    wireOf (instr32 m c k r d) = ⟨.dcr1, m, c, k, r, d.setWidth 64⟩ := by
  cases m <;> rfl

theorem wireOf_instr64 (m : Mode) (c : BitVec 7) (k : BitVec 8) (r : BitVec 7) (d : BitVec 64) :
    wireOf (instr64 m c k r d) = ⟨.sc1, m, c, k, r, d⟩ := by
  cases m <;> rfl

/-- The fields a logical frame is sent with (R95 to R100). -/
theorem wireOf_assemble (v : Variant) (shift : Nat) (f : Frame) :
    wireOf (assemble v shift f) =
      { fmt := v
        mode := f.mode
        chip := BitVec.ofNat 7 f.chip
        core := if broadcast f.mode then 0 else BitVec.ofNat 8 f.core
        reg := if f.mode = .singleRead then BitVec.ofNat 7 (f.reg <<< shift) else BitVec.ofNat 7 f.reg
        data := BitVec.ofNat 64 (f.data % 2 ^ v.width) } := by
  cases v with
  | sc1 =>
    have data : BitVec.ofNat 64 f.data = BitVec.ofNat 64 (f.data % 2 ^ 64) := by
      apply BitVec.eq_of_toNat_eq; simp
    exact (wireOf_instr64 ..).trans (by rw [data]; rfl)
  | dcr1 =>
    have data : (BitVec.ofNat 32 f.data).setWidth 64 = BitVec.ofNat 64 (f.data % 2 ^ 32) := by
      apply BitVec.eq_of_toNat_eq; simp
    exact (wireOf_instr32 ..).trans (by rw [data]; rfl)

/-- Settles O4: the fields of `wireOf_assemble`, read as numbers. -/
theorem coreAndRegisterFields : Obligations.CoreAndRegisterFields := by
  intro v shift f
  rw [wireOf_assemble]
  refine ⟨rfl, rfl, ?_, ?_⟩
  · show (if broadcast f.mode then 0 else BitVec.ofNat 8 f.core).toNat = _
    split
    · rfl
    · exact BitVec.toNat_ofNat _ _
  · show (if f.mode = .singleRead then BitVec.ofNat 7 (f.reg <<< shift) else BitVec.ofNat 7 f.reg).toNat = _
    split
    · rw [BitVec.toNat_ofNat, Nat.shiftLeft_eq]
    · exact BitVec.toNat_ofNat _ _

end Sys2Proof
end

section
/-! The transfer command looks at two things before it acts: the mode (`RawFrame.typed?`) and the board. What
follows is a transfer, which ends with an answer or as `Busy` and in no other way (`transfer_cases`). -/

namespace Sys2Proof

open Sys2Proof.Machine

/-! ## The mode check (R141) -/

theorem typed?_of_undefined {f : RawFrame} (h : 4 ≤ f.mode) : f.typed? = none := by
  have undefined : rawMode? f.mode = none := if_neg (Nat.not_lt.mpr h)
  rw [RawFrame.typed?, undefined, Option.map_none]

/-- The mode check names the mode and leaves the board index alone. -/
theorem typed?_of_defined {f : RawFrame} (h : f.mode < 4) : ∃ g, f.typed? = some g ∧ g.board = f.board := by
  have defined : rawMode? f.mode = some (modeOf (BitVec.ofNat 2 f.mode)) := if_pos h
  rw [RawFrame.typed?, defined, Option.map_some]
  exact ⟨_, rfl, rfl⟩

/-! ## The outcome of a transfer (R147, R148) -/

/-- The three write modes are one transfer. -/
theorem transfer_eq (f : Frame) (s : State) :
    transfer f s =
      if f.mode = .singleRead then (transferRead f s).andThen fun d t => (.ok (some d), t)
      else (transferWrite f s).andThen fun _ t => (.ok none, t) := by
  unfold transfer
  cases f.mode <;> rfl

/-- `Busy` is the one error of a transfer. -/
theorem transfer_cases (f : Frame) (s : State) :
    ∃ t, (∃ d, transfer f s = (.ok d, t)) ∨ transfer f s = (.error raisedBusy, t) := by
  rw [transfer_eq]
  split
  · obtain ⟨t, -, -, ⟨d, done, -⟩ | ⟨busy, -⟩⟩ := transferRead_cases f s
    · exact ⟨t, .inl ⟨some d, by rw [done]; rfl⟩⟩
    · exact ⟨t, .inr (by rw [busy]; rfl)⟩
  · obtain ⟨t, -, -, ⟨started, -⟩ | ⟨busy, -⟩⟩ := transferWrite_cases f s
    · exact ⟨t, .inl ⟨none, by rw [started]; rfl⟩⟩
    · exact ⟨t, .inr (by rw [busy]; rfl)⟩

/-! ## The transfer command (R140, R141) -/

theorem cmdTransfer_of_typed?_none {f : RawFrame} (h : f.typed? = none) (s : State) :
    cmdTransfer f s = .next { s with result := .err ⟨.invalidArgument, .nothing⟩ } := by
  simp only [cmdTransfer, h]

/-- On a board that exists the command returns what the transfer ends with. -/
theorem cmdTransfer_of_typed?_some {f : RawFrame} {g : Frame} (h : f.typed? = some g) {s : State}
    (hb : g.board < s.par.plat.boards) :
    (∀ d t, transfer g s = (.ok d, t) → cmdTransfer f s = .next { t with result := .transferred d })
      ∧ ∀ e t, transfer g s = (.error e, t) → cmdTransfer f s = .next { t with result := .err e } := by
  have onBoard : ¬ s.par.plat.boards ≤ g.board := Nat.not_le.mpr hb
  refine ⟨fun d t ht => ?_, fun e t ht => ?_⟩ <;> simp only [cmdTransfer, h, if_neg onBoard, ht]

/-- Settles O22: an undefined mode stops at the mode check; past it, the board index being one of a board, the
command returns one of the two outcomes of `transfer_cases`. -/
theorem undefinedModeIsRejected : Obligations.UndefinedModeIsRejected := by
  intro f s
  refine ⟨fun undefined => cmdTransfer_of_typed?_none (typed?_of_undefined undefined) s, fun defined hb => ?_⟩
  obtain ⟨g, typed, board⟩ := typed?_of_defined defined
  obtain ⟨onOk, onError⟩ := cmdTransfer_of_typed?_some typed (board.symm ▸ hb)
  obtain ⟨t, ⟨d, done⟩ | busy⟩ := transfer_cases g s
  · exact ⟨_, onOk d t done, .inl ⟨d, rfl⟩⟩
  · exact ⟨_, onError raisedBusy t busy, .inr rfl⟩

end Sys2Proof
end

section
/-! A preload writes assigned registers only, and the reserved M index has no assigned register: that is all of R165.
Its frames go out one by one until a transfer answers `Busy` (`sendAll_cases`): that is R168. -/

namespace Sys2Proof

open Sys2Proof.Machine

/-! ## The register field of a write frame (R98) -/

/-- The erratum shifts the register field of reads alone: a write frame is sent with its address. -/
theorem wireReg_of_write {f : Frame} {r : BitVec 7} (v : Variant) (shift : Nat) (write : f.mode ≠ .singleRead)
    (reg : f.reg = r.toNat) : (wireOf (assemble v shift f)).reg = r := by
  rw [wireOf_assemble]
  simp [write, reg]

theorem wireReg_writeFrame (v : Variant) (shift b c k : Nat) (r : BitVec 7) (x : Word) :
    (wireOf (assemble v shift (writeFrame v b c k r x))).reg = r :=
  wireReg_of_write v shift (by simp [writeFrame]) rfl

theorem wireReg_bFrame (v : Variant) (shift : Nat) (t : Target) (r : BitVec 7) (x : Word) :
    (wireOf (assemble v shift (bFrame v t r x))).reg = r := by
  unfold bFrame
  cases t.bmode with
  | chipWide => exact wireReg_of_write v shift (by simp [chipFrame]) rfl
  | multicast => exact wireReg_of_write v shift (by simp [allFrame]) rfl

/-! ## The registers a preload writes (R161 to R167) -/

theorem addrV_mem (c : ChipVariant) {j : Nat} (h : j < 16) : addrV c j ∈ c.reg.v.toList := by
  have inRange : j < c.reg.v.toList.length := by simpa using h
  rw [addrV, List.getD_eq_getElem _ _ inRange]
  exact List.getElem_mem inRange

/-- Every frame of a preload is sent to a register that the controller may write. -/
theorem preloadFrames_reg_mem {v : Variant} {c : ChipVariant} {job : Job} {t : Target} {f : Frame}
    (h : f ∈ preloadFrames v c job t) (shift : Nat) : (wireOf (assemble v shift f)).reg ∈ assignedRegs v c := by
  simp only [preloadFrames, List.mem_append] at h
  obtain ((bounds | m) | vs) | last := h
  · simp only [List.mem_cons, List.not_mem_nil, or_false] at bounds
    obtain rfl | rfl := bounds <;> rw [wireReg_writeFrame] <;> simp [assignedRegs]
  · obtain ⟨i, admitted, rfl⟩ := List.mem_map.mp m
    have assigned := List.mem_map_of_mem (f := addrM v c) admitted
    rw [wireReg_bFrame]
    simp only [assignedRegs, List.mem_append, assigned, or_true, true_or]
  · split at vs
    · obtain ⟨j, inRange, rfl⟩ := List.mem_map.mp vs
      have assigned := addrV_mem c (List.mem_range.mp inRange)
      rw [wireReg_bFrame]
      simp only [assignedRegs, List.mem_append, assigned, true_or]
    · cases vs
  · obtain rfl := List.mem_singleton.mp last
    rw [wireReg_bFrame]
    simp [assignedRegs]

/-! ## The reserved M index (R165) -/

theorem mReserved_lt_mCount (v : Variant) : v.mReserved < v.mCount := by
  cases v <;> decide

/-- The M indices are the reserved one and the admitted ones. -/
theorem range_mCount_perm (v : Variant) : (List.range v.mCount).Perm (v.mReserved :: admittedM v) := by
  have split := List.perm_cons_erase (List.mem_range.mpr (mReserved_lt_mCount v))
  rw [List.nodup_range.erase_eq_filter] at split
  simpa [admittedM, bne, beq_eq_decide] using split

/-- The addresses of the register map are the reserved index's and those of the assigned registers. -/
theorem regAddresses_perm (v : Variant) (c : ChipVariant) :
    (regAddresses v c).Perm (addrM v c v.mReserved :: assignedRegs v c) := by
  have ms := (range_mCount_perm v).map (addrM v c)
  have front := (ms.append_left c.reg.v.toList).trans List.perm_middle
  exact (front.append_right _).append_right _

/-- Where all addresses differ, the reserved index's is the address of no assigned register. -/
theorem addrM_mReserved_not_mem {v : Variant} {c : ChipVariant} (h : (regAddresses v c).Nodup) :
    addrM v c v.mReserved ∉ assignedRegs v c :=
  (List.nodup_cons.mp ((regAddresses_perm v c).nodup h)).1

/-- Settles O25: a preload's frames go to assigned registers, of which the reserved index's is none. -/
theorem preloadSkipsTheReservedIndex : Obligations.PreloadSkipsTheReservedIndex := by
  intro v c job t f distinct sent
  exact ne_of_mem_of_not_mem (preloadFrames_reg_mem sent c.shift) (addrM_mReserved_not_mem distinct)

/-! ## A list of frames sent until the first error (R168) -/

theorem sends_nil (s : State) : sends s s [] := by
  simp [sends, onTheBus]

/-- The frames of two stretches of a run, the configuration of the boards being the same in both. -/
theorem sends_append {s t u : State} {fs gs : List Frame} (same : Inert s t) (first : sends s t fs)
    (second : sends t u gs) : sends s u (fs ++ gs) := by
  unfold sends at *
  rw [second, first, onTheBus_congr same, onTheBus_append, List.append_assoc]

/-- A list of frames is sent up to its first `Busy`, the frame that met it not among them. -/
theorem sendAll_cases (fs : List Frame) (s : State) :
    ∃ t n, Calm s t ∧ sends s t (fs.take n)
      ∧ ((sendAll fs s = (.ok (), t) ∧ n = fs.length) ∨ (sendAll fs s = (.error raisedBusy, t) ∧ n < fs.length)) := by
  induction fs generalizing s with
  | nil => exact ⟨s, 0, Calm.refl s, sends_nil s, .inl ⟨rfl, rfl⟩⟩
  | cons f fs ih =>
    obtain ⟨t, calm, -, ⟨started, one⟩ | ⟨busy, unsent⟩⟩ := transferWrite_cases f s
    · have continues : sendAll (f :: fs) s = sendAll fs t := by rw [sendAll, started]; rfl
      obtain ⟨u, n, calm', more, outcome⟩ := ih t
      rw [continues]
      refine ⟨u, n + 1, calm.trans calm', sends_append calm.inert one more, ?_⟩
      simpa using outcome
    · have stops : sendAll (f :: fs) s = (.error raisedBusy, t) := by rw [sendAll, busy]; rfl
      exact ⟨t, 0, calm, unsent, .inr ⟨stops, Nat.succ_pos _⟩⟩

/-- Settles O26: `sendAll_cases` for the frames of the preload. -/
theorem preloadStopsAtTheFirstError : Obligations.PreloadStopsAtTheFirstError := by
  intro job tgt s
  obtain ⟨t, n, calm, sent, ⟨ok, all⟩ | ⟨busy, fewer⟩⟩ :=
    sendAll_cases (preloadFrames (s.variantOf tgt.board) (s.cfgOf tgt.board) job tgt) s
  · exact ⟨.ok (), t, n, ok, sent, calm.inert.jobs, calm.inert.cal, calm.hw, .inl ⟨rfl, all⟩⟩
  · exact ⟨.error raisedBusy, t, n, busy, sent, calm.inert.jobs, calm.inert.cal, calm.hw, .inr ⟨rfl, fewer⟩⟩

end Sys2Proof
end

section
/-! Encoding and decoding of a frame are inverse because each of their three layers is: the bytes of a number, the
fields of a frame word (`decodeWord32_frameWord32`), and the mode codes (`modeOf_modeCode`). The codec of logical frames
is the same round trip with the fields truncated (R103) and the data displaced (R101). -/

namespace Sys2Proof

open Sys2Proof.Machine

/-! ## The mode codes (R95) -/

theorem modeOf_modeCode (m : Mode) : modeOf (modeCode m) = m := by
  cases m <;> rfl

/-- The four codes fill the field (R106). -/
theorem modeCode_modeOf (c : BitVec 2) : modeCode (modeOf c) = c := by
  revert c; decide

/-! ## The fields of a frame word (R92, R93) -/

theorem headerWord_fields (m : BitVec 2) (c : BitVec 7) (k : BitVec 8) (r : BitVec 7) :
    (headerWord m c k r).extractLsb' 22 2 = m ∧ (headerWord m c k r).extractLsb' 15 7 = c
      ∧ (headerWord m c k r).extractLsb' 7 8 = k ∧ (headerWord m c k r).extractLsb' 0 7 = r := by
  refine ⟨?_, ?_, ?_, ?_⟩ <;>
  · ext i hi
    simp only [BitVec.getElem_extractLsb', headerWord_getLsbD]
    grind

/-- A header word is made of its own fields. -/
theorem headerWord_of_fields (h : BitVec 24) :
    headerWord (h.extractLsb' 22 2) (h.extractLsb' 15 7) (h.extractLsb' 7 8) (h.extractLsb' 0 7) = h := by
  apply BitVec.eq_of_getLsbD_eq
  intro i hi
  simp only [headerWord_getLsbD, BitVec.getLsbD_extractLsb']
  grind

/-- A field above the data of a word is a field of what stands above. -/
theorem extractLsb'_append_high {m n : Nat} (h : BitVec m) (d : BitVec n) (start len : Nat) :
    (h ++ d).extractLsb' (n + start) len = h.extractLsb' start len := by
  ext i hi
  simp only [BitVec.getElem_extractLsb', BitVec.getLsbD_append]
  grind

theorem extractLsb'_append_low {m n : Nat} (h : BitVec m) (d : BitVec n) : (h ++ d).extractLsb' 0 n = d := by
  ext i hi
  simp only [BitVec.getElem_extractLsb', BitVec.getLsbD_append]
  grind

/-- A word is what stands above its low `n` bits, followed by them. -/
theorem append_extractLsb' {m n : Nat} (w : BitVec (m + n)) : w.extractLsb' n m ++ w.extractLsb' 0 n = w := by
  apply BitVec.eq_of_getLsbD_eq
  intro i hi
  simp only [BitVec.getLsbD_append, BitVec.getLsbD_extractLsb']
  grind

theorem decodeWord32_append (h : BitVec 24) (d : BitVec 32) :
    decodeWord32 (h ++ d) = instr32 (modeOf (h.extractLsb' 22 2)) (h.extractLsb' 15 7) (h.extractLsb' 7 8)
      (h.extractLsb' 0 7) d := by
  have high := extractLsb'_append_high h d
  rw [decodeWord32, extractLsb'_append_low, high 22 2, high 15 7, high 7 8, high 0 7]

theorem decodeWord64_append (h : BitVec 24) (d : BitVec 64) :
    decodeWord64 (h ++ d) = instr64 (modeOf (h.extractLsb' 22 2)) (h.extractLsb' 15 7) (h.extractLsb' 7 8)
      (h.extractLsb' 0 7) d := by
  have high := extractLsb'_append_high h d
  rw [decodeWord64, extractLsb'_append_low, high 22 2, high 15 7, high 7 8, high 0 7]

/-- Reading the fields of a frame word gives the fields it was made of. -/
theorem decodeWord32_frameWord32 (m : Mode) (c : BitVec 7) (k : BitVec 8) (r : BitVec 7) (d : BitVec 32) :
    decodeWord32 (frameWord32 (modeCode m) c k r d) = instr32 m c k r d := by
  obtain ⟨hm, hc, hk, hr⟩ := headerWord_fields (modeCode m) c k r
  rw [frameWord32, decodeWord32_append, hm, hc, hk, hr, modeOf_modeCode]

theorem decodeWord64_frameWord64 (m : Mode) (c : BitVec 7) (k : BitVec 8) (r : BitVec 7) (d : BitVec 64) :
    decodeWord64 (frameWord64 (modeCode m) c k r d) = instr64 m c k r d := by
  obtain ⟨hm, hc, hk, hr⟩ := headerWord_fields (modeCode m) c k r
  rw [frameWord64, decodeWord64_append, hm, hc, hk, hr, modeOf_modeCode]

/-- The frame word made of the fields of a word is that word. -/
theorem frameWord32_of_fields (w : BitVec 56) :
    ∃ m c k r d, decodeWord32 w = instr32 m c k r d ∧ frameWord32 (modeCode m) c k r d = w := by
  have whole := append_extractLsb' (m := 24) (n := 32) w
  refine ⟨_, _, _, _, _, by rw [← whole]; exact decodeWord32_append _ _, ?_⟩
  rw [modeCode_modeOf, frameWord32, headerWord_of_fields]
  exact whole

theorem frameWord64_of_fields (w : BitVec 88) :
    ∃ m c k r d, decodeWord64 w = instr64 m c k r d ∧ frameWord64 (modeCode m) c k r d = w := by
  have whole := append_extractLsb' (m := 24) (n := 64) w
  refine ⟨_, _, _, _, _, by rw [← whole]; exact decodeWord64_append _ _, ?_⟩
  rw [modeCode_modeOf, frameWord64, headerWord_of_fields]
  exact whole

/-! ## Instructions and frame words -/

/-- A well-formed frame of format F32 is sent as its frame word. -/
theorem encode_instr32 {m : Mode} {c : BitVec 7} {k : BitVec 8} {r : BitVec 7} {d : BitVec 32}
    (h : (instr32 m c k r d).wf = true) :
    encode (instr32 m c k r d) = beBytes 7 (frameWord32 (modeCode m) c k r d).toNat := by
  cases m with
  | singleWrite | singleRead => rfl
  | chipWideWrite | multicastWrite => obtain rfl : k = 0 := eq_of_beq h; rfl

theorem encode_instr64 {m : Mode} {c : BitVec 7} {k : BitVec 8} {r : BitVec 7} {d : BitVec 64}
    (h : (instr64 m c k r d).wf = true) :
    encode (instr64 m c k r d) = beBytes 11 (frameWord64 (modeCode m) c k r d).toNat := by
  cases m with
  | singleWrite | singleRead => rfl
  | chipWideWrite | multicastWrite => obtain rfl : k = 0 := eq_of_beq h; rfl

/-- Every instruction is its mode with its operands, in its format. -/
theorem instr_cases (i : Instr) :
    (∃ m c k r d, i = instr32 m c k r d) ∨ ∃ m c k r d, i = instr64 m c k r d := by
  cases i with
  | wr32 => exact .inl ⟨.singleWrite, _, _, _, _, rfl⟩
  | rd32 => exact .inl ⟨.singleRead, _, _, _, _, rfl⟩
  | wrc32 => exact .inl ⟨.chipWideWrite, _, _, _, _, rfl⟩
  | wra32 => exact .inl ⟨.multicastWrite, _, _, _, _, rfl⟩
  | wr64 => exact .inr ⟨.singleWrite, _, _, _, _, rfl⟩
  | rd64 => exact .inr ⟨.singleRead, _, _, _, _, rfl⟩
  | wrc64 => exact .inr ⟨.chipWideWrite, _, _, _, _, rfl⟩
  | wra64 => exact .inr ⟨.multicastWrite, _, _, _, _, rfl⟩

/-- The bytes of a word of 56 bits decode as that word. -/
theorem decode_beBytes7 (w : BitVec 56) : decode (beBytes 7 w.toNat) = .ok (decodeWord32 w) := by
  have word : BitVec.ofNat 56 (ofBeBytes (beBytes 7 w.toNat)) = w := by
    rw [ofBeBytes_beBytes, Nat.mod_eq_of_lt (by simpa using w.isLt), BitVec.ofNat_toNat, BitVec.setWidth_eq]
  rw [decode_of_length7 _ (beBytes_length _ _), word]

theorem decode_beBytes11 (w : BitVec 88) : decode (beBytes 11 w.toNat) = .ok (decodeWord64 w) := by
  have word : BitVec.ofNat 88 (ofBeBytes (beBytes 11 w.toNat)) = w := by
    rw [ofBeBytes_beBytes, Nat.mod_eq_of_lt (by simpa using w.isLt), BitVec.ofNat_toNat, BitVec.setWidth_eq]
  rw [decode_of_length11 _ (beBytes_length _ _), word]

/-- Settles O1: a well-formed frame is sent as its frame word, whose fields are the frame's. -/
theorem decodeEncodeRoundTrip : Obligations.DecodeEncodeRoundTrip := by
  intro i hwf
  obtain ⟨m, c, k, r, d, rfl⟩ | ⟨m, c, k, r, d, rfl⟩ := instr_cases i
  · rw [encode_instr32 hwf, decode_beBytes7, decodeWord32_frameWord32]
  · rw [encode_instr64 hwf, decode_beBytes11, decodeWord64_frameWord64]

/-! ## Buffers (R90, R106) -/

/-- The low bytes of the number that a buffer spells are the buffer. -/
theorem beBytes_ofBeBytes_mod {buf : List Byte} {n : Nat} (h : buf.length = n) :
    beBytes n (ofBeBytes buf % 256 ^ n) = buf := by
  have low := beBytes_mul_pow_add n (ofBeBytes buf / 256 ^ n) (ofBeBytes buf % 256 ^ n)
  rw [Nat.div_add_mod'] at low
  rw [← low, ← h, beBytes_ofBeBytes]

theorem encode_length (i : Instr) : (encode i).length = 3 + (wireOf i).fmt.dataBytes :=
  (dataByteLayout i).1

/-- A buffer of 7 bytes is a frame of format F32, the one whose encoding it is if that frame is well formed. -/
theorem decode_length7 {buf : List Byte} (h : buf.length = 7) :
    ∃ i, decode buf = .ok i ∧ (wireOf i).fmt = .dcr1 ∧ (i.wf = true → encode i = buf) := by
  obtain ⟨m, c, k, r, d, fields, word⟩ := frameWord32_of_fields (BitVec.ofNat 56 (ofBeBytes buf))
  refine ⟨_, decode_of_length7 buf h, by rw [fields, wireOf_instr32], fun hwf => ?_⟩
  rw [fields] at hwf ⊢
  rw [encode_instr32 hwf, word, BitVec.toNat_ofNat]
  exact beBytes_ofBeBytes_mod h

theorem decode_length11 {buf : List Byte} (h : buf.length = 11) :
    ∃ i, decode buf = .ok i ∧ (wireOf i).fmt = .sc1 ∧ (i.wf = true → encode i = buf) := by
  obtain ⟨m, c, k, r, d, fields, word⟩ := frameWord64_of_fields (BitVec.ofNat 88 (ofBeBytes buf))
  refine ⟨_, decode_of_length11 buf h, by rw [fields, wireOf_instr64], fun hwf => ?_⟩
  rw [fields] at hwf ⊢
  rw [encode_instr64 hwf, word, BitVec.toNat_ofNat]
  exact beBytes_ofBeBytes_mod h

theorem decode_badLength {buf : List Byte} (h7 : buf.length ≠ 7) (h11 : buf.length ≠ 11) :
    decode buf = .error (.badLength buf.length) := by
  rw [decode, if_neg h7, if_neg h11]

/-- Settles O7: a buffer of either length is the bytes of a frame word, and every frame word has fields. -/
theorem everyBufferDecodes : Obligations.EveryBufferDecodes := by
  intro buf
  refine ⟨?_, decode_badLength⟩
  rintro (h | h)
  · obtain ⟨i, decoded, fmt, back⟩ := decode_length7 h
    exact ⟨i, decoded, by rw [encode_length, fmt, h]; rfl, back⟩
  · obtain ⟨i, decoded, fmt, back⟩ := decode_length11 h
    exact ⟨i, decoded, by rw [encode_length, fmt, h]; rfl, back⟩

/-- A buffer that decodes to a well-formed frame is that frame's encoding. -/
theorem encode_of_decode {buf : List Byte} {i : Instr} (decoded : decode buf = .ok i) (hwf : i.wf = true) :
    encode i = buf := by
  by_cases h : buf.length = 7 ∨ buf.length = 11
  · obtain ⟨j, other, -, back⟩ := (everyBufferDecodes buf).1 h
    obtain rfl : j = i := by simpa [decoded] using other.symm
    exact back hwf
  · rw [not_or] at h
    rw [decode_badLength h.1 h.2] at decoded
    cases decoded

/-- Settles O8: each word's bytes are evaluated. -/
theorem writtenWordsDecode : Obligations.WrittenWordsDecode := by
  refine ⟨?_, ?_, ?_, ?_, ?_, ?_, ?_, ?_⟩ <;> decide

/-! ## The codec of logical frames (R120, R125) -/

/-- What the encoder sends is well formed: the core field is zeroed where it must be (R97). -/
theorem assemble_wf (v : Variant) (shift : Nat) (f : Frame) : (assemble v shift f).wf = true := by
  unfold assemble
  cases v <;> cases f.mode <;> rfl

theorem decode_encodeFrame (v : Variant) (shift : Nat) (f : Frame) :
    decode (encodeFrame v shift f) = .ok (assemble v shift f) :=
  decodeEncodeRoundTrip _ (assemble_wf v shift f)

theorem decodeFrame_of_decode {v : Variant} {buf : List Byte} {i : Instr} (decoded : decode buf = .ok i)
    (fmt : (wireOf i).fmt = v) (shift b : Nat) :
    decodeFrame v shift b buf = some { frameOf b i with data := (wireOf i).data.toNat >>> shift } := by
  simp only [decodeFrame, decoded, fmt, if_true]

theorem two_pow_width_le (v : Variant) : 2 ^ v.width ≤ 2 ^ 64 := by
  cases v <;> decide

/-- The frame that the encoding of `f` decodes to (R127). -/
def rereadFrame (v : Variant) (shift : Nat) (f : Frame) : Frame where
  mode := f.mode
  board := f.board
  chip := f.chip % 2 ^ 7
  core := if broadcast f.mode then 0 else f.core % 2 ^ 8
  reg := if f.mode = .singleRead then f.reg * 2 ^ shift % 2 ^ 7 else f.reg % 2 ^ 7
  data := (f.data % 2 ^ v.width) / 2 ^ shift

theorem decodeFrame_encodeFrame (v : Variant) (shift : Nat) (f : Frame) :
    decodeFrame v shift f.board (encodeFrame v shift f) = some (rereadFrame v shift f) := by
  obtain ⟨fmt, mode, core, reg⟩ := coreAndRegisterFields v shift f
  have chip : (wireOf (assemble v shift f)).chip.toNat = f.chip % 2 ^ 7 := by
    rw [wireOf_assemble]; exact BitVec.toNat_ofNat _ _
  have data : (wireOf (assemble v shift f)).data.toNat = f.data % 2 ^ v.width := by
    rw [wireOf_assemble]
    exact Nat.mod_eq_of_lt (lt_of_lt_of_le (Nat.mod_lt _ (by positivity)) (two_pow_width_le v))
  rw [decodeFrame_of_decode (decode_encodeFrame v shift f) fmt]
  simp only [frameOf, mode, chip, core, reg, data, rereadFrame, Nat.shiftRight_eq_div_pow]

/-- Without the erratum a valid frame is read back as it is. -/
theorem reread_of_valid {v : Variant} {f : Frame} (h : f.valid v) : rereadFrame v 0 f = f := by
  obtain ⟨chip, core, reg, data, zero⟩ := h
  have core0 : (if broadcast f.mode then 0 else f.core % 2 ^ 8) = f.core := by
    split
    · rename_i hb; exact (zero hb).symm
    · exact Nat.mod_eq_of_lt core
  simp only [rereadFrame, core0, pow_zero, Nat.mul_one, Nat.div_one, Nat.mod_eq_of_lt chip, Nat.mod_eq_of_lt reg,
    Nat.mod_eq_of_lt data, ite_self]

/-- A valid frame that the erratum changes: its data bit 0 is lost. -/
def frameDataOne : Frame where
  mode := .singleWrite
  board := 0
  chip := 0
  core := 0
  reg := 0
  data := 1

theorem frameDataOne_valid (v : Variant) : frameDataOne.valid v := by
  cases v <;> exact ⟨by decide, by decide, by decide, by decide, by decide⟩

theorem rereadFrame_frameDataOne (v : Variant) : (rereadFrame v 1 frameDataOne).data = 0 := by
  cases v <;> rfl

/-- Settles O5: `decodeFrame_encodeFrame`; with `SHIFT` 1 the frame `frameDataOne` does not come back. -/
theorem codecDecodeAfterEncode : Obligations.CodecDecodeAfterEncode := by
  refine ⟨decodeFrame_encodeFrame, fun v shift hshift => ⟨fun all => ?_, ?_⟩⟩
  · by_contra nonzero
    obtain rfl : shift = 1 := by omega
    have same := all frameDataOne (frameDataOne_valid v)
    rw [decodeFrame_encodeFrame, Option.some.injEq] at same
    have lost := rereadFrame_frameDataOne v
    rw [same] at lost
    cases lost
  · rintro rfl f valid
    rw [decodeFrame_encodeFrame, reread_of_valid valid]

/-! ## Encoding what a buffer decodes to (R128) -/

/-- The data of a frame lies in the width of its format. -/
theorem wireOf_data_lt (i : Instr) : (wireOf i).data.toNat < 2 ^ (wireOf i).fmt.width := by
  obtain ⟨m, c, k, r, d, rfl⟩ | ⟨m, c, k, r, d, rfl⟩ := instr_cases i
  · rw [wireOf_instr32]
    exact lt_of_eq_of_lt (BitVec.toNat_setWidth_of_le (by decide)) d.isLt
  · rw [wireOf_instr64]
    exact d.isLt

/-- The fields of the frame that is sent for what a well-formed frame was decoded to. -/
theorem wireOf_assemble_frameOf {i : Instr} (hwf : i.wf = true) (b shift : Nat) :
    wireOf (assemble (wireOf i).fmt shift { frameOf b i with data := (wireOf i).data.toNat >>> shift }) =
      { wireOf i with
        reg := if (wireOf i).mode = .singleRead then BitVec.ofNat 7 ((wireOf i).reg.toNat <<< shift) else (wireOf i).reg
        data := (wireOf i).data >>> shift } := by
  have core : (if broadcast (wireOf i).mode then 0 else (wireOf i).core) = (wireOf i).core := sentCore_of_wf hwf
  have small : (wireOf i).data.toNat >>> shift < 2 ^ (wireOf i).fmt.width :=
    lt_of_le_of_lt (Nat.shiftRight_le _ _) (wireOf_data_lt i)
  rw [wireOf_assemble]
  simp only [frameOf, BitVec.ofNat_toNat, BitVec.setWidth_eq, core, Nat.mod_eq_of_lt small, ofNat_shiftRight]

/-- A frame's encoding is told by its fields. -/
theorem encode_congr {i j : Instr} (h : wireOf i = wireOf j) : encode i = encode j := by
  rw [encode_eq, encode_eq, h]

theorem encodeFrame_injective {v : Variant} {f g : Frame} (hf : f.valid v) (hg : g.valid v) (board : f.board = g.board)
    (same : encodeFrame v 0 f = encodeFrame v 0 g) : f = g := by
  have df := decodeFrame_encodeFrame v 0 f
  have dg := decodeFrame_encodeFrame v 0 g
  rw [reread_of_valid hf] at df
  rw [reread_of_valid hg, ← same, ← board, df] at dg
  exact Option.some.inj dg

/-- Under the erratum two reads 64 addresses apart are one frame. -/
theorem encodeFrame_read_collision (v : Variant) {f : Frame} (read : f.mode = .singleRead) :
    encodeFrame v 1 f = encodeFrame v 1 { f with reg := f.reg + 64 } := by
  have shifted : BitVec.ofNat 7 (f.reg <<< 1) = BitVec.ofNat 7 ((f.reg + 64) <<< 1) := by
    apply BitVec.eq_of_toNat_eq
    simp only [BitVec.toNat_ofNat, Nat.shiftLeft_eq]
    omega
  apply encode_congr
  rw [wireOf_assemble, wireOf_assemble]
  simp only [read, shifted, if_true]

/-- Settles O6: `wireOf_assemble_frameOf` with `SHIFT` 0 and 1; the buffer not given back is that of `frameDataOne`. -/
theorem codecEncodeAfterDecode : Obligations.CodecEncodeAfterDecode := by
  refine ⟨?_, ?_, fun v => ?_, fun v f g => encodeFrame_injective, fun v f => encodeFrame_read_collision v⟩
  · rintro v b buf i decoded rfl hwf
    refine ⟨_, decodeFrame_of_decode decoded rfl 0 b, ?_⟩
    rw [← encode_of_decode decoded hwf]
    apply encode_congr
    rw [wireOf_assemble_frameOf hwf]
    simp
  · rintro v b buf i decoded rfl hwf
    refine ⟨_, decodeFrame_of_decode decoded rfl 1 b, ?_, ?_⟩
    · rw [wireOf_assemble_frameOf hwf, BitVec.toNat_ushiftRight, Nat.shiftRight_eq_div_pow, pow_one]
    · rw [wireOf_assemble_frameOf hwf]
      show (if _ then _ else _ : BitVec 7).toNat = _
      split
      · rw [BitVec.toNat_ofNat, Nat.shiftLeft_eq, pow_one]
      · rfl
  · have fmt : (wireOf (assemble v 0 frameDataOne)).fmt = v := (coreAndRegisterFields v 0 frameDataOne).1
    have decoded := decode_encodeFrame v 0 frameDataOne
    refine ⟨_, _, _, decoded, fmt, assemble_wf _ _ _, decodeFrame_of_decode decoded fmt 1 0, fun same => ?_⟩
    have again := congrArg decode same
    rw [decode_encodeFrame, decoded, Except.ok.injEq] at again
    have one : (wireOf (assemble v 0 frameDataOne)).data = 1 := by cases v <;> rfl
    have half := congrArg Wire.data (wireOf_assemble_frameOf (assemble_wf v 0 frameDataOne) 0 1)
    rw [fmt, again, one] at half
    exact absurd (show (1 : Word) = 1 >>> 1 from half) (by decide)

end Sys2Proof
end

section
/-! The pass mask and its count (R236): writing one bit changes the count by what the bit changes (`countBits_setBit`),
and the update writes only a bit that differs. -/

namespace Sys2Proof

open Sys2Proof.Machine

/-! ## One bit of a mask -/

theorem getLsbD_oneBit {ci : Nat} (h : ci < 128) (j : Nat) : (1#128 <<< ci).getLsbD j = decide (j = ci) := by
  rw [BitVec.getLsbD_shiftLeft, BitVec.getLsbD_one]
  by_cases e : j = ci
  · subst e; simp [h]
  · by_cases below : j < ci
    · simp [below, e]
    · have apart : j - ci ≠ 0 := by omega
      simp [apart, e]

/-- Writing one chip's bit writes that bit alone. -/
theorem getLsbD_setBit (p : ChipBits) {ci : Nat} (h : ci < 128) (v : Bool) (j : Nat) :
    (setBit p ci v).getLsbD j = if j = ci then v else p.getLsbD j := by
  have set : (p ||| 1#128 <<< ci).getLsbD j = (p.getLsbD j || decide (j = ci)) := by
    rw [BitVec.getLsbD_or, getLsbD_oneBit h]
  have clear : (p &&& ~~~(1#128 <<< ci)).getLsbD j = (p.getLsbD j && !decide (j = ci)) := by
    rw [BitVec.getLsbD_and, BitVec.getLsbD_not, getLsbD_oneBit h]
    by_cases width : j < 128
    · simp [width]
    · simp [BitVec.getLsbD_of_ge p j (Nat.le_of_not_lt width)]
  cases v with
  | true =>
    rw [setBit, if_pos rfl, set]
    by_cases e : j = ci <;> simp only [e, decide_true, decide_false, Bool.or_true, Bool.or_false, if_true, if_false]
  | false =>
    rw [setBit, if_neg (by decide), clear]
    by_cases e : j = ci <;> simp [e]

/-! ## Counting bits -/

theorem countBits_congr {p q : ChipBits} {n : Nat} (h : ∀ j, j < n → p.getLsbD j = q.getLsbD j) :
    countBits p n = countBits q n := by
  induction n with
  | zero => rfl
  | succ n ih => rw [countBits, countBits, ih fun j hj => h j (by omega), h n (by omega)]

/-- Writing a bit changes the count by what it changes of the bit. -/
theorem countBits_setBit (p : ChipBits) {ci n : Nat} (hn : ci < n) (h : ci < 128) (v : Bool) :
    countBits (setBit p ci v) n + (p.getLsbD ci).toNat = countBits p n + v.toNat := by
  induction n with
  | zero => omega
  | succ n ih =>
    rw [countBits, countBits, getLsbD_setBit p h]
    by_cases e : n = ci
    · subst e
      have below : countBits (setBit p n v) n = countBits p n :=
        countBits_congr fun j hj => by rw [getLsbD_setBit p h, if_neg (by omega)]
      rw [below, if_pos rfl]
      omega
    · have := ih (by omega)
      rw [if_neg e]
      omega

theorem countBits_le (p : ChipBits) (n : Nat) : countBits p n ≤ n := by
  induction n with
  | zero => exact Nat.le_refl 0
  | succ n ih =>
    have bit : (p.getLsbD n).toNat ≤ 1 := Bool.toNat_le _
    rw [countBits]
    omega

theorem countBits_zero (n : Nat) : countBits 0 n = 0 := by
  induction n with
  | zero => rfl
  | succ n ih => rw [countBits, ih]; simp

/-- The mask and the count right after a restart agree. -/
theorem calOk_of_cleared {p : Params} {cal : BoardCal} (pass : cal.pass = 0) (awake : cal.awake = 0) : calOk p cal := by
  refine ⟨?_, fun i _ => ?_⟩
  · rw [awake, pass, countBits_zero]
  · rw [pass]; exact BitVec.getLsbD_zero

/-! ## The update after a chip test (R236) -/

/-- The mask and the count after an update: the chip's bit becomes the outcome, the count moves with it. -/
theorem updatePass_eq (cal : BoardCal) (ci : Nat) (passed : Bool) :
    updatePass cal ci passed =
      { cal with
        pass := if cal.pass.getLsbD ci = passed then cal.pass else setBit cal.pass ci passed
        awake := cal.awake + passed.toNat - (cal.pass.getLsbD ci).toNat } := by
  unfold updatePass
  cases passed <;> cases cal.pass.getLsbD ci <;> simp

theorem updatePass_getLsbD (cal : BoardCal) {ci : Nat} (h : ci < 128) (passed : Bool) (j : Nat) :
    (updatePass cal ci passed).pass.getLsbD j = if j = ci then passed else cal.pass.getLsbD j := by
  rw [updatePass_eq]
  dsimp only
  split
  · rename_i same
    split
    · rename_i e; rw [e, same]
    · rfl
  · exact getLsbD_setBit _ h _ _

theorem updatePass_calOk {p : Params} {cal : BoardCal} {ci : Nat} (passed : Bool) (hc : p.plat.chips ≤ 128)
    (hci : ci < p.plat.chips) (ok : calOk p cal) : calOk p (updatePass cal ci passed) := by
  refine ⟨?_, fun i hi => ?_⟩
  · have moved := countBits_setBit cal.pass hci (by omega) passed
    have count := ok.1
    rw [updatePass_eq]
    dsimp only
    split
    · rename_i same
      rw [same]
      omega
    · omega
  · rw [updatePass_getLsbD _ (by omega), if_neg (by omega)]
    exact ok.2 i hi

/-- Settles O46: the update writes the chip's bit and moves the count with it. -/
theorem passMaskAndCountAgree : Obligations.PassMaskAndCountAgree := by
  intro p cal ci passed hc hci ok
  have after := updatePass_calOk passed hc hci ok
  have awake : (updatePass cal ci passed).awake = cal.awake + passed.toNat - (cal.pass.getLsbD ci).toNat := by
    rw [updatePass_eq]
  refine ⟨after, by rw [after.1]; exact countBits_le _ _, ?_, fun j hj => ?_, fun same => ?_, fun clear set => ?_,
    fun set clear => ?_⟩
  · rw [updatePass_getLsbD _ (by omega), if_pos rfl]
  · rw [updatePass_getLsbD _ (by omega), if_neg hj]
  · rw [updatePass_eq, if_pos same, same, Nat.add_sub_cancel]
  · rw [awake, clear, set]; rfl
  · have moved := countBits_setBit cal.pass hci (by omega) passed
    have count := ok.1
    rw [set, clear] at moved
    rw [awake, set, clear]
    simp at moved ⊢
    omega

end Sys2Proof
end

section
/-! What each part of a command leaves alone. The parts of the job commands and of a sweep are transfers, line samples
and delays: all of them are `Still`. Those of a device initialisation switch the clock besides (`Supplied`). -/

namespace Sys2Proof

open Sys2Proof.Machine

/-- `Calm` steps that wait for no settle of a supply. -/
structure Still (s t : State) : Prop extends Calm s t where
  settles : t.trace.count (.delay .settle) = s.trace.count (.delay .settle)

theorem Still.refl (s : State) : Still s s :=
  ⟨Calm.refl s, rfl⟩

theorem Still.trans {s t u : State} (h : Still s t) (k : Still t u) : Still s u :=
  ⟨h.toCalm.trans k.toCalm, k.settles.trans h.settles⟩

/-! ## Transfers, line samples and delays -/

theorem transferWrite_still (f : Frame) (s : State) : Still s (transferWrite f s).2 := by
  obtain ⟨t, calm, settles, ⟨e, -⟩ | ⟨e, -⟩⟩ := transferWrite_cases f s <;> rw [e] <;> exact ⟨calm, settles⟩

theorem transferRead_still (f : Frame) (s : State) : Still s (transferRead f s).2 := by
  obtain ⟨t, calm, settles, ⟨d, e, -⟩ | ⟨e, -⟩⟩ := transferRead_cases f s <;> rw [e] <;> exact ⟨calm, settles⟩

theorem memRead_still (b c k : Nat) (r : BitVec 7) (s : State) : Still s (memRead b c k r s).2 :=
  transferRead_still _ _

theorem memWrite_still (b c k : Nat) (r : BitVec 7) (x : Word) (s : State) : Still s (memWrite b c k r x s).2 :=
  transferWrite_still _ _

theorem environment_still (s : State) : Still s (environment s) :=
  ⟨environment_calm s, (environment_frame s).settles⟩

/-- Any effect but a settle wait is recorded. -/
theorem emit_still (s : State) {e : Effect} (h : e ≠ .delay .settle) : Still s (s.emit e) := by
  refine ⟨⟨emit_inert s e, rfl⟩, ?_⟩
  rw [State.emit_trace, List.count_append, List.count_singleton, if_neg (by simpa using h), Nat.add_zero]

theorem logMsg_still (m : LogMsg) (s : State) : Still s (logMsg m s) :=
  emit_still s nofun

theorem delay_still {d : Duration} (h : d ≠ .settle) (s : State) : Still s (delay d s) :=
  (environment_still s).trans (emit_still _ fun e => h (Effect.delay.inj e))

theorem drawLine_still (l : Line) (s : State) : Still s (drawLine l s).2 := by
  refine ⟨⟨drawLine_inert l s, ?_⟩, ?_⟩ <;> cases l <;> unfold drawLine <;> dsimp only <;> split <;> rfl

theorem readLine_still (l : Line) (b : Nat) (s : State) : Still s (readLine l b s).2 :=
  ((environment_still s).trans (drawLine_still l _)).trans (emit_still _ nofun)

/-- What the first part keeps, and every continuation, the whole keeps. -/
theorem andThen_still {α β : Type} {s : State} {r : Res α} {k : α → State → Res β} (hr : Still s r.2)
    (hk : ∀ a t, Still t (k a t).2) : Still s (r.andThen k).2 := by
  obtain ⟨e | a, t⟩ := r
  · exact hr
  · exact hr.trans (hk a t)

theorem firstError_still {s : State} {r : Except Raised Unit} {c : Res Unit} (h : Still s c.2) :
    Still s (firstError r c).2 := by
  obtain ⟨e | a, t⟩ := c <;> cases r
  · exact h.trans (logMsg_still _ t)
  · exact h
  · exact h
  · exact h

theorem sendAll_still (fs : List Frame) (s : State) : Still s (sendAll fs s).2 := by
  induction fs generalizing s with
  | nil => exact Still.refl s
  | cons f fs ih => exact andThen_still (transferWrite_still f s) fun _ t => ih t

theorem transfer_still (f : Frame) (s : State) : Still s (transfer f s).2 := by
  rw [transfer_eq]
  split
  · exact andThen_still (transferRead_still f s) fun _ t => Still.refl t
  · exact andThen_still (transferWrite_still f s) fun _ t => Still.refl t

/-! ## Steps that send nothing -/

/-- `Still` steps that send no frame and take no answer of the bus: line samples, log entries and the delays of the job
commands. -/
structure Silent (s t : State) : Prop extends Still s t where
  frames : busFrames t.trace = busFrames s.trace
  wait : t.waitAnswers = s.waitAnswers
  rx : t.rxAnswers = s.rxAnswers

theorem Silent.refl (s : State) : Silent s s :=
  ⟨Still.refl s, rfl, rfl, rfl⟩

theorem Silent.trans {s t u : State} (h : Silent s t) (k : Silent t u) : Silent s u :=
  ⟨h.toStill.trans k.toStill, k.frames.trans h.frames, k.wait.trans h.wait, k.rx.trans h.rx⟩

theorem environment_silent (s : State) : Silent s (environment s) :=
  ⟨environment_still s, (environment_frame s).frames, (environment_frame s).wait, (environment_frame s).rx⟩

/-- An effect recorded that is neither a frame nor a settle wait. -/
theorem emit_silent (s : State) {e : Effect} (frame : busFrames [e] = []) (settle : e ≠ .delay .settle) :
    Silent s (s.emit e) := by
  refine ⟨emit_still s settle, ?_, rfl, rfl⟩
  rw [State.emit_trace, busFrames_append, frame, List.append_nil]

theorem logMsg_silent (m : LogMsg) (s : State) : Silent s (logMsg m s) :=
  emit_silent s rfl nofun

theorem delay_silent {d : Duration} (h : d ≠ .settle) (s : State) : Silent s (delay d s) :=
  (environment_silent s).trans (emit_silent _ rfl fun e => h (Effect.delay.inj e))

theorem drawLine_silent (l : Line) (s : State) : Silent s (drawLine l s).2 := by
  refine ⟨drawLine_still l s, ?_, ?_, ?_⟩ <;> cases l <;> unfold drawLine <;> dsimp only <;> split <;> rfl

theorem readLine_silent (l : Line) (b : Nat) (s : State) : Silent s (readLine l b s).2 :=
  ((environment_silent s).trans (drawLine_silent l _)).trans (emit_silent _ rfl nofun)

/-! ## The parts of a start (R184 to R191) -/

theorem startReset_still (t : Target) (s : State) : Still s (startReset t s).2 :=
  andThen_still (memWrite_still ..) fun _ _ => andThen_still (memWrite_still ..) fun _ _ => memWrite_still ..

/-- The two samples of a line check, in the order given. -/
theorem twoLines_still (l l' : Line) (b : Nat) (s : State) : Still s (readLine l' b (readLine l b s).2).2 :=
  (readLine_still l b s).trans (readLine_still l' b _)

theorem startCheck_still (t : Target) (s : State) : Still s (startCheck t s).2 := by
  have lines := twoLines_still .done .nonce t.board s
  unfold startCheck
  split
  · dsimp only
    split
    · exact lines
    · split
      · exact lines
      · exact lines.trans (logMsg_still _ _)
  · exact Still.refl s

theorem pollEsr_still (t : Target) (n : Nat) (s : State) : Still s (pollEsr t n s).2 := by
  induction n generalizing s with
  | zero => exact Still.refl s
  | succ n ih =>
    refine andThen_still (memRead_still ..) fun x u => ?_
    split
    · exact Still.refl u
    · exact (delay_still (by decide) u).trans (ih _)

theorem startConfirm_still (t : Target) (s : State) : Still s (startConfirm t s).2 := by
  unfold startConfirm
  split
  · exact pollEsr_still t _ s
  · exact delay_still (by decide) s

/-- A first part, and then a clean-up that reports the earlier error. -/
theorem cleanUp_still {s : State} {r : Res Unit} (hr : Still s r.2) {clean : State → Res Unit}
    (hc : ∀ u, Still u (clean u).2) : Still s (firstError r.1 (clean r.2)).2 :=
  firstError_still (hr.trans (hc r.2))

theorem startPulse_still (t : Target) (s : State) : Still s (startPulse t s).2 :=
  cleanUp_still (andThen_still (memWrite_still ..) fun _ u => startConfirm_still t u) fun _ => memWrite_still ..

theorem startSeq_still (t : Target) (s : State) : Still s (startSeq t s).2 :=
  andThen_still (startReset_still t s) fun _ u => andThen_still (startCheck_still t u) fun _ v => startPulse_still t v

/-! ## The parts of a read of the solution (R194 to R201) -/

theorem readVector_still (t : Target) (s : State) : Still s (readVector t s).2 := by
  refine andThen_still (memRead_still ..) fun x u => ?_
  split <;> exact Still.refl u

theorem readComplete_still (t : Target) (s : State) : Still s (readComplete t s).2 :=
  cleanUp_still (andThen_still (memWrite_still ..) fun _ u => delay_still (by decide) u) fun _ => memWrite_still ..

theorem residualCheck_still (t : Target) (s : State) : Still s (residualCheck t s).2 := by
  have lines := twoLines_still .nonce .done t.board s
  unfold residualCheck
  split
  · dsimp only
    split
    · exact lines.trans (logMsg_still _ _)
    · exact lines
  · exact Still.refl s

/-! ## The parts of a chip test (R231 to R235) -/

theorem attempt_still (b ci : Nat) (s : State) : Still s (attempt b ci s).2 :=
  andThen_still (memWrite_still ..) fun _ _ => andThen_still (memRead_still ..) fun _ u => Still.refl u

/-- The log entry of a first error that a retry overcame, where there was one (R237). -/
def loggedRetry (first : Option Raised) (s : State) : State :=
  match first with
  | none => s
  | some e => logMsg (.retriedError e) s

theorem loggedRetry_still (first : Option Raised) (s : State) : Still s (loggedRetry first s) := by
  cases first with
  | none => exact Still.refl s
  | some e => exact logMsg_still _ s

/-- The retry passes exactly when its attempt does. -/
theorem retry_eq (b ci : Nat) (first : Option Raised) (s : State) :
    retry b ci first s = match attempt b ci s with
      | (.ok a, t) => (.ok (decide (a = .pass)), loggedRetry first t)
      | (.error e, t) => (.error e, t) := by
  unfold retry
  obtain ⟨e | a, t⟩ := attempt b ci s
  · rfl
  · cases a <;> rfl

/-- A chip test is one attempt, and the retry where that was neither a pass nor clearly wrong. -/
theorem testChip_eq (b ci : Nat) (s : State) :
    testChip b ci s = match attempt b ci s with
      | (.ok a, t) => if a = .nearMiss then retry b ci none t else (.ok (decide (a = .pass)), t)
      | (.error e, t) => retry b ci (some e) t := by
  unfold testChip
  obtain ⟨e | a, t⟩ := attempt b ci s
  · rfl
  · cases a <;> rfl

theorem retry_still (b ci : Nat) (first : Option Raised) (s : State) : Still s (retry b ci first s).2 := by
  have still := attempt_still b ci s
  rw [retry_eq]
  rcases h : attempt b ci s with ⟨e | a, t⟩ <;> rw [h] at still
  · exact still
  · exact still.trans (loggedRetry_still first t)

theorem testChip_still (b ci : Nat) (s : State) : Still s (testChip b ci s).2 := by
  have still := attempt_still b ci s
  rw [testChip_eq]
  rcases h : attempt b ci s with ⟨e | a, t⟩ <;> rw [h] at still
  · exact still.trans (retry_still b ci _ t)
  · dsimp only
    split
    · exact still.trans (retry_still b ci _ t)
    · exact still

/-! ## Device initialisation (R260 to R270) -/

/-- `Inert` steps that leave every board's supply as it is, though not the hashing clocks, and wait for no settle. -/
structure Supplied (s t : State) : Prop where
  inert : Inert s t
  supplyOn : ∀ b, (t.hwOf b).supplyOn = (s.hwOf b).supplyOn
  supplyLevel : ∀ b, (t.hwOf b).supplyLevel = (s.hwOf b).supplyLevel
  settles : t.trace.count (.delay .settle) = s.trace.count (.delay .settle)

theorem Supplied.trans {s t u : State} (h : Supplied s t) (k : Supplied t u) : Supplied s u :=
  ⟨h.inert.trans k.inert, fun b => (k.supplyOn b).trans (h.supplyOn b),
    fun b => (k.supplyLevel b).trans (h.supplyLevel b), k.settles.trans h.settles⟩

theorem hwOf_congr {s t : State} (h : t.hw = s.hw) (b : Nat) : t.hwOf b = s.hwOf b := by
  rw [State.hwOf, State.hwOf, h]

theorem supplied_of_still {s t : State} (h : Still s t) : Supplied s t :=
  ⟨h.inert, fun b => by rw [hwOf_congr h.hw], fun b => by rw [hwOf_congr h.hw], h.settles⟩

/-- Supply and clock of every board after a clock call. -/
theorem clockEnable_hwOf (b : Nat) (on : Bool) (s : State) (b' : Nat) :
    (clockEnable b on s).hwOf b' = if b' = b then { s.hwOf b with clockOn := on } else s.hwOf b' := by
  have same := hwOf_congr (environment_frame s).hw
  unfold clockEnable
  rw [State.hwOf_emit, same]
  split
  · rename_i e; rw [e, State.hwOf_setHw_same]
  · rename_i e; rw [State.hwOf_setHw_other _ _ _ _ e, same]

theorem clockEnable_supplied (b : Nat) (on : Bool) (s : State) : Supplied s (clockEnable b on s) := by
  have settles : (clockEnable b on s).trace.count (.delay .settle) = s.trace.count (.delay .settle) :=
    (emit_still _ (e := .clockEnable b on) nofun).settles.trans (environment_still s).settles
  refine ⟨clockEnable_inert b on s, fun b' => ?_, fun b' => ?_, settles⟩ <;>
  · rw [clockEnable_hwOf]
    split
    · rename_i e; rw [e]
    · rfl

theorem andThen_supplied {α β : Type} {s : State} {r : Res α} {k : α → State → Res β} (hr : Supplied s r.2)
    (hk : ∀ a t, Supplied t (k a t).2) : Supplied s (r.andThen k).2 := by
  obtain ⟨e | a, t⟩ := r
  · exact hr
  · exact hr.trans (hk a t)

theorem initResetPulse_supplied (b : Nat) (s : State) : Supplied s (initResetPulse b s).2 := by
  refine andThen_supplied ((clockEnable_supplied b true s).trans (supplied_of_still (transferWrite_still _ _))) fun _ t => ?_
  refine andThen_supplied (supplied_of_still ((delay_still (by decide) t).trans (transferWrite_still _ _))) fun _ u => ?_
  exact clockEnable_supplied b false u

theorem initVerify_still (b : Nat) (s : State) : Still s (initVerify b s).2 := by
  have lines := twoLines_still .done .nonce b s
  unfold initVerify
  dsimp only
  split <;> exact lines

theorem initSeq_supplied (b : Nat) (s : State) : Supplied s (initSeq b s).2 := by
  refine andThen_supplied (supplied_of_still (sendAll_still _ s)) fun _ t => ?_
  refine andThen_supplied (initResetPulse_supplied b t) fun _ u => ?_
  refine andThen_supplied (supplied_of_still (sendAll_still _ u)) fun _ v => ?_
  exact (clockEnable_supplied b true v).trans (supplied_of_still (initVerify_still b _))

theorem deviceInit_supplied (b : Nat) (s : State) : Supplied s (deviceInit b s).2 := by
  have seq := initSeq_supplied b s
  unfold deviceInit
  rcases h : initSeq b s with ⟨e | a, t⟩ <;> rw [h] at seq
  · exact seq.trans (clockEnable_supplied b false t)
  · exact seq

end Sys2Proof
end

section
/-! A step takes the head of the queue and runs it. Of the eight frames there is one meaning, a bus transaction whose
outcome becomes the command's result (`exec_of_fits`); it needs a board that exists and has the frame's format. -/

namespace Sys2Proof

open Sys2Proof.Machine

/-! ## The head of the queue (R29, R340) -/

theorem step_of_idle {s : State} (h : s.pending = []) : step s = .next s := by
  simp only [step, fetch, h]

theorem step_of_command {s : State} {c : Command} {rest : List Event} (h : s.pending = .command c :: rest) :
    step s = runCommand c { s with pending := rest } := by
  simp only [step, fetch, h]

theorem step_of_move {s : State} {m : Move} {rest : List Event} (h : s.pending = .move m :: rest) :
    step s = runMove m { s with pending := rest } := by
  simp only [step, fetch, h]

theorem step_of_frame {s : State} {b : Nat} {bytes : List Byte} {rest : List Event} {i : Instr}
    (h : s.pending = .frame b bytes :: rest) (decoded : decode bytes = .ok i) :
    step s = exec i { s with pending := rest, f := { s.f with board := b } } := by
  simp only [step, fetch, h, decoded]

theorem step_of_badFrame {s : State} {b : Nat} {bytes : List Byte} {rest : List Event} {e : DecodeRefusal}
    (h : s.pending = .frame b bytes :: rest) (refused : decode bytes = .error e) :
    step s = .refused (.undecodable bytes.length) := by
  simp only [step, fetch, h, refused]

/-- Settles O9: bytes that decode are executed; bytes of no frame's length do not decode. -/
theorem stepRunsDecodedInstr : Obligations.StepRunsDecodedInstr := by
  intro s b bytes rest h
  exact ⟨fun i decoded => step_of_frame h decoded, fun h7 h11 => step_of_badFrame h (decode_badLength h7 h11)⟩

/-- Settles O10, one kind of event by one. -/
theorem stepRunsCommandsAndMoves : Obligations.StepRunsCommandsAndMoves := by
  intro s
  exact ⟨step_of_idle, fun c rest => step_of_command, fun m rest => step_of_move⟩

/-- All that a step to a next state can be. -/
theorem step_cases {s t : State} (h : step s = .next t) :
    (s.pending = [] ∧ t = s)
      ∨ (∃ b bytes rest i, s.pending = .frame b bytes :: rest ∧ decode bytes = .ok i
          ∧ exec i { s with pending := rest, f := { s.f with board := b } } = .next t)
      ∨ (∃ c rest, s.pending = .command c :: rest ∧ runCommand c { s with pending := rest } = .next t)
      ∨ ∃ m rest, s.pending = .move m :: rest ∧ runMove m { s with pending := rest } = .next t := by
  rcases hp : s.pending with - | ⟨⟨b, bytes⟩ | c | m, rest⟩
  · rw [step_of_idle hp] at h
    cases h
    exact .inl ⟨rfl, rfl⟩
  · rcases decoded : decode bytes with e | i
    · rw [step_of_badFrame hp decoded] at h
      cases h
    · exact .inr (.inl ⟨b, bytes, rest, i, rfl, decoded, step_of_frame hp decoded ▸ h⟩)
  · exact .inr (.inr (.inl ⟨c, rest, rfl, step_of_command hp ▸ h⟩))
  · exact .inr (.inr (.inr ⟨m, rest, rfl, step_of_move hp ▸ h⟩))

/-! ## The result of a command -/

/-- The state after a command, its outcome made the result: a value as `ok` says, an error as it is (R302). -/
def answered {α : Type} (r : Res α) (ok : α → CmdResult) : State :=
  match r with
  | (.ok a, s) => { s with result := ok a }
  | (.error e, s) => { s with result := .err e }

/-- Only the result tells `answered` from the state the outcome comes with. -/
theorem answered_eq {α : Type} (r : Res α) (ok : α → CmdResult) :
    answered r ok = { r.2 with result := (answered r ok).result } := by
  obtain ⟨e | a, s⟩ := r <;> rfl

theorem answered_ok {α : Type} {r : Res α} {a : α} {s : State} (h : r = (.ok a, s)) (ok : α → CmdResult) :
    answered r ok = { s with result := ok a } := by
  rw [h]; rfl

theorem answered_error {α : Type} {r : Res α} {e : Raised} {s : State} (h : r = (.error e, s)) (ok : α → CmdResult) :
    answered r ok = { s with result := .err e } := by
  rw [h]; rfl

/-! ## The eight frames (R105, R121 to R124) -/

theorem exec_eq (i : Instr) (s : State) : exec i s = execWire i s := by
  cases i <;> rfl

theorem runWire_write {i : Instr} (write : (wireOf i).mode ≠ .singleRead) (b : Nat) (s : State) :
    runWire b i s =
      answered (busWrite b (wireOf i).fmt (encode i) (s.setFrame (frameOf b i))) fun _ => .transferred none := by
  cases hm : (wireOf i).mode with
  | singleRead => exact absurd hm write
  | singleWrite | chipWideWrite | multicastWrite =>
    simp only [runWire, hm]
    obtain ⟨e | a, t⟩ := busWrite b (wireOf i).fmt (encode i) (s.setFrame (frameOf b i)) <;> rfl

theorem runWire_read {i : Instr} (read : (wireOf i).mode = .singleRead) (b : Nat) (s : State) :
    runWire b i s =
      answered (busRead b (wireOf i).fmt (s.cfgOf b).shift (encode i) (s.setFrame (frameOf b i)))
        fun d => .transferred (some d) := by
  have cfg : (s.setFrame (frameOf b i)).cfgOf b = s.cfgOf b := rfl
  simp only [runWire, read, cfg]
  obtain ⟨e | a, t⟩ := busRead b (wireOf i).fmt (s.cfgOf b).shift (encode i) (s.setFrame (frameOf b i)) <;> rfl

/-- A frame for a board with a chip-select line, of the board's format, is run (R104, R303). -/
theorem exec_of_fits {i : Instr} {s : State} (board : s.f.board < s.par.plat.boards)
    (fmt : s.variantOf s.f.board = (wireOf i).fmt) : exec i s = .next (runWire s.f.board i s) := by
  rw [exec_eq, execWire, if_neg (Nat.not_le.mpr board), if_neg (not_not.mpr fmt)]

/-- Settles O17: the two checks of `execWire`. -/
theorem frameStops : Obligations.FrameStops := by
  intro i s
  refine ⟨fun none => ?_, fun board other => ?_⟩
  · rw [exec_eq, execWire, if_pos none]
  · rw [exec_eq, execWire, if_neg (Nat.not_le.mpr board), if_pos other]

/-- A frame that has a next state fits its board. -/
theorem exec_next {i : Instr} {s t : State} (h : exec i s = .next t) :
    s.f.board < s.par.plat.boards ∧ s.variantOf s.f.board = (wireOf i).fmt ∧ t = runWire s.f.board i s := by
  rw [exec_eq, execWire] at h
  split at h
  · cases h
  · rename_i board
    split at h
    · cases h
    · rename_i fmt
      cases h
      exact ⟨Nat.not_le.mp board, not_not.mp fmt, rfl⟩

end Sys2Proof
end

section
/-! The command set (table E6), one equation a command: where a state may refuse it, a guard before what it does
(`guarded`); where it names a board, the check that the board is there (`checked`). -/

namespace Sys2Proof

open Sys2Proof.Machine

/-! ## The commands of table E6 that a state may refuse (R304) -/

/-- What a command that a state may refuse does, `t` being the state after it where it is admitted. -/
def guarded (c : Command) (s t : State) : Host.Outcome State Fault Refusal :=
  if admits c s then .next t else .refused .notAdmitted

/-- The state after a command on board `b`: an absent board or one out of range answers `NotFound` (R303). -/
def checked (b : Nat) (s t : State) : State :=
  match checkBoard s b with
  | some e => { s with result := .err e }
  | none => t

theorem checked_of_some {b : Nat} {s : State} {e : Raised} (h : checkBoard s b = some e) (t : State) :
    checked b s t = { s with result := .err e } := by
  rw [checked, h]

theorem checked_of_none {b : Nat} {s : State} (h : checkBoard s b = none) (t : State) : checked b s t = t := by
  rw [checked, h]

theorem guarded_next {c : Command} {s t u : State} (h : guarded c s t = .next u) : admits c s = true ∧ u = t := by
  unfold guarded at h
  split at h
  · rename_i admitted
    cases h
    exact ⟨admitted, rfl⟩
  · cases h

theorem guarded_of_admits {c : Command} {s : State} (h : admits c s = true) (t : State) : guarded c s t = .next t :=
  if_pos h

theorem guarded_refused_iff (c : Command) (s t : State) : guarded c s t = .refused .notAdmitted ↔ admits c s = false := by
  unfold guarded
  cases admits c s <;> simp

theorem runCommand_preloadJob (m : Nat) (job : Job) (tgt : Target) (s : State) :
    runCommand (.preloadJob m job tgt) s = guarded (.preloadJob m job tgt) s (preloadJobBody m job tgt s) := by
  simp [runCommand, cmdPreloadJob, guarded, admits]

/-- The state after an admitted startJob (R184, R192). -/
def startBody (m : Nat) (s : State) : State :=
  finishJob m (startSeq (s.machine m).tgt s) fun _ t => { setJState m .started t with result := .ok }

theorem runCommand_startJob (m : Nat) (s : State) :
    runCommand (.startJob m) s = guarded (.startJob m) s (startBody m s) := by
  simp [runCommand, cmdStartJob, guarded, admits, startBody]

theorem runCommand_waitPoll (m : Nat) (expired : Bool) (s : State) :
    runCommand (.waitPoll m expired) s = guarded (.waitPoll m expired) s (pollBody m expired s) := by
  rfl

theorem runCommand_readSolution (m : Nat) (s : State) :
    runCommand (.readSolution m) s = guarded (.readSolution m) s (readBody m s) := by
  simp [runCommand, cmdReadSolution, guarded, admits]

theorem runCommand_waitAndRead (m n : Nat) (s : State) :
    runCommand (.waitAndReadSolution m n) s = guarded (.waitAndReadSolution m n) s (waitAndRead m n s) := by
  rfl

theorem runCommand_calibrateString (b : Nat) (s : State) :
    runCommand (.calibrateString b) s
      = guarded (.calibrateString b) s (checked b s (calLoop b (calFuel s.par.plat) s)) := by
  have admitted : admits (.calibrateString b) s
      = !decide (b < s.par.plat.boards ∧ (s.board b).state ≠ .notInitialized) := by
    simp only [admits]
    grind
  show cmdCalibrateString b s = _
  unfold cmdCalibrateString guarded checked
  rw [admitted]
  by_cases h : b < s.par.plat.boards ∧ (s.board b).state ≠ .notInitialized
  · simp [h]
  · rw [if_neg h, if_pos (by rw [decide_eq_false h]; rfl)]
    cases checkBoard s b <;> rfl

theorem runCommand_calibrationStep (b : Nat) (settled : Bool) (s : State) :
    runCommand (.calibrationStep b settled) s
      = guarded (.calibrationStep b settled) s (checked b s (calStep b settled s)) := by
  have admitted : admits (.calibrationStep b settled) s
      = !decide (b < s.par.plat.boards ∧ calTerminal (s.board b).state = true) := by
    simp only [admits]
    grind
  show cmdCalibrationStep b settled s = _
  unfold cmdCalibrationStep guarded checked
  rw [admitted]
  by_cases h : b < s.par.plat.boards ∧ calTerminal (s.board b).state = true
  · simp [h]
  · rw [if_neg h, if_pos (by rw [decide_eq_false h]; rfl)]
    cases checkBoard s b <;> rfl

/-- The state after an admitted initializeDevice on a board that is there (R260). -/
def initBody (b : Nat) (s : State) : State :=
  answered (deviceInit b s) fun _ => .ok

theorem runCommand_initializeDevice (b : Nat) (s : State) :
    runCommand (.initializeDevice b) s = guarded (.initializeDevice b) s (checked b s (initBody b s)) := by
  show cmdInitializeDevice b s = _
  unfold cmdInitializeDevice guarded checked initBody answered
  cases h : checkBoard s b with
  | some e => simp [admits, h]
  | none =>
    cases ha : initAdmitted (s.board b).state with
    | false => simp [admits, h, ha]
    | true =>
      obtain ⟨e | a, t⟩ := deviceInit b s <;> simp [admits, h, ha]

/-! ## The commands that every state admits -/

/-- A frame of a defined mode is transferred on a board with a chip-select line (R140, R303). -/
theorem runCommand_transfer {raw : RawFrame} {g : Frame} (typed : raw.typed? = some g) (s : State) :
    runCommand (.transfer raw) s =
      if s.par.plat.boards ≤ g.board then .fault (.noSuchBoard g.board)
      else .next (answered (transfer g s) .transferred) := by
  show cmdTransfer raw s = _
  simp only [cmdTransfer, typed, answered]
  obtain ⟨e | d, t⟩ := transfer g s <;> rfl

theorem runCommand_transfer_next {raw : RawFrame} {s t : State} (h : runCommand (.transfer raw) s = .next t) :
    t = { s with result := .err ⟨.invalidArgument, .nothing⟩ }
      ∨ ∃ g, raw.typed? = some g ∧ t = answered (transfer g s) .transferred := by
  cases typed : raw.typed? with
  | none =>
    change cmdTransfer raw s = _ at h
    rw [cmdTransfer_of_typed?_none typed] at h
    cases h
    exact .inl rfl
  | some g =>
    rw [runCommand_transfer typed] at h
    split at h
    · cases h
    · cases h
      exact .inr ⟨g, rfl, rfl⟩

theorem runCommand_preload (job : Job) (tgt : Target) (s : State) :
    runCommand (.preload job tgt) s =
      if s.par.plat.boards ≤ tgt.board then .fault (.noSuchBoard tgt.board)
      else .next (answered (preload job tgt s) fun _ => .ok) := by
  show cmdPreload job tgt s = _
  simp only [cmdPreload, answered]
  obtain ⟨e | a, t⟩ := preload job tgt s <;> rfl

theorem runCommand_preload_next {job : Job} {tgt : Target} {s t : State}
    (h : runCommand (.preload job tgt) s = .next t) : t = answered (preload job tgt s) fun _ => .ok := by
  rw [runCommand_preload] at h
  split at h
  · cases h
  · cases h
    rfl

theorem runCommand_boardReset (b : Nat) (s : State) :
    runCommand (.boardReset b) s
      = .next (checked b s { s.setBoard b (s.board b).restart with result := .ok }) := by
  show cmdBoardReset b s = _
  unfold cmdBoardReset checked
  cases checkBoard s b <;> rfl

/-- Settles O39: the guarded commands by `guarded_refused_iff`; the others are admitted in every state and stop, if at
all, for another reason. -/
theorem refusedExactlyWhenNotAdmitted : Obligations.RefusedExactlyWhenNotAdmitted := by
  intro c s
  have always (o : Host.Outcome State Fault Refusal) (other : o ≠ .refused .notAdmitted) (admitted : admits c s = true) :
      o = .refused .notAdmitted ↔ admits c s = false := by
    simp [other, admitted]
  cases c with
  | preloadJob m job tgt => rw [runCommand_preloadJob]; exact guarded_refused_iff _ _ _
  | startJob m => rw [runCommand_startJob]; exact guarded_refused_iff _ _ _
  | waitPoll m expired => rw [runCommand_waitPoll]; exact guarded_refused_iff _ _ _
  | readSolution m => rw [runCommand_readSolution]; exact guarded_refused_iff _ _ _
  | waitAndReadSolution m n => rw [runCommand_waitAndRead]; exact guarded_refused_iff _ _ _
  | calibrateString b => rw [runCommand_calibrateString]; exact guarded_refused_iff _ _ _
  | calibrationStep b settled => rw [runCommand_calibrationStep]; exact guarded_refused_iff _ _ _
  | initializeDevice b => rw [runCommand_initializeDevice]; exact guarded_refused_iff _ _ _
  | boardReset b => rw [runCommand_boardReset]; exact always _ nofun rfl
  | encode v f => exact always _ nofun rfl
  | jobReset m => exact always _ nofun rfl
  | buildOscillatorRegister v d bi => exact always _ nofun rfl
  | decode v buf =>
    refine always _ ?_ rfl
    show cmdDecode v buf s ≠ _
    unfold cmdDecode
    split <;> nofun
  | transfer f =>
    refine always _ ?_ rfl
    cases typed : f.typed? with
    | none => rw [show runCommand (.transfer f) s = _ from cmdTransfer_of_typed?_none typed s]; nofun
    | some g => rw [runCommand_transfer typed]; split <;> nofun
  | preload job tgt =>
    refine always _ ?_ rfl
    rw [runCommand_preload]
    split <;> nofun
  | boardDetect b present v =>
    refine always _ ?_ rfl
    show cmdBoardDetect b present v s ≠ _
    unfold cmdBoardDetect
    split <;> nofun

end Sys2Proof
end

section
/-! What one step may change. `Within m b` says it for a step that owns at most one job machine and at most one board:
every other machine's registers, every other board's calibration state and supply level, and the parameters stay, and
the machine's invariant is kept. Every command is within the machine and the board it names (`runCommand_within`). -/

namespace Sys2Proof

open Sys2Proof.Machine

/-- A step that owns machine `m` and board `b`, where they are given. -/
structure Within (m b : Option Nat) (s t : State) : Prop where
  par : t.par = s.par
  machine : ∀ m', m ≠ some m' → t.machine m' = s.machine m'
  board : ∀ b', b ≠ some b' → t.board b' = s.board b'
  supplyLevel : ∀ b', b ≠ some b' → (t.hwOf b').supplyLevel = (s.hwOf b').supplyLevel
  inv : MachineInv s → MachineInv t

section

variable {m b : Option Nat} {s t u : State}

theorem Within.refl (s : State) : Within m b s s :=
  ⟨rfl, fun _ _ => rfl, fun _ _ => rfl, fun _ _ => rfl, id⟩

theorem Within.trans (h : Within m b s t) (k : Within m b t u) : Within m b s u :=
  ⟨k.par.trans h.par, fun i hi => (k.machine i hi).trans (h.machine i hi),
    fun i hi => (k.board i hi).trans (h.board i hi), fun i hi => (k.supplyLevel i hi).trans (h.supplyLevel i hi),
    k.inv ∘ h.inv⟩

/-- What is `Inert` keeps the machine's invariant. -/
theorem machineInv_of_inert (h : Inert s t) (inv : MachineInv s) : MachineInv t where
  platform := by rw [h.par]; exact inv.platform
  memory := h.memory inv.memory
  jobsCanon := by rw [h.jobs]; exact inv.jobsCanon
  calCanon := by rw [h.cal]; exact inv.calCanon
  hwCanon := h.hwCanon inv.hwCanon
  csCanon := h.csCanon inv.csCanon
  calAgree i := by rw [h.board, h.par]; exact inv.calAgree i
  csDiscipline := h.csDiscipline inv.csDiscipline
  powered := h.powered inv.platform inv.powered

theorem within_of_inert (h : Inert s t)
    (level : ∀ b', b ≠ some b' → (t.hwOf b').supplyLevel = (s.hwOf b').supplyLevel) : Within m b s t :=
  ⟨h.par, fun i _ => h.machine i, fun i _ => h.board i, level, machineInv_of_inert h⟩

theorem within_of_supplied (h : Supplied s t) : Within m b s t :=
  within_of_inert h.inert fun b' _ => h.supplyLevel b'

theorem within_of_calm (h : Calm s t) : Within m b s t :=
  within_of_inert h.inert fun b' _ => by rw [hwOf_congr h.hw]

theorem within_of_still (h : Still s t) : Within m b s t :=
  within_of_calm h.toCalm

/-- An update of fields that no clause of the invariant speaks of. -/
theorem within_of_fields (par : t.par = s.par) (jobs : t.jobs = s.jobs) (cal : t.cal = s.cal) (hw : t.hw = s.hw)
    (regs : t.regs = s.regs) (cs : t.cs = s.cs) (inflight : t.inflight = s.inflight) : Within m b s t := by
  have same : Inert s { t with pending := s.pending, result := s.result } :=
    Inert.of_fields par rfl jobs cal rfl regs hw cs inflight
  have kept : Within m b s { t with pending := s.pending, result := s.result } := within_of_calm ⟨same, hw⟩
  refine ⟨par, kept.machine, kept.board, kept.supplyLevel, fun inv => ?_⟩
  obtain ⟨platform, memory, jobsCanon, calCanon, hwCanon, csCanon, calAgree, csDiscipline, powered⟩ := kept.inv inv
  exact ⟨platform, memory, jobsCanon, calCanon, hwCanon, csCanon, calAgree, csDiscipline, powered⟩

theorem within_result (s : State) (r : CmdResult) : Within m b s { s with result := r } :=
  within_of_fields rfl rfl rfl rfl rfl rfl rfl

theorem within_answered {α : Type} {r : Res α} (ok : α → CmdResult) (h : Within m b s r.2) :
    Within m b s (answered r ok) := by
  rw [answered_eq]
  exact h.trans (within_result _ _)

theorem andThen_within {α β : Type} {r : Res α} {k : α → State → Res β} (hr : Within m b s r.2)
    (hk : ∀ a t, Within m b t (k a t).2) : Within m b s (r.andThen k).2 := by
  obtain ⟨e | a, t⟩ := r
  · exact hr
  · exact hr.trans (hk a t)

end

/-- Writing a machine's registers. -/
theorem within_setMachine {b : Option Nat} (m : Nat) (j : JobMachine) (s : State) :
    Within (some m) b s (s.setMachine m j) where
  par := rfl
  machine _ h := State.machine_setMachine_other _ _ _ _ fun e => h (congrArg some e.symm)
  board _ _ := rfl
  supplyLevel _ _ := rfl
  inv inv := ⟨inv.platform, inv.memory, Store.canon_putD _ _ _ _ inv.jobsCanon, inv.calCanon, inv.hwCanon, inv.csCanon,
    inv.calAgree, inv.csDiscipline, inv.powered⟩

/-- Writing a board's calibration state, the mask and the count still in agreement. -/
theorem within_setBoard {m : Option Nat} (b : Nat) (c : BoardCal) (s : State)
    (ok : s.par.plat.chips ≤ 128 → calOk s.par (s.board b) → calOk s.par c) :
    Within m (some b) s (s.setBoard b c) where
  par := rfl
  machine _ _ := rfl
  board b' h := State.board_setBoard_other _ _ _ _ fun e => h (congrArg some e.symm)
  supplyLevel _ _ := rfl
  inv inv := by
    refine ⟨inv.platform, inv.memory, inv.jobsCanon, Store.canon_putD _ _ _ _ inv.calCanon, inv.hwCanon, inv.csCanon,
      fun b' => ?_, inv.csDiscipline, inv.powered⟩
    by_cases e : b' = b
    · subst e
      rw [State.board_setBoard_same]
      exact ok inv.platform (inv.calAgree b')
    · rw [State.board_setBoard_other _ _ _ _ e]
      exact inv.calAgree b'

/-! ## The job commands own the machine they name (R34) -/

section

variable {b : Option Nat} (m : Nat)

theorem enterError_within (e : Raised) (s : State) : Within (some m) b s (enterError m e s) :=
  (within_setMachine m _ s).trans (within_result _ _)

theorem setJState_within (j : JState) (r : CmdResult) (s : State) :
    Within (some m) b s { setJState m j s with result := r } :=
  (within_setMachine m _ s).trans (within_result _ _)

theorem leaveError_within (s : State) : Within (some m) b s (leaveError m s) :=
  (within_setMachine m _ s).trans (within_of_fields rfl rfl rfl rfl rfl rfl rfl)

theorem finishJob_within {α : Type} {s : State} {r : Res α} {ok : α → State → State} (hr : Within (some m) b s r.2)
    (hok : ∀ a t, Within (some m) b t (ok a t)) : Within (some m) b s (finishJob m r ok) := by
  obtain ⟨e | a, t⟩ := r
  · exact hr.trans (enterError_within m e t)
  · exact hr.trans (hok a t)

theorem preloadJobBody_within (job : Job) (tgt : Target) (s : State) :
    Within (some m) b s (preloadJobBody m job tgt s) := by
  unfold preloadJobBody
  split
  · exact enterError_within m _ s
  · refine finishJob_within m ?_ fun _ t => setJState_within m .preloaded _ t
    exact (within_setMachine m _ s).trans (within_of_still (sendAll_still _ _))

theorem startBody_within (s : State) : Within (some m) b s (startBody m s) :=
  finishJob_within m (within_of_still (startSeq_still _ s)) fun _ t => setJState_within m .started _ t

theorem pollBody_within (expired : Bool) (s : State) : Within (some m) b s (pollBody m expired s) := by
  have line : Within (some m) b s (readLine s.par.plat.waitLine (s.machine m).tgt.board s).2 :=
    within_of_still (readLine_still _ _ s)
  unfold pollBody
  dsimp only
  split
  · exact line.trans (setJState_within m .solutionReady _ _)
  · split
    · exact line.trans (enterError_within m _ _)
    · exact line.trans (setJState_within m .awaitingSolution _ _)

theorem readSeq_within (tgt : Target) (s : State) : Within (some m) b s (readSeq m tgt s).2 := by
  refine andThen_within (within_of_still (readVector_still tgt s)) fun _ t => ?_
  refine andThen_within (within_of_still (memRead_still ..)) fun x u => ?_
  refine andThen_within ((within_setMachine m _ u).trans (within_of_still (memWrite_still ..))) fun _ v => ?_
  refine andThen_within (within_of_still (readComplete_still tgt v)) fun _ w => ?_
  exact within_of_still (residualCheck_still tgt w)

theorem readBody_within (s : State) : Within (some m) b s (readBody m s) :=
  finishJob_within m (readSeq_within m _ s) fun _ t => setJState_within m .idle _ t

theorem waitAndRead_within (n : Nat) (s : State) : Within (some m) b s (waitAndRead m n s) := by
  induction n generalizing s with
  | zero =>
    have poll := pollBody_within (b := b) m true s
    unfold waitAndRead
    dsimp only
    split
    · exact poll.trans (readBody_within m _)
    · exact poll
  | succ n ih =>
    have poll := pollBody_within (b := b) m false s
    unfold waitAndRead
    dsimp only
    split
    · exact poll.trans (readBody_within m _)
    · exact poll.trans (ih _)

end

/-! ## The calibration commands own the board they name (R35) -/

/-- Supply and clock of every board after its level is set. -/
theorem supplySetLevel_hwOf (b : Nat) (l : Int) (s : State) (b' : Nat) :
    (supplySetLevel b l s).hwOf b' = if b' = b then { s.hwOf b with supplyLevel := l } else s.hwOf b' := by
  have same := hwOf_congr (environment_frame s).hw
  unfold supplySetLevel
  rw [State.hwOf_emit, same]
  split
  · rename_i e; rw [e, State.hwOf_setHw_same]
  · rename_i e; rw [State.hwOf_setHw_other _ _ _ _ e, same]

/-- Supply and clock of every board after its supply is switched. -/
theorem supplyEnable_hwOf (b : Nat) (on : Bool) (s : State) (b' : Nat) :
    (supplyEnable b on s).hwOf b' = if b' = b then { s.hwOf b with supplyOn := on } else s.hwOf b' := by
  have same := hwOf_congr (environment_frame s).hw
  have kept (b' : Nat) : (if (on && ((environment s).hwOf b).supplyOn) = true then environment s
      else { environment s with regs := forgetBoard b (environment s).regs }).hwOf b' = s.hwOf b' := by
    split <;> exact same b'
  unfold supplyEnable
  rw [State.hwOf_emit]
  by_cases e : b' = b
  · rw [e, State.hwOf_setHw_same, kept, if_pos rfl]
  · rw [State.hwOf_setHw_other _ _ _ _ e, kept, if_neg e]

section

variable {m : Option Nat} (b : Nat)

theorem supplySetLevel_within (l : Int) (s : State) : Within m (some b) s (supplySetLevel b l s) :=
  within_of_inert (supplySetLevel_inert b l s) fun b' h => by
    rw [supplySetLevel_hwOf, if_neg fun e => h (congrArg some e.symm)]

theorem supplyEnable_within (on : Bool) (s : State) : Within m (some b) s (supplyEnable b on s) :=
  within_of_inert (supplyEnable_inert b on s) fun b' h => by
    rw [supplyEnable_hwOf, if_neg fun e => h (congrArg some e.symm)]

/-- Writes of a board's state, status and level leave the mask and the count in agreement. -/
theorem setCal_within (st : CalState) (status : CalStatus) (s : State) : Within m (some b) s (setCal b st status s) :=
  within_setBoard b _ s fun _ ok => ok

theorem setCalState_within (st : CalState) (s : State) : Within m (some b) s (setCalState b st s) :=
  within_setBoard b _ s fun _ ok => ok

theorem setLevel_within (l : Int) (s : State) : Within m (some b) s (setLevel b l s) :=
  (within_setBoard b { s.board b with level := l } s fun _ ok => ok).trans (supplySetLevel_within b l _)

theorem failTotal_within (e : Raised) (s : State) : Within m (some b) s (failTotal b e s) :=
  ((supplyEnable_within b false s).trans (setCal_within b _ _ _)).trans (within_result _ _)

theorem failPartial_within (s : State) : Within m (some b) s (failPartial b s) :=
  (setCal_within b _ _ s).trans (within_result _ _)

/-- Restarted, a board has nothing passed. -/
theorem restart_calOk (p : Params) (cal : BoardCal) : calOk p cal.restart :=
  calOk_of_cleared rfl rfl

/-- One pass over chips of the string (R230, R236). -/
theorem sweepChips_within (l : List Nat) (s : State) (inString : ∀ ci ∈ l, ci < s.par.plat.chips) :
    Within m (some b) s (sweepChips b l s).2 := by
  induction l generalizing s with
  | nil => exact Within.refl s
  | cons ci l ih =>
    have test := testChip_still b ci s
    unfold sweepChips
    rcases h : testChip b ci s with ⟨e | passed, t⟩ <;> rw [h] at test
    · exact within_of_still test
    · have inT : ∀ cj ∈ ci :: l, cj < t.par.plat.chips := by rw [test.inert.par]; exact inString
      have update : Within m (some b) t (t.setBoard b (updatePass (t.board b) ci passed)) :=
        within_setBoard b _ t fun hc ok => updatePass_calOk passed hc (inT ci List.mem_cons_self) ok
      exact ((within_of_still test).trans update).trans (ih _ fun cj hj => inT cj (List.mem_cons_of_mem _ hj))

theorem decideSweep_within (s : State) : Within m (some b) s (decideSweep b s) := by
  have next (l : Int) (st : CalState) :
      Within m (some b) s { setCalState b st (setLevel b l s) with result := .inProgress } :=
    ((setLevel_within b l s).trans (setCalState_within b st _)).trans (within_result _ _)
  unfold decideSweep
  dsimp only
  split
  · exact next _ _
  · split
    · exact next _ _
    · split
      · exact failTotal_within b _ s
      · exact failPartial_within b s

theorem calStart_within (s : State) : Within m (some b) s (calStart b s) :=
  (within_setBoard b _ s fun _ _ => calOk_of_cleared rfl rfl).trans (within_result _ _)

theorem drawSane_hw (s : State) : (drawSane s).2.hw = s.hw := by
  unfold drawSane; split <;> rfl

theorem drawSane_trace (s : State) : (drawSane s).2.trace = s.trace := by
  unfold drawSane; split <;> rfl

theorem supplySane_still (s : State) : Still s (supplySane b s).2 := by
  refine ⟨⟨supplySane_inert b s, (drawSane_hw _).trans (environment_frame s).hw⟩, ?_⟩
  have draw : (drawSane (environment s)).2.trace.count (.delay .settle) = s.trace.count (.delay .settle) := by
    rw [drawSane_trace, (environment_still s).settles]
  exact (emit_still _ (e := .supplySane b _) nofun).settles.trans draw

theorem calPowerUp_within (s : State) : Within m (some b) s (calPowerUp b s) := by
  have calls : Within m (some b) s
      (supplySane b (supplyEnable b true (setLevel b s.par.plat.levelStart (clockEnable b false s)))).2 :=
    (((within_of_supplied (clockEnable_supplied b false s)).trans (setLevel_within b s.par.plat.levelStart _)).trans
      (supplyEnable_within b true _)).trans (within_of_still (supplySane_still b _))
  unfold calPowerUp
  dsimp only
  split
  · exact (calls.trans (setCalState_within b _ _)).trans (within_result _ _)
  · exact calls.trans (failTotal_within b _ _)

theorem calSettle_within (settled : Bool) (s : State) : Within m (some b) s (calSettle b settled s) := by
  unfold calSettle
  split
  · exact (setCalState_within b _ s).trans (within_result _ _)
  · exact within_result s _

theorem calSweep_within (s : State) : Within m (some b) s (calSweep b s) := by
  have sweep := sweepChips_within (m := m) b (List.range s.par.plat.chips) s fun ci h => List.mem_range.mp h
  unfold calSweep
  rcases h : sweepChips b (List.range s.par.plat.chips) s with ⟨e | a, t⟩ <;> rw [h] at sweep
  · exact sweep.trans (failTotal_within b e t)
  · exact sweep.trans (decideSweep_within b t)

theorem calHandOff_within (settled : Bool) (s : State) : Within m (some b) s (calHandOff b settled s) := by
  have init : Within m (some b) s (deviceInit b s).2 := within_of_supplied (deviceInit_supplied b s)
  unfold calHandOff
  split
  · rcases h : deviceInit b s with ⟨e | a, t⟩ <;> rw [h] at init
    · exact init.trans (failTotal_within b e t)
    · exact (init.trans (setCal_within b _ _ t)).trans (within_result _ _)
  · exact within_result s _

theorem calStep_within (settled : Bool) (s : State) : Within m (some b) s (calStep b settled s) := by
  unfold calStep
  cases (s.board b).state with
  | notInitialized => exact calStart_within b s
  | calPowerUp => exact calPowerUp_within b s
  | calSettle => exact calSettle_within b settled s
  | calSweep => exact calSweep_within b s
  | calInit => exact calHandOff_within b settled s
  | calDone | calPartial | calFailed => exact Within.refl s

/-- One turn of the blocking calibration: nothing in a terminal state, else a step, before which the settle states wait
(R220, R241). -/
def calTurn (s : State) : State :=
  match (s.board b).state with
  | .notInitialized | .calPowerUp | .calSweep => calStep b true s
  | .calSettle | .calInit => calStep b true (delay .settle s)
  | .calDone | .calPartial | .calFailed => s

/-- The blocking calibration is turns until a terminal state is reached. -/
theorem calLoop_succ (n : Nat) (s : State) :
    calLoop b (n + 1) s = if calTerminal (s.board b).state then s else calLoop b n (calTurn b s) := by
  unfold calTurn
  rw [calLoop]
  cases (s.board b).state <;> rfl

theorem delay_settle_calm (s : State) : Calm s (delay .settle s) :=
  (environment_calm s).trans ⟨emit_inert _ _, rfl⟩

theorem calTurn_within (s : State) : Within m (some b) s (calTurn b s) := by
  unfold calTurn
  cases (s.board b).state with
  | notInitialized | calPowerUp | calSweep => exact calStep_within b true s
  | calSettle | calInit => exact (within_of_calm (delay_settle_calm s)).trans (calStep_within b true _)
  | calDone | calPartial | calFailed => exact Within.refl s

theorem calLoop_within (n : Nat) (s : State) : Within m (some b) s (calLoop b n s) := by
  induction n generalizing s with
  | zero => exact Within.refl s
  | succ n ih =>
    rw [calLoop_succ]
    split
    · exact Within.refl s
    · exact (calTurn_within b s).trans (ih _)

end

/-! ## Commands -/

theorem checked_within {m b' : Option Nat} {b : Nat} {s t : State} (h : Within m b' s t) :
    Within m b' s (checked b s t) := by
  unfold checked
  split
  · exact within_result s _
  · exact h

theorem preload_still (job : Job) (tgt : Target) (s : State) : Still s (preload job tgt s).2 :=
  sendAll_still _ s

theorem boardDetect_within {m : Option Nat} {b : Nat} {present : Bool} {v : Variant} {s t : State}
    (h : cmdBoardDetect b present v s = .next t) : Within m (some b) s t := by
  unfold cmdBoardDetect at h
  split at h <;> cases h
  · exact within_result s _
  · exact (within_setBoard b _ s fun _ _ => calOk_of_cleared rfl rfl).trans
      (within_of_fields rfl rfl rfl rfl rfl rfl rfl)

/-- Every command is within the machine and the board that it names. -/
theorem runCommand_within {c : Command} {s t : State} (h : runCommand c s = .next t) :
    Within (jobOf c) (boardOf c) s t := by
  have body {u : State} (run : runCommand c s = guarded c s u) (within : Within (jobOf c) (boardOf c) s u) :
      Within (jobOf c) (boardOf c) s t := by
    obtain ⟨-, rfl⟩ := guarded_next (run ▸ h)
    exact within
  cases c with
  | preloadJob m job tgt => exact body (runCommand_preloadJob m job tgt s) (preloadJobBody_within m job tgt s)
  | startJob m => exact body (runCommand_startJob m s) (startBody_within m s)
  | waitPoll m expired => exact body (runCommand_waitPoll m expired s) (pollBody_within m expired s)
  | readSolution m => exact body (runCommand_readSolution m s) (readBody_within m s)
  | waitAndReadSolution m n => exact body (runCommand_waitAndRead m n s) (waitAndRead_within m n s)
  | jobReset m => cases h; exact leaveError_within m s
  | calibrateString b => exact body (runCommand_calibrateString b s) (checked_within (calLoop_within b _ s))
  | calibrationStep b settled =>
    exact body (runCommand_calibrationStep b settled s) (checked_within (calStep_within b settled s))
  | initializeDevice b =>
    have init : Within none none s (deviceInit b s).2 := within_of_supplied (deviceInit_supplied b s)
    exact body (runCommand_initializeDevice b s) (checked_within (within_answered _ init))
  | boardDetect b present v => exact boardDetect_within h
  | boardReset b =>
    rw [runCommand_boardReset] at h
    cases h
    exact checked_within ((within_setBoard b _ s fun _ _ => restart_calOk _ _).trans (within_result _ _))
  | encode v f => cases h; exact within_result s _
  | decode v buf =>
    change cmdDecode v buf s = _ at h
    unfold cmdDecode at h
    split at h <;> cases h
    exact within_result s _
  | transfer raw =>
    obtain rfl | ⟨g, -, rfl⟩ := runCommand_transfer_next h
    · exact within_result s _
    · exact within_answered _ (within_of_still (transfer_still g s))
  | preload job tgt =>
    rw [runCommand_preload_next h]
    exact within_answered _ (within_of_still (preload_still job tgt s))
  | buildOscillatorRegister v d bi => cases h; exact within_result s _

/-! ## Frames, moves and steps -/

theorem busRead_calm (b : Nat) (v : Variant) (shift : Nat) (tx : List Byte) (s : State) :
    Calm s (busRead b v shift tx s).2 := by
  refine ⟨busRead_inert b v shift tx s, ?_⟩
  obtain ⟨wait, -⟩ := busWait_calm s
  obtain ⟨-, e⟩ | ⟨-, u, hu, ⟨-, e⟩ | ⟨rx, -, e⟩⟩ := busRead_cases b v shift tx s <;> rw [e]
  · exact wait.hw
  · obtain ⟨-, -, -, -, -, -, hw, -⟩ := opened_fields b tx _ u hu
    exact (recovery_hw _).trans ((drawRx_hw u).trans (hw.trans wait.hw))
  · obtain ⟨-, -, -, -, -, -, hw, -⟩ := opened_fields b tx _ u hu
    exact (drawRx_hw u).trans (hw.trans wait.hw)

theorem busWrite_calm (b : Nat) (v : Variant) (tx : List Byte) (s : State) : Calm s (busWrite b v tx s).2 := by
  refine ⟨busWrite_inert b v tx s, ?_⟩
  obtain ⟨wait, -⟩ := busWait_calm s
  obtain ⟨-, e⟩ | ⟨-, u, hu, e⟩ := busWrite_cases b v tx s <;> rw [e]
  · exact wait.hw
  · obtain ⟨-, -, -, -, -, -, hw, -⟩ := routeMux_fields (busWait s).2
    subst hu
    exact hw.trans wait.hw

theorem setFrame_calm (s : State) (f : Frame) : Calm s (s.setFrame f) :=
  ⟨setFrame_inert s f, rfl⟩

theorem runWire_within {m b' : Option Nat} (b : Nat) (i : Instr) (s : State) : Within m b' s (runWire b i s) := by
  by_cases read : (wireOf i).mode = .singleRead
  · rw [runWire_read read]
    exact within_answered _ (within_of_calm ((setFrame_calm s _).trans (busRead_calm ..)))
  · rw [runWire_write read]
    exact within_answered _ (within_of_calm ((setFrame_calm s _).trans (busWrite_calm ..)))

/-- The board whose divider and bias a move writes (R41). -/
def tunedBoard : Move → Option Nat
  | .env _ => none
  | .tune b _ _ _ => some b
  | .restore b _ _ _ => some b

theorem runMove_within {mv : Move} {s t : State} (h : runMove mv s = .next t) : Within none (tunedBoard mv) s t := by
  cases mv with
  | env e =>
    change moveEnv e s = _ at h
    unfold moveEnv at h
    split at h <;> cases h
    exact within_of_calm ⟨envMove_inert e s, (envMove_frame e s).hw⟩
  | tune b c d bias =>
    obtain ⟨-, rfl⟩ := moveTune_next b c d bias s t h
    exact within_setBoard b _ s fun _ ok => ok
  | restore b c d bias =>
    obtain ⟨-, rfl⟩ := moveRestore_next b c d bias s t h
    exact within_setBoard b _ s fun _ ok => ok

/-- The machine that the next event names. -/
def State.ownedMachine (s : State) : Option Nat :=
  match s.pending with
  | .command c :: _ => jobOf c
  | _ => none

/-- The board whose calibration state the next event may write. -/
def State.ownedBoard (s : State) : Option Nat :=
  match s.pending with
  | .command c :: _ => boardOf c
  | .move mv :: _ => tunedBoard mv
  | _ => none

/-- Taking an event from the queue, with the board it names for `f`. -/
theorem within_taken {m b : Option Nat} (s : State) (rest : List Event) (f : Frame) :
    Within m b s { s with pending := rest, f := f } :=
  within_of_fields rfl rfl rfl rfl rfl rfl rfl

/-- Every step is within what its event names. -/
theorem step_within {s t : State} (h : step s = .next t) : Within (State.ownedMachine s) (State.ownedBoard s) s t := by
  obtain ⟨-, rfl⟩ | ⟨b, bytes, rest, i, -, -, run⟩ | ⟨c, rest, pending, run⟩ | ⟨mv, rest, pending, run⟩ := step_cases h
  · exact Within.refl _
  · obtain ⟨-, -, rfl⟩ := exec_next run
    exact (within_taken s rest _).trans (runWire_within b i _)
  · simp only [State.ownedMachine, State.ownedBoard, pending]
    exact (within_taken s rest s.f).trans (runCommand_within run)
  · simp only [State.ownedMachine, State.ownedBoard, pending]
    exact (within_taken s rest s.f).trans (runMove_within run)

/-- Settles O59: the invariant is one of the things that `Within` keeps. -/
theorem everyStepKeepsTheInvariant : Obligations.EveryStepKeepsTheInvariant := by
  intro s t inv h
  exact (step_within h).inv inv

/-- Settles O60: so are the parameters. -/
theorem parametersAreConstant : Obligations.ParametersAreConstant := by
  intro s t h
  exact (step_within h).par

end Sys2Proof
end

section
/-! How a job command ends: in `Error`, with the error its result and the target latched (`EndsInError`), or in the state
it leads to, with another result (`EndsIn`). The transition relation (R180) and the rule of the errors (R181) are both
read off these two endings. -/

namespace Sys2Proof

open Sys2Proof.Machine

/-- The command on machine `m` ended in an error, with target `tgt` latched (R181, R315). -/
def EndsInError (m : Nat) (tgt : Target) (t : State) : Prop :=
  ∃ e, t.result = .err e ∧ (t.machine m).jstate = .error ∧ (t.machine m).jerr = e.err ∧ (t.machine m).tgt = tgt

/-- The command on machine `m` led to state `j` and to a result that is no error. -/
def EndsIn (m : Nat) (j : JState) (t : State) : Prop :=
  (t.machine m).jstate = j ∧ ∀ e, t.result ≠ .err e

theorem machine_result (s : State) (r : CmdResult) (m : Nat) : ({ s with result := r } : State).machine m = s.machine m :=
  rfl

theorem enterError_machine (m : Nat) (e : Raised) (s : State) :
    (enterError m e s).machine m = { s.machine m with jstate := .error, jerr := e.err } := by
  rw [enterError, machine_result, State.machine_setMachine_same]

theorem setJState_machine (m : Nat) (j : JState) (s : State) :
    (setJState m j s).machine m = { s.machine m with jstate := j } := by
  rw [setJState, State.machine_setMachine_same]

theorem enterError_ends (m : Nat) (e : Raised) (s : State) : EndsInError m (s.machine m).tgt (enterError m e s) := by
  refine ⟨e, rfl, ?_, ?_, ?_⟩ <;> rw [enterError_machine]

theorem setJState_ends {r : CmdResult} (noError : ∀ e, r ≠ .err e) (m : Nat) (j : JState) (s : State) :
    EndsIn m j { setJState m j s with result := r } := by
  refine ⟨?_, noError⟩
  rw [machine_result, setJState_machine]

/-- A job command's body ends as it is to on success, and in an error otherwise. -/
theorem finishJob_ends {α : Type} {m : Nat} {j : JState} {tgt : Target} {r : Res α} {ok : α → State → State}
    (latched : (r.2.machine m).tgt = tgt) (success : ∀ a t, EndsIn m j (ok a t)) :
    EndsInError m tgt (finishJob m r ok) ∨ EndsIn m j (finishJob m r ok) := by
  obtain ⟨e | a, t⟩ := r
  · exact .inl (latched ▸ enterError_ends m e t)
  · exact .inr (success a t)

/-! ## The five commands that run a body -/

theorem preloadJobBody_ends (m : Nat) (job : Job) (tgt : Target) (s : State) :
    EndsInError m (s.machine m).tgt (preloadJobBody m job tgt s) ∨ EndsInError m tgt (preloadJobBody m job tgt s)
      ∨ EndsIn m .preloaded (preloadJobBody m job tgt s) := by
  unfold preloadJobBody
  split
  · exact .inl (enterError_ends m _ s)
  · refine .inr (finishJob_ends ?_ fun _ t => setJState_ends (by nofun) m .preloaded t)
    rw [(preload_still job tgt _).inert.machine, State.machine_setMachine_same]

theorem startBody_ends (m : Nat) (s : State) :
    EndsInError m (s.machine m).tgt (startBody m s) ∨ EndsIn m .started (startBody m s) :=
  finishJob_ends (by rw [(startSeq_still _ s).inert.machine]) fun _ t => setJState_ends (by nofun) m .started t

/-- A poll finds its line set, or the deadline reached, or neither (R193). -/
theorem pollBody_cases (m : Nat) (expired : Bool) (s : State) :
    ∃ (w : ChipBits) (u : State), readLine s.par.plat.waitLine (s.machine m).tgt.board s = (w, u) ∧ Silent s u
      ∧ ((w.getLsbD (s.machine m).tgt.chip = true
          ∧ pollBody m expired s = { setJState m .solutionReady u with result := .ready })
        ∨ (w.getLsbD (s.machine m).tgt.chip = false ∧ expired = true
          ∧ pollBody m expired s = enterError m ⟨.timeout, .nothing⟩ u)
        ∨ (w.getLsbD (s.machine m).tgt.chip = false ∧ expired = false
          ∧ pollBody m expired s = { setJState m .awaitingSolution u with result := .notYet })) := by
  have silent := readLine_silent s.par.plat.waitLine (s.machine m).tgt.board s
  rcases line : readLine s.par.plat.waitLine (s.machine m).tgt.board s with ⟨w, u⟩
  rw [line] at silent
  refine ⟨w, u, rfl, silent, ?_⟩
  simp only [pollBody, line]
  cases w.getLsbD (s.machine m).tgt.chip with
  | true => exact .inl ⟨rfl, rfl⟩
  | false =>
    cases expired with
    | true => exact .inr (.inl ⟨rfl, rfl, rfl⟩)
    | false => exact .inr (.inr ⟨rfl, rfl, rfl⟩)

theorem pollBody_ends (m : Nat) (expired : Bool) (s : State) :
    (EndsIn m .solutionReady (pollBody m expired s) ∧ (pollBody m expired s).result = .ready)
      ∨ (expired = true ∧ EndsInError m (s.machine m).tgt (pollBody m expired s))
      ∨ (expired = false ∧ EndsIn m .awaitingSolution (pollBody m expired s)
          ∧ (pollBody m expired s).result = .notYet) := by
  obtain ⟨w, u, -, silent, ⟨-, e⟩ | ⟨-, late, e⟩ | ⟨-, early, e⟩⟩ := pollBody_cases m expired s <;> rw [e]
  · exact .inl ⟨setJState_ends (by nofun) m .solutionReady u, rfl⟩
  · rw [← silent.inert.machine m]
    exact .inr (.inl ⟨late, enterError_ends m _ u⟩)
  · exact .inr (.inr ⟨early, setJState_ends (by nofun) m .awaitingSolution u, rfl⟩)

/-- A poll keeps the target latched. -/
theorem pollBody_tgt (m : Nat) (expired : Bool) (s : State) :
    ((pollBody m expired s).machine m).tgt = (s.machine m).tgt := by
  obtain ⟨w, u, -, silent, ⟨-, e⟩ | ⟨-, -, e⟩ | ⟨-, -, e⟩⟩ := pollBody_cases m expired s <;>
    rw [e, ← silent.inert.machine m]
  · rw [machine_result, setJState_machine]
  · rw [enterError_machine]
  · rw [machine_result, setJState_machine]

theorem andThen_tgt {α β : Type} {m : Nat} {tgt : Target} {r : Res α} {k : α → State → Res β}
    (hr : (r.2.machine m).tgt = tgt) (hk : ∀ a t, (t.machine m).tgt = tgt → ((k a t).2.machine m).tgt = tgt) :
    ((r.andThen k).2.machine m).tgt = tgt := by
  obtain ⟨e | a, t⟩ := r
  · exact hr
  · exact hk a t hr

/-- Reading the solution writes `jnonce` and keeps the target latched. -/
theorem readSeq_tgt (m : Nat) (tgt : Target) (s : State) :
    ((readSeq m tgt s).2.machine m).tgt = (s.machine m).tgt := by
  refine andThen_tgt (by rw [(readVector_still tgt s).inert.machine]) fun _ t ht => ?_
  refine andThen_tgt (by rw [(memRead_still ..).inert.machine, ht]) fun x u hu => ?_
  refine andThen_tgt ?_ fun _ v hv => andThen_tgt (by rw [(readComplete_still tgt v).inert.machine, hv]) fun _ w hw => ?_
  · rw [ctlWrite, (memWrite_still ..).inert.machine, State.machine_setMachine_same, hu]
  · exact (congrArg JobMachine.tgt ((residualCheck_still tgt w).inert.machine m)).trans hw

theorem readBody_ends (m : Nat) (s : State) :
    EndsInError m (s.machine m).tgt (readBody m s) ∨ EndsIn m .idle (readBody m s) :=
  finishJob_ends (readSeq_tgt m _ s) fun _ t => setJState_ends (by nofun) m .idle t

/-- The blocking form (R207) is one poll, and then the read, the poll's own ending, or the form again. -/
theorem waitAndRead_zero (m : Nat) (s : State) :
    waitAndRead m 0 s = if (pollBody m true s).result = .ready then readBody m (pollBody m true s) else pollBody m true s :=
  rfl

theorem waitAndRead_succ (m n : Nat) (s : State) :
    waitAndRead m (n + 1) s =
      if (pollBody m false s).result = .ready then readBody m (pollBody m false s)
      else waitAndRead m n (pollBody m false s) :=
  rfl

theorem waitAndRead_ends (m n : Nat) (s : State) :
    EndsInError m (s.machine m).tgt (waitAndRead m n s) ∨ EndsIn m .idle (waitAndRead m n s) := by
  induction n generalizing s with
  | zero =>
    rw [waitAndRead_zero]
    split
    · rw [← pollBody_tgt m true s]
      exact readBody_ends m _
    · rename_i notReady
      obtain ⟨-, ready⟩ | ⟨-, error⟩ | ⟨early, -⟩ := pollBody_ends m true s
      · exact absurd ready notReady
      · exact .inl error
      · cases early
  | succ n ih =>
    rw [waitAndRead_succ, ← pollBody_tgt m false s]
    split
    · exact readBody_ends m _
    · exact ih _

/-! ## The transition relation (R180) and its errors (R181) -/

/-- What a job command leads to: its own end state, or `Error` with the target latched. -/
theorem jobCommand_ends {c : Command} {m : Nat} {s t : State} (names : jobOf c = some m)
    (h : runCommand c s = .next t) :
    (∃ j, EndsIn m j t ∧ jobMove c (s.machine m).jstate j = true)
      ∨ (jobMove c (s.machine m).jstate .error = true
        ∧ (EndsInError m (s.machine m).tgt t ∨ ∃ job tgt, c = .preloadJob m job tgt ∧ EndsInError m tgt t)) := by
  cases c with
  | preloadJob i job tgt =>
    obtain rfl : i = m := Option.some.inj names
    obtain ⟨admitted, rfl⟩ := guarded_next (runCommand_preloadJob i job tgt s ▸ h)
    have idle : (s.machine i).jstate = .idle := by simpa [admits] using admitted
    obtain error | error | well := preloadJobBody_ends i job tgt s
    · exact .inr ⟨by simp [jobMove, idle], .inl error⟩
    · exact .inr ⟨by simp [jobMove, idle], .inr ⟨job, tgt, rfl, error⟩⟩
    · exact .inl ⟨_, well, by simp [jobMove, idle]⟩
  | startJob i =>
    obtain rfl : i = m := Option.some.inj names
    obtain ⟨admitted, rfl⟩ := guarded_next (runCommand_startJob i s ▸ h)
    have preloaded : (s.machine i).jstate = .preloaded := by simpa [admits] using admitted
    obtain error | well := startBody_ends i s
    · exact .inr ⟨by simp [jobMove, preloaded], .inl error⟩
    · exact .inl ⟨_, well, by simp [jobMove, preloaded]⟩
  | waitPoll i expired =>
    obtain rfl : i = m := Option.some.inj names
    obtain ⟨admitted, rfl⟩ := guarded_next (runCommand_waitPoll i expired s ▸ h)
    have waits : waiting (s.machine i).jstate = true := admitted
    obtain ⟨well, -⟩ | ⟨-, error⟩ | ⟨-, well, -⟩ := pollBody_ends i expired s
    · exact .inl ⟨_, well, by simp [jobMove, waits]⟩
    · exact .inr ⟨by simp [jobMove, waits], .inl error⟩
    · exact .inl ⟨_, well, by simp [jobMove, waits]⟩
  | readSolution i =>
    obtain rfl : i = m := Option.some.inj names
    obtain ⟨admitted, rfl⟩ := guarded_next (runCommand_readSolution i s ▸ h)
    have ready : (s.machine i).jstate = .solutionReady := by simpa [admits] using admitted
    obtain error | well := readBody_ends i s
    · exact .inr ⟨by simp [jobMove, ready], .inl error⟩
    · exact .inl ⟨_, well, by simp [jobMove, ready]⟩
  | waitAndReadSolution i n =>
    obtain rfl : i = m := Option.some.inj names
    obtain ⟨admitted, rfl⟩ := guarded_next (runCommand_waitAndRead i n s ▸ h)
    have waits : waiting (s.machine i).jstate = true := admitted
    obtain error | well := waitAndRead_ends i n s
    · exact .inr ⟨by simp [jobMove, waits], .inl error⟩
    · exact .inl ⟨_, well, by simp [jobMove, waits]⟩
  | jobReset i =>
    obtain rfl : i = m := Option.some.inj names
    cases h
    exact .inl ⟨.idle, ⟨congrArg JobMachine.jstate (State.machine_setMachine_same ..), by nofun⟩, rfl⟩
  | encode | decode | transfer | preload | boardDetect | boardReset | calibrateString | calibrationStep
    | initializeDevice | buildOscillatorRegister => cases names

/-- Settles O37: a step leaves a machine alone that its event does not name (`step_within`), and moves the one that it
names as `jobCommand_ends` says. -/
theorem jobMachinesFollowTheTransitionRelation : Obligations.JobMachinesFollowTheTransitionRelation := by
  intro s t m h
  by_cases owned : State.ownedMachine s = some m
  · obtain ⟨-, rfl⟩ | ⟨b, bytes, rest, i, pending, -, -⟩ | ⟨c, rest, pending, run⟩ | ⟨mv, rest, pending, -⟩ := step_cases h
    · exact .inl rfl
    · simp [State.ownedMachine, pending] at owned
    · have names : jobOf c = some m := by simpa [State.ownedMachine, pending] using owned
      refine .inr ⟨c, rest, pending, names, ?_⟩
      obtain ⟨j, well, moves⟩ | ⟨moves, ⟨e, -, error, -⟩ | ⟨job, tgt, -, e, -, error, -⟩⟩ := jobCommand_ends names run
      · rw [well.1]; exact moves
      · rw [error]; exact moves
      · rw [error]; exact moves
    · simp [State.ownedMachine, pending] at owned
  · exact .inl ((step_within h).machine m owned)

/-- Settles O38: the result being an error, the command is one that `EndsInError`. -/
theorem jobErrorsEnterError : Obligations.JobErrorsEnterError := by
  intro c m s t e names h result
  obtain ⟨j, well, -⟩ | ⟨-, error | ⟨job, tgt, rfl, error⟩⟩ := jobCommand_ends names h
  · exact absurd result (well.2 e)
  · obtain ⟨e', result', jstate, jerr, latched⟩ := error
    obtain rfl : e' = e := by simpa [result] using result'.symm
    exact ⟨jstate, jerr, .inl latched⟩
  · obtain ⟨e', result', jstate, jerr, latched⟩ := error
    obtain rfl : e' = e := by simpa [result] using result'.symm
    exact ⟨jstate, jerr, .inr ⟨job, tgt, rfl, latched⟩⟩

/-- Settles O40: the one machine is written, and of the rest only the result and the counter of free values. -/
theorem jobResetReturnsToIdle : Obligations.JobResetReturnsToIdle := by
  intro m s
  have reset : (leaveError m s).machine m = _ := State.machine_setMachine_same ..
  refine ⟨_, rfl, by rw [reset], by rw [reset], rfl, rfl, rfl, rfl, rfl, rfl, rfl, rfl, rfl, rfl, fun m' other => ?_⟩
  exact State.machine_setMachine_other _ _ _ _ other

/-- After a poll that answered `Ready` the solution can be read. -/
theorem readSolution_of_poll_ready {m : Nat} {expired : Bool} {s : State}
    (ready : (pollBody m expired s).result = .ready) :
    runCommand (.readSolution m) (pollBody m expired s) = .next (readBody m (pollBody m expired s)) := by
  rw [runCommand_readSolution]
  apply guarded_of_admits
  obtain ⟨⟨found, -⟩, -⟩ | ⟨-, e, error, -⟩ | ⟨-, -, notYet⟩ := pollBody_ends m expired s
  · simp [admits, found]
  · rw [ready] at error; cases error
  · rw [ready] at notYet; cases notYet

/-- Settles O34: `pollBody_cases` for one poll, and the equations of the blocking form. -/
theorem waitPollRule : Obligations.WaitPollRule := by
  refine ⟨fun m expired s waits => ?_, fun m s u h => ?_, fun m n s u h => ?_⟩
  · have admitted : admits (.waitPoll m expired) s = true := by
      obtain e | e := waits <;> simp [admits, waiting, e]
    have others := fun m' (other : m' ≠ m) =>
      (pollBody_within (b := none) m expired s).machine m' fun e => other (Option.some.inj e).symm
    obtain ⟨w, u, line, silent, poll⟩ := pollBody_cases m expired s
    have cal := silent.inert.cal
    have machine := silent.inert.machine m
    refine ⟨w, u, _, line, (runCommand_waitPoll m expired s).trans (guarded_of_admits admitted _), ?_⟩
    obtain ⟨set, e⟩ | ⟨clear, late, e⟩ | ⟨clear, early, e⟩ := poll <;> rw [e] at others ⊢
    · exact ⟨silent.frames, cal, silent.hw, others,
        fun _ => ⟨by rw [machine_result, setJState_machine, machine], rfl⟩, fun h => by simp [set] at h,
        fun h => by simp [set] at h⟩
    · exact ⟨silent.frames, cal, silent.hw, others, fun h => by simp [clear] at h,
        fun _ _ => ⟨by rw [enterError_machine, machine], rfl⟩, fun _ h => by simp [late] at h⟩
    · exact ⟨silent.frames, cal, silent.hw, others, fun h => by simp [clear] at h, fun _ h => by simp [early] at h,
        fun _ _ => ⟨by rw [machine_result, setJState_machine, machine], rfl⟩⟩
  · obtain ⟨admitted, rfl⟩ := guarded_next (runCommand_waitPoll m true s ▸ h)
    have blocking : runCommand (.waitAndReadSolution m 0) s = .next (waitAndRead m 0 s) :=
      (runCommand_waitAndRead m 0 s).trans (guarded_of_admits admitted _)
    rw [blocking, waitAndRead_zero]
    exact ⟨fun ready => by rw [if_pos ready, readSolution_of_poll_ready ready], fun other => by rw [if_neg other]⟩
  · obtain ⟨admitted, rfl⟩ := guarded_next (runCommand_waitPoll m false s ▸ h)
    have blocking : runCommand (.waitAndReadSolution m (n + 1)) s = .next (waitAndRead m (n + 1) s) :=
      (runCommand_waitAndRead m (n + 1) s).trans (guarded_of_admits admitted _)
    rw [blocking, waitAndRead_succ]
    refine ⟨fun ready => by rw [if_pos ready, readSolution_of_poll_ready ready], fun other => ?_⟩
    obtain ⟨-, ready⟩ | ⟨late, -⟩ | ⟨-, ⟨awaiting, -⟩, notYet⟩ := pollBody_ends m false s
    · exact absurd ready other
    · cases late
    · have again : admits (.waitAndReadSolution m n) (pollBody m false s) = true := by
        simp [admits, waiting, awaiting]
      rw [if_neg other, runCommand_waitAndRead, guarded_of_admits again]
      exact ⟨notYet, rfl⟩

end Sys2Proof
end

section
/-! The steps of a calibration, one by one. The collaborator calls of power-up and of the decision are equations where no
other agent moves (`supplyEnable_idle` and its neighbours); an attempt whose transfers succeed classifies what it reads
(`attempt_ok`), and a sweep is one attempt a chip on a string that is never in doubt (`sweepChips_simulated`). -/

namespace Sys2Proof

open Sys2Proof.Machine

/-! ## The board check (R303) -/

theorem checkBoard_of_present {s : State} {b : Nat} (inRange : b < s.par.plat.boards)
    (present : (s.board b).present = true) : checkBoard s b = none := by
  unfold checkBoard
  rw [if_neg]
  rintro (h | h)
  · omega
  · rw [present] at h; cases h

theorem checkBoard_of_absent {s : State} {b : Nat} (h : s.par.plat.boards ≤ b ∨ (s.board b).present = false) :
    checkBoard s b = some ⟨.notFound, .index b⟩ :=
  if_pos h

/-- A calibration step on a board that is there, in a state that is not terminal. -/
theorem calibrationStep_eq {s : State} {b : Nat} (settled : Bool) (inRange : b < s.par.plat.boards)
    (present : (s.board b).present = true) (going : calTerminal (s.board b).state = false) :
    runCommand (.calibrationStep b settled) s = .next (calStep b settled s) := by
  have admitted : admits (.calibrationStep b settled) s = true := by simp [admits, going]
  rw [runCommand_calibrationStep, guarded_of_admits admitted, checked_of_none (checkBoard_of_present inRange present)]

/-- Settles O41: the board check, and the first arm of the step. -/
theorem calibrationStart : Obligations.CalibrationStart := by
  intro b settled s
  refine ⟨fun inRange present fresh => ?_, fun absent => ?_⟩
  · rw [calibrationStep_eq settled inRange present (by rw [fresh]; rfl), calStep, fresh]
    rfl
  · have notFound : checkBoard s b = some ⟨.notFound, .index b⟩ := checkBoard_of_absent (absent.imp_right And.left)
    have admitted : admits (.calibrationStep b settled) s = true := by
      obtain beyond | ⟨-, going⟩ := absent
      · simp [admits, beyond]
      · simp [admits, going]
    rw [runCommand_calibrationStep, guarded_of_admits admitted, checked_of_some notFound]

/-- Settles O43: the settle arm of the step. -/
theorem calibrationSettle : Obligations.CalibrationSettle := by
  intro b s inRange present settle
  have going : calTerminal (s.board b).state = false := by rw [settle]; rfl
  refine ⟨?_, ?_⟩ <;> rw [calibrationStep_eq _ inRange present going, calStep, settle] <;> rfl

/-! ## Collaborator calls with no other agent's move -/

/-- Calls that record these effects and nothing else, no other agent moving before or between them. -/
structure Calls (s t : State) (es : List Effect) : Prop where
  idle : t.between = []
  trace : t.trace = s.trace ++ es
  sane : t.saneAnswers = s.saneAnswers
  inflight : t.inflight = s.inflight
  jobs : t.jobs = s.jobs

theorem Calls.trans {s t u : State} {es fs : List Effect} (h : Calls s t es) (k : Calls t u fs) :
    Calls s u (es ++ fs) :=
  ⟨k.idle, by rw [k.trace, h.trace, List.append_assoc], k.sane.trans h.sane, k.inflight.trans h.inflight,
    k.jobs.trans h.jobs⟩

section

variable {s : State} (h : s.between = []) (b : Nat)
include h

theorem clockEnable_calls (on : Bool) : Calls s (clockEnable b on s) [.clockEnable b on] := by
  rw [clockEnable, environment_idle s h]
  exact ⟨h, rfl, rfl, rfl, rfl⟩

theorem setLevel_calls (l : Int) : Calls s (setLevel b l s) [.supplySetLevel b l] := by
  rw [setLevel, supplySetLevel, environment_idle _ (by exact h)]
  exact ⟨h, rfl, rfl, rfl, rfl⟩

theorem setLevel_regs (l : Int) : (setLevel b l s).regs = s.regs := by
  rw [setLevel, supplySetLevel, environment_idle _ (by exact h)]
  rfl

theorem supplyEnable_calls (on : Bool) : Calls s (supplyEnable b on s) [.supplyEnable b on] := by
  rw [supplyEnable, environment_idle s h]
  dsimp only
  split <;> exact ⟨h, rfl, rfl, rfl, rfl⟩

theorem supplyEnable_off_regs : (supplyEnable b false s).regs = forgetBoard b s.regs := by
  rw [supplyEnable, environment_idle s h]
  rfl

theorem supplySane_idle {a : Bool} {rest : List Bool} (answer : s.saneAnswers = a :: rest) :
    supplySane b s = (a, { s with saneAnswers := rest }.emit (.supplySane b a)) := by
  rw [supplySane, environment_idle s h, drawSane, answer]

end

/-! ## What the arms of a step write -/

theorem setLevel_hwOf (b : Nat) (l : Int) (s : State) (b' : Nat) :
    (setLevel b l s).hwOf b' = if b' = b then { s.hwOf b with supplyLevel := l } else s.hwOf b' :=
  supplySetLevel_hwOf b l _ b'

theorem setLevel_board (b : Nat) (l : Int) (s : State) : (setLevel b l s).board b = { s.board b with level := l } := by
  rw [setLevel, (supplySetLevel_inert b l _).board, State.board_setBoard_same]

theorem board_result (s : State) (r : CmdResult) (b : Nat) : ({ s with result := r } : State).board b = s.board b :=
  rfl

theorem setCalState_board (b : Nat) (st : CalState) (s : State) :
    (setCalState b st s).board b = { s.board b with state := st } := by
  rw [setCalState, State.board_setBoard_same]

theorem setCal_board (b : Nat) (st : CalState) (status : CalStatus) (s : State) :
    (setCal b st status s).board b = { s.board b with state := st, status := status } := by
  rw [setCal, State.board_setBoard_same]

/-- A total failure (R248): the state is terminal and the mask is the report. -/
theorem failTotal_board (b : Nat) (e : Raised) (s : State) :
    (failTotal b e s).board b = { s.board b with state := .calFailed, status := .error e.err } := by
  rw [failTotal, board_result, setCal_board, (supplyEnable_inert b false s).board]

theorem failTotal_result (b : Nat) (e : Raised) (s : State) :
    (failTotal b e s).result = .calFailed e (s.board b).pass := by
  have pass := congrArg BoardCal.pass (failTotal_board b e s)
  exact congrArg (CmdResult.calFailed e) pass

/-- A total failure (R248): the supply goes off. -/
theorem failTotal_hwOf (b : Nat) (e : Raised) (s : State) (b' : Nat) :
    (failTotal b e s).hwOf b' = if b' = b then { s.hwOf b with supplyOn := false } else s.hwOf b' :=
  supplyEnable_hwOf b false s b'

theorem failTotal_calls {s : State} (h : s.between = []) (b : Nat) (e : Raised) :
    Calls s (failTotal b e s) [.supplyEnable b false] := by
  obtain ⟨idle, trace, sane, inflight, jobs⟩ := supplyEnable_calls h b false
  exact ⟨idle, trace, sane, inflight, jobs⟩

/-- What a calibration step of board `b` leaves of the other boards. -/
theorem within_board_other {m : Option Nat} {b b' : Nat} {s t : State} (h : Within m (some b) s t) (other : b' ≠ b) :
    t.board b' = s.board b' :=
  h.board b' fun e => other (Option.some.inj e).symm

/-! ## Power-up (R223) -/

/-- The calls of power-up before the voltages are asked for. -/
def powerUpCalls (b : Nat) (s : State) : State :=
  supplyEnable b true (setLevel b s.par.plat.levelStart (clockEnable b false s))

theorem calPowerUp_eq (b : Nat) (s : State) :
    calPowerUp b s =
      if (supplySane b (powerUpCalls b s)).1 then
        { setCalState b .calSettle (supplySane b (powerUpCalls b s)).2 with result := .inProgress }
      else failTotal b ⟨.failure, .nothing⟩ (supplySane b (powerUpCalls b s)).2 :=
  rfl

theorem powerUpCalls_board (b : Nat) (s : State) :
    (powerUpCalls b s).board b = { s.board b with level := s.par.plat.levelStart } := by
  rw [powerUpCalls, (supplyEnable_inert b true _).board, setLevel_board, (clockEnable_inert b false s).board]

theorem powerUpCalls_hwOf (b : Nat) (s : State) (b' : Nat) :
    (powerUpCalls b s).hwOf b' =
      if b' = b then { supplyOn := true, supplyLevel := s.par.plat.levelStart, clockOn := false } else s.hwOf b' := by
  rw [powerUpCalls, supplyEnable_hwOf]
  split
  · rw [setLevel_hwOf, if_pos rfl, clockEnable_hwOf, if_pos rfl]
  · rename_i other
    rw [setLevel_hwOf, if_neg other, clockEnable_hwOf, if_neg other]

theorem powerUpCalls_calls {s : State} (h : s.between = []) (b : Nat) :
    Calls s (powerUpCalls b s)
      [.clockEnable b false, .supplySetLevel b s.par.plat.levelStart, .supplyEnable b true] := by
  have clock := clockEnable_calls h b false
  have level := clock.trans (setLevel_calls clock.idle b s.par.plat.levelStart)
  exact level.trans (supplyEnable_calls level.idle b true)

/-- Settles O42: the calls of `powerUpCalls`, then the answer, then the arm it chooses. -/
theorem calibrationPowerUp : Obligations.CalibrationPowerUp := by
  intro b settled sane rest s inRange present powerUp idle answer
  have run := calibrationStep_eq settled inRange present (by rw [powerUp]; rfl)
  rw [calStep, powerUp] at run
  refine ⟨_, run, ?_⟩
  have others (b' : Nat) (other : b' ≠ b) : (calPowerUp b s).board b' = s.board b' :=
    within_board_other (calPowerUp_within (m := none) b s) other
  have calls := powerUpCalls_calls idle b
  have board := powerUpCalls_board b s
  have hw := powerUpCalls_hwOf b s
  have asked := supplySane_idle calls.idle b (calls.sane.trans answer)
  rw [calPowerUp_eq, asked] at others ⊢
  generalize powerUpCalls b s = u at *
  cases sane with
  | true =>
    rw [if_pos rfl] at others ⊢
    refine ⟨?_, ?_, ?_, rfl, fun b' other => ⟨others b' other, ?_⟩, calls.jobs⟩
    · exact (congrArg (· ++ _) calls.trace).trans (by simp)
    · exact (hw b).trans (if_pos rfl)
    · rw [board_result, setCalState_board]
      exact congrArg (fun c : BoardCal => { c with state := .calSettle }) board
    · exact (hw b').trans (if_neg other)
  | false =>
    rw [if_neg Bool.false_ne_true] at others ⊢
    have failed := failTotal_calls (s := { u with saneAnswers := rest }.emit (.supplySane b false)) calls.idle b
      ⟨.failure, .nothing⟩
    refine ⟨?_, ?_, ?_, ?_, fun b' other => ⟨others b' other, ?_⟩, failed.jobs.trans calls.jobs⟩
    · rw [failed.trace, State.emit_trace, calls.trace]
      simp
    · rw [failTotal_hwOf, if_pos rfl]
      exact congrArg (fun c : BoardHw => { c with supplyOn := false }) ((hw b).trans (if_pos rfl))
    · rw [failTotal_board]
      exact congrArg (fun c : BoardCal => { c with state := .calFailed, status := .error .failure }) board
    · rw [failTotal_result]
      have pass : (u.board b).pass = (s.board b).pass := by rw [board]
      exact congrArg (CmdResult.calFailed _) pass
    · exact ((failTotal_hwOf ..).trans (if_neg other)).trans ((hw b').trans (if_neg other))

/-! ## The decision after a sweep (R238) -/

/-- A new level handed to the supply, and the state that goes with it (R240, R243). -/
def relevel (b : Nat) (st : CalState) (l : Int) (s : State) : State :=
  { setCalState b st (setLevel b l s) with result := .inProgress }

theorem relevel_board (b : Nat) (st : CalState) (l : Int) (s : State) :
    (relevel b st l s).board b = { s.board b with level := l, state := st } := by
  rw [relevel, board_result, setCalState_board, setLevel_board]

theorem relevel_hwOf (b : Nat) (st : CalState) (l : Int) (s : State) (b' : Nat) :
    (relevel b st l s).hwOf b' = if b' = b then { s.hwOf b with supplyLevel := l } else s.hwOf b' :=
  setLevel_hwOf b l s b'

theorem relevel_calls {s : State} (h : s.between = []) (b : Nat) (st : CalState) (l : Int) :
    Calls s (relevel b st l s) [.supplySetLevel b l] := by
  obtain ⟨idle, trace, sane, inflight, jobs⟩ := setLevel_calls h b l
  exact ⟨idle, trace, sane, inflight, jobs⟩

theorem failPartial_board (b : Nat) (s : State) :
    (failPartial b s).board b = { s.board b with state := .calPartial, status := .error .failure } := by
  rw [failPartial, board_result, setCal_board]

theorem failPartial_result (b : Nat) (s : State) :
    (failPartial b s).result = .partialFailure (failedChips s.par.plat.chips (s.board b).pass) :=
  rfl

/-- The decision: the margin after a full count, a unit down above the floor, and at the floor one of the failures. -/
theorem decideSweep_cases (b : Nat) (s : State) :
    ((s.board b).awake = s.par.plat.chips ∧ decideSweep b s =
        relevel b .calInit (max s.par.plat.levelFloor ((s.board b).level - s.par.plat.levelMargin)) s)
      ∨ ((s.board b).awake ≠ s.par.plat.chips ∧ s.par.plat.levelFloor < (s.board b).level ∧ decideSweep b s =
        relevel b .calSettle ((s.board b).level - 1) s)
      ∨ ((s.board b).awake ≠ s.par.plat.chips ∧ (s.board b).level ≤ s.par.plat.levelFloor ∧ (s.board b).awake = 0
        ∧ decideSweep b s = failTotal b ⟨.failure, .passMask (s.board b).pass⟩ s)
      ∨ ((s.board b).awake ≠ s.par.plat.chips ∧ (s.board b).level ≤ s.par.plat.levelFloor ∧ (s.board b).awake ≠ 0
        ∧ decideSweep b s = failPartial b s) := by
  unfold decideSweep
  dsimp only
  split
  · rename_i full
    exact .inl ⟨full, rfl⟩
  · rename_i notFull
    split
    · rename_i above
      exact .inr (.inl ⟨notFull, above, rfl⟩)
    · rename_i floor
      split
      · rename_i none
        exact .inr (.inr (.inl ⟨notFull, not_lt.mp floor, none, rfl⟩))
      · rename_i awake
        exact .inr (.inr (.inr ⟨notFull, not_lt.mp floor, awake, rfl⟩))

/-- Settles O47: the four arms of the decision, each with what it writes and calls. -/
theorem decisionAfterASweep : Obligations.DecisionAfterASweep := by
  rintro b s t lvl idle rfl
  have others (b' : Nat) (other : b' ≠ b) := within_board_other (decideSweep_within (m := none) b s) other
  obtain ⟨full, e⟩ | ⟨notFull, above, e⟩ | ⟨notFull, floor, none, e⟩ | ⟨notFull, floor, awake, e⟩ :=
    decideSweep_cases b s <;> rw [e] at others ⊢
  · have calls := relevel_calls idle b .calInit
      (max s.par.plat.levelFloor ((s.board b).level - s.par.plat.levelMargin))
    refine ⟨?_, fun h => absurd full h, fun h => absurd full h, fun h => absurd full h,
      fun b' other => ⟨others b' other, (relevel_hwOf ..).trans (if_neg other)⟩, calls.jobs, calls.inflight⟩
    rintro - rfl
    exact ⟨relevel_board .., (relevel_hwOf ..).trans (if_pos rfl), calls.trace, setLevel_regs idle b _, rfl⟩
  · have calls := relevel_calls idle b .calSettle ((s.board b).level - 1)
    refine ⟨fun h => absurd h notFull, ?_, fun _ h => absurd above (not_lt.mpr h), fun _ h => absurd above (not_lt.mpr h),
      fun b' other => ⟨others b' other, (relevel_hwOf ..).trans (if_neg other)⟩, calls.jobs, calls.inflight⟩
    rintro - - rfl
    refine ⟨relevel_board .., (relevel_hwOf ..).trans (if_pos rfl), calls.trace, setLevel_regs idle b _, rfl, ?_⟩
    rw [relevel_board]
    exact Int.le_sub_one_of_lt above
  · have calls := failTotal_calls idle b ⟨.failure, .passMask (s.board b).pass⟩
    refine ⟨fun h => absurd h notFull, fun _ h => absurd h (not_lt.mpr floor), fun _ _ _ => ?_,
      fun _ _ h => absurd none h, fun b' other => ⟨others b' other, (failTotal_hwOf ..).trans (if_neg other)⟩,
      calls.jobs, calls.inflight⟩
    exact ⟨failTotal_board .., (failTotal_hwOf ..).trans (if_pos rfl), calls.trace, supplyEnable_off_regs idle b,
      failTotal_result ..⟩
  · refine ⟨fun h => absurd h notFull, fun _ h => absurd h (not_lt.mpr floor), fun _ _ h => absurd h awake,
      fun _ _ _ => ?_, fun b' other => ⟨others b' other, rfl⟩, rfl, rfl⟩
    exact ⟨failPartial_board .., rfl, rfl, rfl, failPartial_result ..⟩

/-! ## The chip test (R231 to R235) -/

/-- Settles O45: the equations of the test and of its retry. -/
theorem chipTestRetriesOnce : Obligations.ChipTestRetriesOnce := by
  intro b ci s
  refine ⟨fun t first => ?_, fun t first => ?_, fun t first => ?_, fun t e first => ?_⟩ <;> rw [testChip_eq, first]
  · rfl
  · rfl
  · show (retry b ci none t).1 = _ ∧ (retry b ci none t).2 = _
    rw [retry_eq]
    obtain ⟨e | a, u⟩ := attempt b ci t <;> exact ⟨rfl, rfl⟩
  · show (retry b ci (some e) t).1 = _ ∧ (retry b ci (some e) t).2 = _
    rw [retry_eq]
    obtain ⟨e | a, u⟩ := attempt b ci t <;> exact ⟨rfl, rfl⟩

theorem classify_eq_pass_iff (v : Variant) (c : ChipVariant) (x : Word) : classify v c x = .pass ↔ x = c.ocrbStartup := by
  unfold classify
  split
  · rename_i matched
    exact iff_of_true rfl matched
  · rename_i other
    split <;> exact iff_of_false (by nofun) other

theorem classify_eq_clearlyWrong_iff (v : Variant) (c : ChipVariant) (x : Word) :
    classify v c x = .clearlyWrong ↔ x ≠ c.ocrbStartup ∧ (x = 0 ∨ x = allOnes v c) := by
  unfold classify
  split
  · rename_i matched
    exact iff_of_false (by nofun) fun wrong => wrong.1 matched
  · rename_i other
    split
    · rename_i dead
      exact iff_of_true rfl ⟨other, dead⟩
    · rename_i alive
      exact iff_of_false (by nofun) fun wrong => alive wrong.2

theorem allOnes_toNat (v : Variant) (c : ChipVariant) : (allOnes v c).toNat = (2 ^ v.width - 1) / 2 ^ c.shift := by
  have bound : 2 ^ v.width - 1 < 2 ^ 64 := lt_of_lt_of_le (Nat.sub_lt (by positivity) one_pos) (two_pow_width_le v)
  rw [allOnes, BitVec.toNat_ofNat, Nat.shiftRight_eq_div_pow, Nat.mod_eq_of_lt]
  exact lt_of_le_of_lt (Nat.div_le_self _ _) bound

/-- The two frames of an attempt on a chip (R232, R233). -/
def attemptFrames (s : State) (b ci : Nat) : List Frame :=
  [writeFrame (s.variantOf b) b ci (s.cfgOf b).chipCore (s.cfgOf b).reg.ocrb (s.cfgOf b).ocrbStartup,
    readFrame b ci (s.cfgOf b).chipCore (s.cfgOf b).reg.ocrb]

/-- An attempt whose transfers succeed classifies the decoded value. -/
theorem attempt_ok {b ci n : Nat} {rx : Rx} {l : List (Option Rx)} {s : State} (waits : waitsEnd s (n + 2))
    (reads : readsAnswer s (some rx :: l)) :
    ∃ t, attempt b ci s
        = (.ok (classify (s.variantOf b) (s.cfgOf b) (decodedRead (s.variantOf b) (s.cfgOf b).shift rx)), t)
      ∧ Sent s t (attemptFrames s b ci) ∧ waitsEnd t n ∧ readsAnswer t l := by
  obtain ⟨t, written, sent, waits, script, -⟩ := transferWrite_ok
    (writeFrame (s.variantOf b) b ci (s.cfgOf b).chipCore (s.cfgOf b).reg.ocrb (s.cfgOf b).ocrbStartup) s (n + 1) waits
  obtain ⟨u, read, sent', waits, reads, -⟩ := transferRead_ok
    (readFrame b ci (s.cfgOf b).chipCore (s.cfgOf b).reg.ocrb) t n rx l waits (readsAnswer_congr reads script)
  have sameT := sent.calm.inert
  have sameU := (sent.trans sent').calm.inert
  refine ⟨u, ?_, sent.trans sent', waits, reads⟩
  rw [readFrame, sameT.variantOf, sameT.cfgOf] at read
  simp only [attempt, memWrite, written, Res.andThen, memRead, readFrame, read, sameU.variantOf]

/-- Settles O44: an attempt whose transfers succeed, its outcome read off `classify`. -/
theorem attemptClassifiesTheReadback : Obligations.AttemptClassifiesTheReadback := by
  rintro b ci rx x s waits reads rfl
  obtain ⟨t, done, sent, -, -⟩ := attempt_ok (b := b) (ci := ci) (n := 0) waits reads
  have ones (x : Word) : x = allOnes (s.variantOf b) (s.cfgOf b)
      ↔ x.toNat = (2 ^ (s.variantOf b).width - 1) / 2 ^ (s.cfgOf b).shift := by
    rw [← allOnes_toNat]
    exact ⟨congrArg _, BitVec.eq_of_toNat_eq⟩
  refine ⟨_, t, done, sent.frames, classify_eq_pass_iff _ _ _, ?_, sent.calm.inert.cal, sent.calm.inert.jobs, sent.calm.hw⟩
  rw [classify_eq_clearlyWrong_iff, ones]

end Sys2Proof
end

section
/-! Calibration as a whole. A step leads on as its state says (`calStep_cases`), with a level and a supply level that are
read off that; the ramp then ends because every level that a sweep leaves is one lower (`turnsLeft`), and a sweep of a
string that answers by thresholds marks the chips whose threshold is reached (`sweepChips_simulated`). -/

namespace Sys2Proof

open Sys2Proof.Machine

/-! ## A sweep of any string (R230) -/

/-- A sweep writes the mask and the count of its board, and waits for no settle. -/
structure Swept (b : Nat) (s t : State) : Prop where
  par : t.par = s.par
  board : ∃ pass awake, t.board b = { s.board b with pass := pass, awake := awake }
  hw : t.hw = s.hw
  jobs : t.jobs = s.jobs
  settles : t.trace.count (.delay .settle) = s.trace.count (.delay .settle)

theorem Swept.trans {b : Nat} {s t u : State} (h : Swept b s t) (k : Swept b t u) : Swept b s u := by
  obtain ⟨p, a, ht⟩ := h.board
  obtain ⟨q, c, hu⟩ := k.board
  exact ⟨k.par.trans h.par, ⟨q, c, by rw [hu, ht]⟩, k.hw.trans h.hw, k.jobs.trans h.jobs, k.settles.trans h.settles⟩

theorem swept_of_still {s t : State} (b : Nat) (h : Still s t) : Swept b s t :=
  ⟨h.inert.par, ⟨_, _, h.inert.board b⟩, h.hw, h.inert.jobs, h.settles⟩

theorem swept_update (b ci : Nat) (passed : Bool) (s : State) :
    Swept b s (s.setBoard b (updatePass (s.board b) ci passed)) :=
  ⟨rfl, ⟨_, _, by rw [State.board_setBoard_same, updatePass_eq]⟩, rfl, rfl, rfl⟩

theorem sweepChips_swept (b : Nat) (l : List Nat) (s : State) : Swept b s (sweepChips b l s).2 := by
  induction l generalizing s with
  | nil => exact swept_of_still b (Still.refl s)
  | cons ci l ih =>
    have test := testChip_still b ci s
    unfold sweepChips
    rcases h : testChip b ci s with ⟨e | passed, t⟩ <;> rw [h] at test
    · exact swept_of_still b test
    · exact ((swept_of_still b test).trans (swept_update b ci passed t)).trans (ih _)

/-! ## A sweep of a simulated string (R250) -/

theorem truncW_toNat (v : Variant) (x : Word) : (truncW v x).toNat = x.toNat % 2 ^ v.width := by
  cases v with
  | sc1 => exact (Nat.mod_eq_of_lt x.isLt).symm
  | dcr1 =>
    show ((x.setWidth 32).setWidth 64).toNat = _
    rw [BitVec.toNat_setWidth_of_le (by decide), BitVec.toNat_setWidth]
    rfl

/-- A value that fits the width less the erratum amount comes back whole (R77, R101). -/
theorem decodedRead_displaced {v : Variant} {shift : Nat} {x : Word} (hs : shift ≤ v.width)
    (fits : x.toNat < 2 ^ (v.width - shift)) (header : BitVec 24) :
    decodedRead v shift { header := header, raw := truncW v (x <<< shift) } = x := by
  have small : x.toNat * 2 ^ shift < 2 ^ v.width := by
    rw [← Nat.sub_add_cancel hs, pow_add]
    exact Nat.mul_lt_mul_of_pos_right fits (by positivity)
  apply BitVec.eq_of_toNat_eq
  rw [decodedRead, BitVec.toNat_ushiftRight, truncW_toNat, truncW_toNat, BitVec.toNat_shiftLeft, Nat.shiftLeft_eq,
    Nat.shiftRight_eq_div_pow, Nat.mod_eq_of_lt (lt_of_lt_of_le small (two_pow_width_le v)), Nat.mod_eq_of_lt small,
    Nat.mod_eq_of_lt small, Nat.mul_div_cancel _ (by positivity)]

/-- What an admissible configuration says of the startup pattern (R8). -/
theorem startup_of_admissible {v : Variant} {c : ChipVariant} (h : chipAdmissible v c = true) :
    c.shift ≤ v.width ∧ c.ocrbStartup ≠ 0 ∧ c.ocrbStartup.toNat < 2 ^ (v.width - c.shift) := by
  simp only [chipAdmissible, startupOk, decide_eq_true_eq] at h
  obtain ⟨shift, -, -, -, -, -, -, -, ⟨nonzero, -, fits⟩, -⟩ := h
  refine ⟨?_, nonzero, fits⟩
  cases v <;> exact le_trans shift (by decide)

/-- The raw answer of a chip that returns the pattern while the level is at or below its threshold (U9). -/
def thresholdRx (v : Variant) (c : ChipVariant) (th : Nat → Int) (level : Int) (ci : Nat) : Rx where
  header := 0
  raw := if level ≤ th ci then truncW v (c.ocrbStartup <<< c.shift) else 0

theorem decodedRead_thresholdRx {v : Variant} {c : ChipVariant} (h : chipAdmissible v c = true) (th : Nat → Int)
    (level : Int) (ci : Nat) :
    decodedRead v c.shift (thresholdRx v c th level ci) = if level ≤ th ci then c.ocrbStartup else 0 := by
  obtain ⟨shift, -, fits⟩ := startup_of_admissible h
  unfold thresholdRx
  by_cases reached : level ≤ th ci
  · simp only [if_pos reached]
    exact decodedRead_displaced shift fits 0
  · simp only [if_neg reached]
    cases v <;> simp [decodedRead, truncW]

/-- Such a chip is never in doubt: it passes or is clearly wrong at once. -/
theorem testChip_simulated {b ci n : Nat} {th : Nat → Int} {level : Int} {l : List (Option Rx)} {s : State}
    (admissible : chipAdmissible (s.variantOf b) (s.cfgOf b) = true) (waits : waitsEnd s (n + 2))
    (reads : readsAnswer s (thresholdAnswer (s.variantOf b) (s.cfgOf b) th level ci :: l)) :
    ∃ t, testChip b ci s = (.ok (decide (level ≤ th ci)), t) ∧ Calm s t ∧ waitsEnd t n ∧ readsAnswer t l := by
  obtain ⟨-, nonzero, -⟩ := startup_of_admissible admissible
  obtain ⟨t, done, sent, waits, reads⟩ :=
    attempt_ok (b := b) (ci := ci) (rx := thresholdRx (s.variantOf b) (s.cfgOf b) th level ci) waits reads
  have outcome : classify (s.variantOf b) (s.cfgOf b) (if level ≤ th ci then (s.cfgOf b).ocrbStartup else 0)
      = if level ≤ th ci then .pass else .clearlyWrong := by
    split
    · exact (classify_eq_pass_iff ..).mpr rfl
    · exact (classify_eq_clearlyWrong_iff ..).mpr ⟨nonzero.symm, .inl rfl⟩
  rw [decodedRead_thresholdRx admissible, outcome] at done
  refine ⟨t, ?_, sent.calm, waits, reads⟩
  rw [testChip_eq, done]
  by_cases reached : level ≤ th ci <;> simp [reached]

/-- A sweep of a simulated string writes every chip's bit as its threshold says, and stops at no error. -/
theorem sweepChips_simulated {b : Nat} {th : Nat → Int} {level : Int} (l : List Nat) {s : State}
    (hc : s.par.plat.chips ≤ 128) (inString : ∀ ci ∈ l, ci < s.par.plat.chips)
    (admissible : chipAdmissible (s.variantOf b) (s.cfgOf b) = true) (ok : calOk s.par (s.board b))
    (waits : waitsEnd s (2 * l.length))
    (reads : readsAnswer s (l.map (thresholdAnswer (s.variantOf b) (s.cfgOf b) th level))) :
    ∃ t, sweepChips b l s = (.ok (), t) ∧ calOk t.par (t.board b)
      ∧ ∀ k, (t.board b).pass.getLsbD k = if k ∈ l then decide (level ≤ th k) else (s.board b).pass.getLsbD k := by
  induction l generalizing s with
  | nil => exact ⟨s, rfl, ok, fun k => by simp⟩
  | cons ci l ih =>
    obtain ⟨u, tested, calm, waits, reads⟩ := testChip_simulated (n := 2 * l.length) admissible waits reads
    have board := calm.inert.board b
    have hci : ci < s.par.plat.chips := inString ci List.mem_cons_self
    have swept := swept_update b ci (decide (level ≤ th ci)) u
    have variant : (u.setBoard b (updatePass (u.board b) ci (decide (level ≤ th ci)))).variantOf b = s.variantOf b := by
      rw [State.variantOf, State.board_setBoard_same, updatePass_eq, board]
      rfl
    have cfg : (u.setBoard b (updatePass (u.board b) ci (decide (level ≤ th ci)))).cfgOf b = s.cfgOf b := by
      rw [State.cfgOf, variant, State.setBoard_par, calm.inert.par]
      rfl
    have par : (u.setBoard b (updatePass (u.board b) ci (decide (level ≤ th ci)))).par = s.par := calm.inert.par
    obtain ⟨t, rest, okT, bits⟩ := ih (s := u.setBoard b (updatePass (u.board b) ci (decide (level ≤ th ci))))
      (by rw [par]; exact hc) (by rw [par]; exact fun cj h => inString cj (List.mem_cons_of_mem _ h))
      (by rw [variant, cfg]; exact admissible)
      (by rw [par, State.board_setBoard_same, board]; exact updatePass_calOk _ hc hci ok) waits
      (by rw [variant, cfg]; exact reads)
    refine ⟨t, ?_, okT, fun k => ?_⟩
    · rw [sweepChips, tested]
      exact rest
    · rw [bits, State.board_setBoard_same, updatePass_getLsbD _ (by omega), board]
      by_cases inRest : k ∈ l
      · simp [inRest]
      · by_cases this : k = ci
        · simp [this]
        · simp [inRest, this]

theorem countBits_eq_countP (p : ChipBits) (n : Nat) : countBits p n = (List.range n).countP fun k => p.getLsbD k := by
  induction n with
  | zero => rfl
  | succ n ih =>
    rw [countBits, ih, List.range_succ, List.countP_append, List.countP_singleton]
    cases p.getLsbD n <;> rfl

/-- Settles O48: `sweepChips_simulated` over the whole string; the count is that of the marked chips. -/
theorem sweepMarksTheChipsAboveThreshold : Obligations.SweepMarksTheChipsAboveThreshold := by
  intro b th s hc admissible ok waits reads
  obtain ⟨t, done, okT, bits⟩ := sweepChips_simulated (List.range s.par.plat.chips) hc
    (fun ci h => List.mem_range.mp h) admissible ok (by rwa [List.length_range]) reads
  have swept := sweepChips_swept b (List.range s.par.plat.chips) s
  rw [done] at swept
  obtain ⟨pass, awake, board⟩ := swept.board
  refine ⟨t, done, fun k hk => ?_, ?_, by rw [board], by rw [board], swept.hw, swept.jobs⟩
  · rw [bits, if_pos (List.mem_range.mpr hk), decide_eq_true_eq]
  · rw [okT.1, swept.par, countBits_eq_countP]
    apply List.countP_congr
    intro k hk
    rw [bits, if_pos hk]

/-! ## What one step leads to (R221) -/

/-- The arrows of a board's calibration between states with their levels, for a step that is told `settled`. -/
inductive CalArrow (p : Plat) (settled : Bool) : CalState → Int → CalState → Int → Prop
  | start (l : Int) : CalArrow p settled .notInitialized l .calPowerUp l
  | powered (l : Int) : CalArrow p settled .calPowerUp l .calSettle p.levelStart
  | insane (l : Int) : CalArrow p settled .calPowerUp l .calFailed p.levelStart
  | sweepNext (h : settled = true) (l : Int) : CalArrow p settled .calSettle l .calSweep l
  | unsettled (h : settled = false) (l : Int) : CalArrow p settled .calSettle l .calSettle l
  | full (l : Int) : CalArrow p settled .calSweep l .calInit (max p.levelFloor (l - p.levelMargin))
  | down (l : Int) (h : p.levelFloor < l) : CalArrow p settled .calSweep l .calSettle (l - 1)
  | someFailed (l : Int) : CalArrow p settled .calSweep l .calPartial l
  | allFailed (l : Int) : CalArrow p settled .calSweep l .calFailed l
  | handedOff (h : settled = true) (l : Int) : CalArrow p settled .calInit l .calDone l
  | handOffFailed (h : settled = true) (l : Int) : CalArrow p settled .calInit l .calFailed l
  | handOffWaits (h : settled = false) (l : Int) : CalArrow p settled .calInit l .calInit l

/-- `t` has board `b` in a state and at a level, which is the one last handed to the supply if that was true before; the
result is `Ok` in `CalDone` alone. -/
structure Lands (b : Nat) (s t : State) (st : CalState) (l : Int) : Prop where
  par : t.par = s.par
  state : (t.board b).state = st
  level : (t.board b).level = l
  handed : (s.hwOf b).supplyLevel = (s.board b).level ∨ l ≠ (s.board b).level → (t.hwOf b).supplyLevel = l
  settles : t.trace.count (.delay .settle) = s.trace.count (.delay .settle)
  ok : t.result = .ok ↔ st = .calDone

/-- A first part that keeps the level, its supply and the parameters. -/
theorem Lands.after {b : Nat} {s u t : State} {st : CalState} {l : Int} (h : Lands b u t st l) (par : u.par = s.par)
    (level : (u.board b).level = (s.board b).level) (supply : (u.hwOf b).supplyLevel = (s.hwOf b).supplyLevel)
    (settles : u.trace.count (.delay .settle) = s.trace.count (.delay .settle)) : Lands b s t st l :=
  ⟨h.par.trans par, h.state, h.level, fun k => h.handed (by rw [level, supply]; exact k), h.settles.trans settles, h.ok⟩

theorem setLevel_settles (b : Nat) (l : Int) (s : State) :
    (setLevel b l s).trace.count (.delay .settle) = s.trace.count (.delay .settle) :=
  (emit_still _ (e := .supplySetLevel b l) nofun).settles.trans (environment_still _).settles

theorem supplyEnable_settles (b : Nat) (on : Bool) (s : State) :
    (supplyEnable b on s).trace.count (.delay .settle) = s.trace.count (.delay .settle) := by
  unfold supplyEnable
  dsimp only
  split <;> exact (emit_still _ (e := .supplyEnable b on) nofun).settles.trans (environment_still s).settles

theorem relevel_lands {st : CalState} (going : st ≠ .calDone) (b : Nat) (l : Int) (s : State) :
    Lands b s (relevel b st l s) st l := by
  refine ⟨?_, by rw [relevel_board], by rw [relevel_board], fun _ => ?_, setLevel_settles b l s,
    iff_of_false (by nofun) going⟩
  · exact (supplySetLevel_inert b l _).par
  · rw [relevel_hwOf, if_pos rfl]

theorem failTotal_lands (b : Nat) (e : Raised) (s : State) :
    Lands b s (failTotal b e s) .calFailed (s.board b).level := by
  refine ⟨(supplyEnable_inert b false s).par, by rw [failTotal_board], by rw [failTotal_board], fun h => ?_,
    supplyEnable_settles b false s, iff_of_false (by nofun) (by nofun)⟩
  rw [failTotal_hwOf, if_pos rfl]
  exact h.resolve_right fun ne => ne rfl

/-- Only the state, the status and the result of a board change. -/
theorem setCal_lands (b : Nat) (st : CalState) (status : CalStatus) {r : CmdResult} (ok : r = .ok ↔ st = .calDone)
    (s : State) : Lands b s { setCal b st status s with result := r } st (s.board b).level := by
  refine ⟨rfl, ?_, ?_, fun h => h.resolve_right fun ne => ne rfl, rfl, ok⟩ <;> rw [board_result, setCal_board]

theorem setCalState_lands {st : CalState} (going : st ≠ .calDone) (b : Nat) (s : State) :
    Lands b s { setCalState b st s with result := .inProgress } st (s.board b).level := by
  refine ⟨rfl, ?_, ?_, fun h => h.resolve_right fun ne => ne rfl, rfl, iff_of_false (by nofun) going⟩ <;>
    rw [board_result, setCalState_board]

theorem calPowerUp_lands (b : Nat) (s : State) :
    ∃ st, (st = .calSettle ∨ st = .calFailed) ∧ Lands b s (calPowerUp b s) st s.par.plat.levelStart
      ∧ ((calPowerUp b s).hwOf b).supplyLevel = s.par.plat.levelStart := by
  have board := (supplySane_inert b (powerUpCalls b s)).board b
  rw [powerUpCalls_board] at board
  have level : ((supplySane b (powerUpCalls b s)).2.board b).level = s.par.plat.levelStart := by rw [board]
  have supply : ((supplySane b (powerUpCalls b s)).2.hwOf b).supplyLevel = s.par.plat.levelStart := by
    rw [hwOf_congr (supplySane_still b _).hw, powerUpCalls_hwOf, if_pos rfl]
  have par : (supplySane b (powerUpCalls b s)).2.par = s.par :=
    (supplySane_inert b _).par.trans ((supplyEnable_inert b true _).par.trans
      ((supplySetLevel_inert b _ _).par.trans (clockEnable_inert b false s).par))
  have settles : (supplySane b (powerUpCalls b s)).2.trace.count (.delay .settle) = s.trace.count (.delay .settle) :=
    (supplySane_still b _).settles.trans ((supplyEnable_settles b true _).trans
      ((setLevel_settles b _ _).trans (clockEnable_supplied b false s).settles))
  have lift {t : State} {st : CalState}
      (h : Lands b (supplySane b (powerUpCalls b s)).2 t st ((supplySane b (powerUpCalls b s)).2.board b).level) :
      Lands b s t st s.par.plat.levelStart ∧ (t.hwOf b).supplyLevel = s.par.plat.levelStart := by
    rw [level] at h
    have handed := h.handed (.inl (supply.trans level.symm))
    exact ⟨⟨h.par.trans par, h.state, h.level, fun _ => handed, h.settles.trans settles, h.ok⟩, handed⟩
  rw [calPowerUp_eq]
  split
  · exact ⟨_, .inl rfl, lift (setCalState_lands (by nofun) b _)⟩
  · exact ⟨_, .inr rfl, lift (failTotal_lands b _ _)⟩

/-- A sweep leads on as the decision says, or fails with a transfer error (R237). -/
theorem calSweep_lands (settled : Bool) (b : Nat) (s : State) :
    ∃ st l, CalArrow s.par.plat settled .calSweep (s.board b).level st l ∧ Lands b s (calSweep b s) st l := by
  have swept := sweepChips_swept b (List.range s.par.plat.chips) s
  unfold calSweep
  rcases h : sweepChips b (List.range s.par.plat.chips) s with ⟨e | a, u⟩ <;> rw [h] at swept
  all_goals
    obtain ⟨pass, awake, board⟩ := swept.board
    have level : (u.board b).level = (s.board b).level := by rw [board]
    have lift {t : State} {st : CalState} {l : Int} (h : Lands b u t st l) : Lands b s t st l :=
      h.after swept.par level (by rw [hwOf_congr swept.hw]) swept.settles
  · exact ⟨_, _, .allFailed _, level ▸ lift (failTotal_lands b e u)⟩
  · show ∃ st l, _ ∧ Lands b s (decideSweep b u) st l
    rw [← swept.par, ← level]
    obtain ⟨-, e⟩ | ⟨-, above, e⟩ | ⟨-, -, -, e⟩ | ⟨-, -, -, e⟩ := decideSweep_cases b u <;> rw [e]
    · exact ⟨_, _, .full _, lift (relevel_lands (by nofun) b _ u)⟩
    · exact ⟨_, _, .down _ above, lift (relevel_lands (by nofun) b _ u)⟩
    · exact ⟨_, _, .allFailed _, lift (failTotal_lands b _ u)⟩
    · exact ⟨_, _, .someFailed _, lift (setCal_lands b .calPartial _ (iff_of_false (by nofun) (by nofun)) u)⟩

theorem calHandOff_lands (settled : Bool) {b : Nat} {s : State} (state : (s.board b).state = .calInit) :
    ∃ st l, CalArrow s.par.plat settled .calInit (s.board b).level st l ∧ Lands b s (calHandOff b settled s) st l := by
  have init := deviceInit_supplied b s
  unfold calHandOff
  split
  · rename_i told
    rcases h : deviceInit b s with ⟨e | a, u⟩ <;> rw [h] at init
    all_goals
      have level : (u.board b).level = (s.board b).level := by rw [init.inert.board]
      have lift {t : State} {st : CalState} (h : Lands b u t st (u.board b).level) :
          Lands b s t st (s.board b).level :=
        level ▸ h.after init.inert.par level (init.supplyLevel b) init.settles
    · exact ⟨_, _, .handOffFailed told _, lift (failTotal_lands b e u)⟩
    · exact ⟨_, _, .handedOff told _, lift (setCal_lands b .calDone .ok (iff_of_true rfl rfl) u)⟩
  · rename_i told
    exact ⟨_, _, .handOffWaits (by simpa using told) _, rfl, state, rfl,
      fun h => h.resolve_right fun ne => ne rfl, rfl, iff_of_false (by nofun) (by nofun)⟩

theorem calSettle_lands (settled : Bool) {b : Nat} {s : State} (state : (s.board b).state = .calSettle) :
    ∃ st l, CalArrow s.par.plat settled .calSettle (s.board b).level st l ∧ Lands b s (calSettle b settled s) st l := by
  unfold calSettle
  split
  · rename_i told
    exact ⟨_, _, .sweepNext told _, setCalState_lands (by nofun) b s⟩
  · rename_i told
    exact ⟨_, _, .unsettled (by simpa using told) _, rfl, state, rfl,
      fun h => h.resolve_right fun ne => ne rfl, rfl, iff_of_false (by nofun) (by nofun)⟩

theorem calStart_lands (b : Nat) (s : State) : Lands b s (calStart b s) .calPowerUp (s.board b).level := by
  refine ⟨rfl, ?_, ?_, fun h => h.resolve_right fun ne => ne rfl, rfl, iff_of_false (by nofun) (by nofun)⟩ <;>
    rw [calStart, board_result, State.board_setBoard_same]

/-- A step in a state that is not terminal follows one arrow. -/
theorem calStep_lands (settled : Bool) {b : Nat} {s : State} (going : calTerminal (s.board b).state = false) :
    ∃ st l, CalArrow s.par.plat settled (s.board b).state (s.board b).level st l
      ∧ Lands b s (calStep b settled s) st l
      ∧ ((s.board b).state = .calPowerUp → ((calStep b settled s).hwOf b).supplyLevel = l) := by
  unfold calStep
  cases state : (s.board b).state with
  | notInitialized => exact ⟨_, _, .start _, calStart_lands b s, nofun⟩
  | calPowerUp =>
    obtain ⟨st, rfl | rfl, lands, supply⟩ := calPowerUp_lands b s
    · exact ⟨_, _, .powered _, lands, fun _ => supply⟩
    · exact ⟨_, _, .insane _, lands, fun _ => supply⟩
  | calSettle =>
    obtain ⟨st, l, arrow, lands⟩ := calSettle_lands settled state
    exact ⟨st, l, arrow, lands, nofun⟩
  | calSweep =>
    obtain ⟨st, l, arrow, lands⟩ := calSweep_lands settled b s
    exact ⟨st, l, arrow, lands, nofun⟩
  | calInit =>
    obtain ⟨st, l, arrow, lands⟩ := calHandOff_lands settled state
    exact ⟨st, l, arrow, lands, nofun⟩
  | calDone | calPartial | calFailed => rw [state] at going; cases going

/-! ## The level stays between floor and start (R39) -/

/-- Only the level, the state and the supply level of the board count. -/
theorem levelOk_congr {s t : State} {b : Nat} (h : levelOk s b) (par : t.par = s.par) (board : t.board b = s.board b)
    (supply : (t.hwOf b).supplyLevel = (s.hwOf b).supplyLevel) : levelOk t b := by
  unfold levelOk
  rw [par, board, supply]
  exact h

/-- An arrow keeps the level between floor and start, and past power-up never raises it. -/
theorem calArrow_level {p : Plat} {settled : Bool} {st st' : CalState} {l l' : Int} (arrow : CalArrow p settled st l st' l')
    (floor : p.levelFloor ≤ p.levelStart) (margin : 0 ≤ p.levelMargin)
    (ok : st ≠ .notInitialized → st ≠ .calPowerUp → p.levelFloor ≤ l ∧ l ≤ p.levelStart) :
    (st' ≠ .calPowerUp → p.levelFloor ≤ l' ∧ l' ≤ p.levelStart) ∧ (st ≠ .calPowerUp → l' ≤ l) := by
  cases arrow with
  | start => exact ⟨fun h => absurd rfl h, fun _ => le_refl _⟩
  | powered | insane => exact ⟨fun _ => ⟨floor, le_refl _⟩, fun h => absurd rfl h⟩
  | sweepNext | unsettled | someFailed | allFailed | handedOff | handOffFailed | handOffWaits =>
    exact ⟨fun _ => ok nofun nofun, fun _ => le_refl _⟩
  | full =>
    obtain ⟨low, high⟩ := ok nofun nofun
    exact ⟨fun _ => ⟨le_max_left _ _, max_le floor (by omega)⟩, fun _ => max_le low (by omega)⟩
  | down _ above =>
    obtain ⟨low, high⟩ := ok nofun nofun
    exact ⟨fun _ => ⟨Int.le_sub_one_of_lt above, by omega⟩, fun _ => by omega⟩

/-- A calibration step keeps a good level good, and past power-up does not raise it. -/
theorem calStep_level {b : Nat} {s : State} (settled : Bool) (floor : s.par.plat.levelFloor ≤ s.par.plat.levelStart)
    (margin : 0 ≤ s.par.plat.levelMargin) (ok : levelOk s b) :
    levelOk (calStep b settled s) b
      ∧ ((s.board b).state ≠ .calPowerUp → ((calStep b settled s).board b).level ≤ (s.board b).level) := by
  cases terminal : calTerminal (s.board b).state with
  | true =>
    have stays : calStep b settled s = s := by
      unfold calStep
      cases state : (s.board b).state <;> simp [state, calTerminal] at terminal <;> rfl
    rw [stays]
    exact ⟨ok, fun _ => le_refl _⟩
  | false =>
    obtain ⟨st, l, arrow, lands, powered⟩ := calStep_lands settled terminal
    obtain ⟨kept, down⟩ := calArrow_level arrow floor margin fun h k => ⟨(ok h k).1, (ok h k).2.1⟩
    refine ⟨fun _ past => ?_, fun h => by rw [lands.level]; exact down h⟩
    rw [lands.state] at past
    rw [lands.par, lands.level]
    refine ⟨(kept past).1, (kept past).2, ?_⟩
    by_cases powerUp : (s.board b).state = .calPowerUp
    · exact powered powerUp
    · by_cases fresh : (s.board b).state = .notInitialized
      · rw [fresh] at arrow
        cases arrow
        exact absurd rfl past
      · exact lands.handed (.inl (ok fresh powerUp).2.2)

/-! ## The blocking calibration (R220, R242) -/

/-- A turn in a state that is not terminal is a step that is told the supply has settled, after a settle wait where the
state asks for one. -/
theorem calTurn_eq {b : Nat} {s : State} (going : calTerminal (s.board b).state = false) :
    ∃ u, calTurn b s = calStep b true u ∧ u.par = s.par ∧ u.board b = s.board b ∧ u.hwOf b = s.hwOf b
      ∧ u.trace.count (.delay .settle) = s.trace.count (.delay .settle)
          + (if (s.board b).state = .calSettle ∨ (s.board b).state = .calInit then 1 else 0) := by
  have waited : (delay .settle s).trace.count (.delay .settle) = s.trace.count (.delay .settle) + 1 := by
    have before := (environment_still s).settles
    rw [delay, State.emit_trace, List.count_append, before]
    rfl
  have calm := delay_settle_calm s
  unfold calTurn
  cases state : (s.board b).state with
  | notInitialized | calPowerUp | calSweep => exact ⟨s, rfl, rfl, rfl, rfl, rfl⟩
  | calSettle | calInit =>
    exact ⟨_, rfl, calm.inert.par, calm.inert.board b, hwOf_congr calm.hw b, waited⟩
  | calDone | calPartial | calFailed => rw [state] at going; cases going

theorem calTurn_level {b : Nat} {s : State} (floor : s.par.plat.levelFloor ≤ s.par.plat.levelStart)
    (margin : 0 ≤ s.par.plat.levelMargin) (ok : levelOk s b) : levelOk (calTurn b s) b := by
  cases terminal : calTerminal (s.board b).state with
  | true =>
    have stays : calTurn b s = s := by
      unfold calTurn
      cases state : (s.board b).state <;> simp [state, calTerminal] at terminal <;> rfl
    rw [stays]
    exact ok
  | false =>
    obtain ⟨u, turn, par, board, hw, -⟩ := calTurn_eq terminal
    rw [turn]
    exact (calStep_level true (by rw [par]; exact floor) (by rw [par]; exact margin)
      (levelOk_congr ok par board (by rw [hw]))).1

theorem calLoop_level {b : Nat} (n : Nat) {s : State} (floor : s.par.plat.levelFloor ≤ s.par.plat.levelStart)
    (margin : 0 ≤ s.par.plat.levelMargin) (ok : levelOk s b) : levelOk (calLoop b n s) b := by
  induction n generalizing s with
  | zero => exact ok
  | succ n ih =>
    have par := (calTurn_within (m := none) b s).par
    rw [calLoop_succ]
    split
    · exact ok
    · exact ih (by rw [par]; exact floor) (by rw [par]; exact margin) (calTurn_level floor margin ok)

/-- The turns a board can still take: a settle and a sweep for each level down to the floor, and the hand-off. -/
def turnsLeft (p : Plat) (l : Int) : CalState → Nat
  | .notInitialized => 2 * ((p.levelStart - p.levelFloor).toNat + 1) + 3
  | .calPowerUp => 2 * ((p.levelStart - p.levelFloor).toNat + 1) + 2
  | .calSettle => 2 * ((l - p.levelFloor).toNat + 1) + 1
  | .calSweep => 2 * ((l - p.levelFloor).toNat + 1)
  | .calInit => 1
  | .calDone | .calPartial | .calFailed => 0

/-- The settle waits it can still make. -/
def settlesLeft (p : Plat) (l : Int) : CalState → Nat
  | .notInitialized | .calPowerUp => (p.levelStart - p.levelFloor).toNat + 2
  | .calSettle => (l - p.levelFloor).toNat + 2
  | .calSweep => (l - p.levelFloor).toNat + 1
  | .calInit => 1
  | .calDone | .calPartial | .calFailed => 0

/-- Every turn is one less, and every settle wait was counted. -/
theorem calArrow_progress {p : Plat} {st st' : CalState} {l l' : Int} (arrow : CalArrow p true st l st' l') :
    turnsLeft p l' st' < turnsLeft p l st
      ∧ settlesLeft p l' st' + (if st = .calSettle ∨ st = .calInit then 1 else 0) ≤ settlesLeft p l st := by
  cases arrow with
  | unsettled h | handOffWaits h => cases h
  | down _ above =>
    simp only [turnsLeft, settlesLeft]
    constructor
    · omega
    · simp; omega
  | full =>
    simp only [turnsLeft, settlesLeft]
    constructor
    · omega
    · simp
  | start | powered | insane | sweepNext | someFailed | allFailed | handedOff | handOffFailed =>
    simp [turnsLeft, settlesLeft]

/-- The blocking calibration ends in a terminal state, `CalDone` with `Ok` alone, within the settle waits it had left. -/
theorem calLoop_ends {b : Nat} (n : Nat) {s : State} (fuel : turnsLeft s.par.plat (s.board b).level (s.board b).state ≤ n)
    (ended : calTerminal (s.board b).state = true → ((s.board b).state = .calDone ↔ s.result = .ok)) :
    calTerminal ((calLoop b n s).board b).state = true
      ∧ (((calLoop b n s).board b).state = .calDone ↔ (calLoop b n s).result = .ok)
      ∧ (calLoop b n s).trace.count (.delay .settle)
          ≤ s.trace.count (.delay .settle) + settlesLeft s.par.plat (s.board b).level (s.board b).state := by
  induction n generalizing s with
  | zero =>
    have terminal : calTerminal (s.board b).state = true := by
      revert fuel
      cases (s.board b).state <;> simp [turnsLeft, calTerminal]
    exact ⟨terminal, ended terminal, Nat.le_add_right _ _⟩
  | succ n ih =>
    rw [calLoop_succ]
    cases terminal : calTerminal (s.board b).state with
    | true =>
      rw [if_pos rfl]
      exact ⟨terminal, ended terminal, Nat.le_add_right _ _⟩
    | false =>
      rw [if_neg Bool.false_ne_true]
      obtain ⟨u, turn, par, board, hw, waits⟩ := calTurn_eq terminal
      obtain ⟨st, l, arrow, lands, -⟩ := calStep_lands true (by rw [board]; exact terminal)
      rw [par, board] at arrow
      obtain ⟨fewer, counted⟩ := calArrow_progress arrow
      rw [← turn] at lands
      obtain ⟨done, ok, settles⟩ := ih (s := calTurn b s)
        (by rw [lands.par, par, lands.level, lands.state]; omega) (fun _ => by rw [lands.state, lands.ok])
      refine ⟨done, ok, settles.trans ?_⟩
      rw [lands.settles, waits, lands.par, par, lands.level, lands.state]
      omega

/-- Settles O49: the ramp by `calLoop_ends`; the hand-off by its three arms. -/
theorem calibrationTerminates : Obligations.CalibrationTerminates := by
  refine ⟨fun b s floor inRange present fresh => ?_, fun b s inRange present state => ?_⟩
  · have admitted : admits (.calibrateString b) s = true := by simp [admits, fresh]
    refine ⟨_, by
      rw [runCommand_calibrateString, guarded_of_admits admitted,
        checked_of_none (checkBoard_of_present inRange present)], ?_⟩
    obtain ⟨terminal, ok, settles⟩ := calLoop_ends (b := b) (calFuel s.par.plat) (s := s)
      (by rw [fresh]; exact le_refl _) (by rw [fresh]; nofun)
    refine ⟨by simpa [calTerminal] using terminal, ok, ?_⟩
    rw [fresh] at settles
    exact settles
  · have step (settled : Bool) := calibrationStep_eq settled inRange present (by rw [state]; rfl)
    simp only [calStep, state] at step
    have others (b' : Nat) (other : b' ≠ b) := within_board_other (calHandOff_within (m := none) b true s) other
    have init := (deviceInit_supplied b s).inert
    refine ⟨step false, fun u done => ⟨_, step true, ?_⟩, fun e u failed => ⟨_, step true, ?_⟩⟩
    · rw [done] at init
      rw [calHandOff, if_pos rfl, done] at others ⊢
      exact ⟨by rw [board_result, setCal_board, init.board], rfl, rfl, rfl, init.jobs, others⟩
    · rw [failed] at init
      rw [calHandOff, if_pos rfl, failed] at others ⊢
      exact ⟨by rw [failTotal_board, init.board], by rw [failTotal_result, init.board],
        (failTotal_hwOf ..).trans (if_pos rfl), (supplyEnable_inert b false u).jobs.trans init.jobs, others⟩

/-! ## Every step of the machine -/

/-- A command on board `b` that may write its calibration state keeps a good level good. -/
theorem runCommand_level {c : Command} {b : Nat} {s t : State} (names : boardOf c = some b)
    (h : runCommand c s = .next t) (floor : s.par.plat.levelFloor ≤ s.par.plat.levelStart)
    (margin : 0 ≤ s.par.plat.levelMargin) (ok : levelOk s b) : levelOk t b := by
  have restarted {u : State} (fresh : (u.board b).state = .notInitialized) : levelOk u b :=
    fun past => absurd fresh past
  have whenChecked {u : State} (h : levelOk u b) : levelOk (checked b s u) b := by
    unfold checked
    split
    · exact ok
    · exact h
  cases c with
  | boardDetect i present v =>
    obtain rfl : i = b := Option.some.inj names
    change cmdBoardDetect i present v s = _ at h
    unfold cmdBoardDetect at h
    split at h <;> cases h
    · exact ok
    · exact restarted (congrArg BoardCal.state (State.board_setBoard_same ..))
  | boardReset i =>
    obtain rfl : i = b := Option.some.inj names
    rw [runCommand_boardReset] at h
    cases h
    exact whenChecked (restarted (congrArg BoardCal.state (State.board_setBoard_same ..)))
  | calibrateString i =>
    obtain rfl : i = b := Option.some.inj names
    obtain ⟨-, rfl⟩ := guarded_next (runCommand_calibrateString i s ▸ h)
    exact whenChecked (calLoop_level _ floor margin ok)
  | calibrationStep i settled =>
    obtain rfl : i = b := Option.some.inj names
    obtain ⟨-, rfl⟩ := guarded_next (runCommand_calibrationStep i settled s ▸ h)
    exact whenChecked (calStep_level settled floor margin ok).1
  | encode | decode | transfer | preload | preloadJob | startJob | waitPoll | readSolution | waitAndReadSolution
    | jobReset | initializeDevice | buildOscillatorRegister => cases names

theorem runMove_level {mv : Move} {b : Nat} {s t : State} (names : tunedBoard mv = some b) (h : runMove mv s = .next t)
    (ok : levelOk s b) : levelOk t b := by
  have tuned (c : Nat) (d : Divider) (bias : Bias) : levelOk (s.setBoard b ((s.board b).tuned c d bias)) b := by
    unfold levelOk
    rw [State.board_setBoard_same]
    exact ok
  cases mv with
  | env e => cases names
  | tune i c d bias =>
    obtain rfl : i = b := Option.some.inj names
    obtain ⟨-, rfl⟩ := moveTune_next i c d bias s t h
    exact tuned c d bias
  | restore i c d bias =>
    obtain rfl : i = b := Option.some.inj names
    obtain ⟨-, rfl⟩ := moveRestore_next i c d bias s t h
    exact tuned c d bias

/-- Settles O50: a step leaves a board alone that its event does not name (`step_within`). -/
theorem levelStaysBetweenFloorAndStart : Obligations.LevelStaysBetweenFloorAndStart := by
  intro s t b floor margin h
  refine ⟨fun ok => ?_, fun ok settled rest pending past => ?_⟩
  · by_cases owned : State.ownedBoard s = some b
    · obtain ⟨-, rfl⟩ | ⟨i, bytes, rest, j, pending, -, -⟩ | ⟨c, rest, pending, run⟩ | ⟨mv, rest, pending, run⟩ :=
        step_cases h
      · exact ok
      · simp [State.ownedBoard, pending] at owned
      · exact runCommand_level (by simpa [State.ownedBoard, pending] using owned) run floor margin ok
      · exact runMove_level (by simpa [State.ownedBoard, pending] using owned) run ok
    · have within := step_within h
      exact levelOk_congr ok within.par (within.board b owned) (within.supplyLevel b owned)
  · rw [step_of_command pending, runCommand_calibrationStep] at h
    obtain ⟨-, rfl⟩ := guarded_next h
    unfold checked
    split
    · exact le_refl _
    · exact (calStep_level (s := { s with pending := rest }) settled floor margin ok).2 past

/-- Settles O51: of the events that own the board, the moves write one chip's divider and bias (`moveTune_next`). -/
theorem calibrationStateHasOneOwner : Obligations.CalibrationStateHasOneOwner := by
  intro s t b h
  by_cases owned : State.ownedBoard s = some b
  · obtain ⟨-, rfl⟩ | ⟨i, bytes, rest, j, pending, -, -⟩ | ⟨c, rest, pending, run⟩ | ⟨mv, rest, pending, run⟩ :=
      step_cases h
    · exact .inl rfl
    · simp [State.ownedBoard, pending] at owned
    · exact .inr (.inl ⟨c, rest, pending, by simpa [State.ownedBoard, pending] using owned⟩)
    · have names : tunedBoard mv = some b := by simpa [State.ownedBoard, pending] using owned
      have write (c : Nat) (d : Divider) (bias : Bias) :
          ∀ k, ((s.board b).tuned c d bias).divOf k = (if k = c then d else (s.board b).divOf k)
            ∧ ((s.board b).tuned c d bias).biasOf k = (if k = c then bias else (s.board b).biasOf k) :=
        fun k => ⟨BoardCal.tuned_divOf .., BoardCal.tuned_biasOf ..⟩
      cases mv with
      | env e => cases names
      | tune i c d bias =>
        obtain rfl : i = b := Option.some.inj names
        obtain ⟨⟨-, present, -, done⟩, rfl⟩ := moveTune_next i c d bias _ t run
        refine .inr (.inr ⟨c, d, bias, rest, _, _, .inl ⟨pending, done⟩, present, State.board_setBoard_same .., ?_⟩)
        rw [State.board_setBoard_same]
        exact write c d bias
      | restore i c d bias =>
        obtain rfl : i = b := Option.some.inj names
        obtain ⟨⟨-, present, -, fresh⟩, rfl⟩ := moveRestore_next i c d bias _ t run
        refine .inr (.inr ⟨c, d, bias, rest, _, _, .inr ⟨pending, fresh⟩, present, State.board_setBoard_same .., ?_⟩)
        rw [State.board_setBoard_same]
        exact write c d bias
  · exact .inl ((step_within h).board b owned)

end Sys2Proof
end

section
/-! A wire frame on the bus: the wait for an idle bus, then a transaction that needs no further answer when it is a
write and one answer of the back end when it is a read. Each outcome is written out once (`busWrite_of_wait`,
`busRead_answered`, `busRead_timedOut`, `busWait_eq`); what a frame leaves alone is `BusOnly`. -/

namespace Sys2Proof

open Sys2Proof.Machine

/-! ## The bus acquired (R144 to R146) -/

/-- The effect of the multiplexer set only where the memo differs. -/
def muxTrace (s : State) : List Effect :=
  if s.mux = .asic then [] else [.muxSet .asic]

/-- The state in which a transaction has the bus. -/
def acquired (b : Nat) (tx : List Byte) (s : State) : State :=
  { s with
    mux := .asic
    route := if s.mux = .asic then s.route else .asic
    cs := Store.putD false s.cs b true
    txbuf := tx
    trace := s.trace ++ muxTrace s ++ [.csAssert b] }

theorem opened_eq_acquired (b : Nat) (tx : List Byte) (s : State) :
    { assertCs b (routeMux s) with txbuf := tx } = acquired b tx s := by
  unfold acquired routeMux muxTrace
  by_cases memo : s.mux = .asic
  · rw [if_pos memo, if_pos memo, if_pos memo, List.append_nil, ← memo]
    rfl
  · rw [if_neg memo, if_neg memo, if_neg memo]
    rfl

/-- A write started and left in flight (R148). -/
def started (b : Nat) (v : Variant) (tx : List Byte) (s : State) : State :=
  { acquired b tx s with
    inflight := some ⟨b, tx⟩
    rxbuf := rxBytes v (Config.freeRx s.draws)
    draws := s.draws + 1
    trace := (acquired b tx s).trace ++ [.xferStart b tx] }

/-- A read answered with `rx` (R147). -/
def readAnswered (b : Nat) (v : Variant) (shift : Nat) (tx : List Byte) (rx : Rx) (s : State) : State :=
  { s with
    rxbuf := rxBytes v rx
    f := { s.f with data := (decodedRead v shift rx).toNat }
    cs := Store.putD false s.cs b false
    trace := s.trace ++ [.xferSync b tx (some (rxBytes v rx))] }

/-- A read whose back end has timed out, before its recovery (R147). -/
def readTimedOut (b : Nat) (v : Variant) (tx : List Byte) (s : State) : State :=
  { s with
    rxbuf := rxBytes v (Config.freeRx s.draws)
    draws := s.draws + 1
    trace := s.trace ++ [.xferSync b tx none] }

theorem openBus_of_wait {s t : State} (wait : busWait s = (true, t)) (b : Nat) (tx : List Byte) :
    openBus b tx s = (true, acquired b tx t) := by
  rw [← opened_eq_acquired, openBus, wait]

theorem busWrite_of_wait {s t : State} (wait : busWait s = (true, t)) (b : Nat) (v : Variant) (tx : List Byte) :
    busWrite b v tx s = (.ok (), started b v tx t) := by
  rw [busWrite, openBus_of_wait wait]
  rfl

theorem busWrite_of_expired {s t : State} (wait : busWait s = (false, t)) (b : Nat) (v : Variant) (tx : List Byte) :
    busWrite b v tx s = (.error raisedBusy, t) := by
  rw [busWrite, openBus, wait]

theorem busRead_answered {s t u : State} {rx : Rx} {b : Nat} {tx : List Byte} (wait : busWait s = (true, t))
    (answer : drawRx (acquired b tx t) = (some rx, u)) (v : Variant) (shift : Nat) :
    busRead b v shift tx s = (.ok (decodedRead v shift rx), readAnswered b v shift tx rx u) := by
  rw [busRead, openBus_of_wait wait]
  simp only [answer, readData_rxBytes]
  rfl

theorem busRead_timedOut {s t u : State} {b : Nat} {tx : List Byte} (wait : busWait s = (true, t))
    (answer : drawRx (acquired b tx t) = (none, u)) (v : Variant) (shift : Nat) :
    busRead b v shift tx s = (.error raisedBusy, recovery (readTimedOut b v tx u)) := by
  rw [busRead, openBus_of_wait wait]
  simp only [answer]
  rfl

theorem busRead_of_expired {s t : State} (wait : busWait s = (false, t)) (b : Nat) (v : Variant) (shift : Nat)
    (tx : List Byte) : busRead b v shift tx s = (.error raisedBusy, t) := by
  rw [busRead, openBus, wait]

theorem lookD_putD_cs (cs : Store Bool) (b : Nat) (on : Bool) (b' : Nat) :
    Store.lookD false (Store.putD false cs b on) b' = if b' = b then on else Store.lookD false cs b' := by
  split
  · next h => rw [h, Store.lookD_putD_same]
  · next h => exact Store.lookD_putD_other _ _ _ _ _ h

/-! ## The wait (R142) and the recovery (R305) -/

theorem busHeld_of_idle {s : State} (h : busIdle s) : s.busHeld = false := by
  rw [State.busHeld, h.1, h.2]
  rfl

/-- An idle bus ends the wait at once. -/
theorem busWait_of_idle {s : State} (h : busIdle s) : busWait s = (true, s) := by
  rw [busWait, if_pos (busHeld_of_idle h)]

theorem busWait_of_held {s : State} {a : Bool} {rest : List Bool} (held : s.busHeld = true)
    (answer : s.waitAnswers = a :: rest) :
    busWait s =
      if a then (true, { land { s with waitAnswers := rest } with otherHolds := false })
      else (false, recovery { s with waitAnswers := rest }) := by
  rw [busWait, if_neg (by rw [held]; exact Bool.noConfusion), drawWait, answer]

/-- What a recovery does: no chip-select is set, nothing is in flight, and an abandoned write has reached its
registers or not. -/
theorem recovery_eq (s : State) :
    ∃ answers draws,
      recovery s = { s with
        inflight := none, cs := [], landAnswers := answers, draws := draws
        trace := s.trace ++ (List.range s.par.plat.boards).map .csDeassert }
      ∨ ∃ fl, s.inflight = some fl ∧
        recovery s = { s with
          inflight := none, cs := [], landAnswers := answers, draws := draws, regs := deliverBytes s fl
          trace := s.trace ++ [.landed fl.board fl.bytes (s.reaches fl.board)]
            ++ (List.range s.par.plat.boards).map .csDeassert } := by
  cases flying : s.inflight with
  | none =>
    have stays : abandon s = s := by simp only [abandon, flying]
    refine ⟨s.landAnswers, s.draws, .inl ?_⟩
    rw [recovery, stays, ← flying]
  | some fl =>
    have draw : ∃ a answers draws, drawLand s = (a, { s with landAnswers := answers, draws := draws }) := by
      cases h : s.landAnswers with
      | nil => exact ⟨Config.freeLand s.draws, s.landAnswers, s.draws + 1, by simp only [drawLand, h]⟩
      | cons a as => exact ⟨a, as, s.draws, by simp only [drawLand, h]⟩
    obtain ⟨a, answers, draws, draw⟩ := draw
    refine ⟨answers, draws, ?_⟩
    simp only [recovery, abandon, flying, draw]
    cases a with
    | false => exact .inl rfl
    | true => exact .inr ⟨fl, rfl, rfl⟩

/-! ## What a transaction leaves alone (R150) -/

theorem sameBesidesBus_trans {s t u : State} (h : sameBesidesBus s t) (k : sameBesidesBus t u) : sameBesidesBus s u := by
  obtain ⟨par, pending, jobs, cal, hw, between, done, nonce, sane⟩ := h
  obtain ⟨par', pending', jobs', cal', hw', between', done', nonce', sane'⟩ := k
  exact ⟨par'.trans par, pending'.trans pending, jobs'.trans jobs, cal'.trans cal, hw'.trans hw, between'.trans between,
    done'.trans done, nonce'.trans nonce, sane'.trans sane⟩

theorem sameBesidesBus_refl (s : State) : sameBesidesBus s s :=
  ⟨rfl, rfl, rfl, rfl, rfl, rfl, rfl, rfl, rfl⟩

/-- Only bus state changes; of the registers those that the write in flight addresses, if it is delivered. -/
structure BusOnly (s t : State) : Prop where
  same : sameBesidesBus s t
  regs : t.regs = s.regs ∨ ∃ fl, s.inflight = some fl ∧ t.regs = deliverBytes s fl

theorem busOnly_of_regs {s t : State} (same : sameBesidesBus s t) (regs : t.regs = s.regs) : BusOnly s t :=
  ⟨same, .inl regs⟩

/-- Once nothing is in flight the registers stay. -/
theorem busOnly_trans_idle {s t u : State} (h : BusOnly s t) (none : t.inflight = none) (k : BusOnly t u) :
    BusOnly s u := by
  refine ⟨sameBesidesBus_trans h.same k.same, ?_⟩
  obtain stays | ⟨fl, flying, -⟩ := k.regs
  · rw [stays]
    exact h.regs
  · rw [none] at flying
    cases flying

theorem recovery_busOnly (s : State) : BusOnly s (recovery s) := by
  obtain ⟨answers, draws, e | ⟨fl, flying, e⟩⟩ := recovery_eq s <;> rw [e]
  · exact ⟨sameBesidesBus_refl s, .inl rfl⟩
  · exact ⟨sameBesidesBus_refl s, .inr ⟨fl, flying, rfl⟩⟩

theorem land_busOnly (s : State) : BusOnly s (land s) := by
  obtain ⟨-, e⟩ | ⟨fl, flying, e⟩ := land_cases s <;> rw [e]
  · exact ⟨sameBesidesBus_refl s, .inl rfl⟩
  · exact ⟨sameBesidesBus_refl s, .inr ⟨fl, flying, rfl⟩⟩

theorem drawWait_eq (s : State) :
    ∃ a answers draws, drawWait s = (a, { s with waitAnswers := answers, draws := draws }) := by
  cases h : s.waitAnswers with
  | nil => exact ⟨Config.freeWait s.draws, s.waitAnswers, s.draws + 1, by simp only [drawWait, h]⟩
  | cons a as => exact ⟨a, as, s.draws, by simp only [drawWait, h]⟩

theorem drawRx_eq (s : State) : ∃ a answers draws, drawRx s = (a, { s with rxAnswers := answers, draws := draws }) := by
  cases h : s.rxAnswers with
  | nil => exact ⟨Config.freeRxAnswer s.draws, s.rxAnswers, s.draws + 1, by simp only [drawRx, h]⟩
  | cons a as => exact ⟨a, as, s.draws, by simp only [drawRx, h]⟩

/-- After the wait the bus is the transaction's, or released by a recovery. -/
theorem busWait_eq (s : State) :
    ∃ a t, busWait s = (a, t) ∧ BusOnly s t ∧ t.inflight = none ∧ t.f = s.f
      ∧ (a = true ∨ (a = false ∧ t.cs = [])) := by
  obtain ⟨a, answers, draws, draw⟩ := drawWait_eq s
  obtain ⟨idle, e⟩ | ⟨-, -, e⟩ | ⟨-, -, e⟩ := busWait_cases s
  · obtain ⟨same, regs⟩ : busIdle s := by simpa [State.busHeld, busIdle] using idle
    exact ⟨true, s, e, busOnly_of_regs (sameBesidesBus_refl s) rfl, same, rfl, .inl rfl⟩
  · rw [draw] at e
    have landed := land_busOnly { s with waitAnswers := answers, draws := draws }
    exact ⟨true, _, e, ⟨landed.same, landed.regs⟩, land_inflight _, (land_frame _).f, .inl rfl⟩
  · rw [draw] at e
    have recovered := recovery_busOnly { s with waitAnswers := answers, draws := draws }
    obtain ⟨cs, inflight⟩ := recovery_bus { s with waitAnswers := answers, draws := draws }
    refine ⟨false, _, e, ⟨recovered.same, recovered.regs⟩, inflight, ?_, .inr ⟨rfl, cs⟩⟩
    obtain ⟨la, dr, e' | ⟨fl, -, e'⟩⟩ := recovery_eq { s with waitAnswers := answers, draws := draws } <;> exact e' ▸ rfl

/-! ## The outcomes of a transaction -/

/-- A write is started, or `Busy` with the bus released. -/
theorem busWrite_outcomes (b : Nat) (v : Variant) (tx : List Byte) (s : State) :
    ∃ t, BusOnly s t
      ∧ ((busWrite b v tx s = (.ok (), t) ∧ t.inflight = some ⟨b, tx⟩)
        ∨ (busWrite b v tx s = (.error raisedBusy, t) ∧ t.inflight = none ∧ t.cs = [])) := by
  obtain ⟨a, t, wait, only, inflight, -, rfl | ⟨rfl, cs⟩⟩ := busWait_eq s
  · exact ⟨started b v tx t, busOnly_trans_idle only inflight ⟨sameBesidesBus_refl t, .inl rfl⟩,
      .inl ⟨busWrite_of_wait wait b v tx, rfl⟩⟩
  · exact ⟨t, only, .inr ⟨busWrite_of_expired wait b v tx, inflight, cs⟩⟩

/-- A read is answered, or `Busy` with the bus released. -/
theorem busRead_outcomes (b : Nat) (v : Variant) (shift : Nat) (tx : List Byte) (s : State) :
    ∃ t, BusOnly s t ∧ t.inflight = none
      ∧ ((∃ rx, busRead b v shift tx s = (.ok (decodedRead v shift rx), t))
        ∨ (busRead b v shift tx s = (.error raisedBusy, t) ∧ t.cs = [])) := by
  obtain ⟨a, t, wait, only, inflight, -, rfl | ⟨rfl, cs⟩⟩ := busWait_eq s
  · obtain ⟨rx | rx, answers, draws, draw⟩ := drawRx_eq (acquired b tx t)
    · have sent : BusOnly s (readTimedOut b v tx { acquired b tx t with rxAnswers := answers, draws := draws }) :=
        busOnly_trans_idle only inflight ⟨sameBesidesBus_refl t, .inl rfl⟩
      obtain ⟨cs, none⟩ := recovery_bus
        (readTimedOut b v tx { acquired b tx t with rxAnswers := answers, draws := draws })
      exact ⟨_, busOnly_trans_idle sent inflight (recovery_busOnly _), none,
        .inr ⟨busRead_timedOut wait draw v shift, cs⟩⟩
    · exact ⟨readAnswered b v shift tx rx { acquired b tx t with rxAnswers := answers, draws := draws },
        busOnly_trans_idle only inflight ⟨sameBesidesBus_refl t, .inl rfl⟩, inflight,
        .inl ⟨rx, busRead_answered wait draw v shift⟩⟩
  · exact ⟨t, only, inflight, .inr ⟨busRead_of_expired wait b v shift tx, cs⟩⟩

/-- A read brings `W - SHIFT` bits (R101). -/
theorem decodedRead_lt (v : Variant) (shift : Nat) (rx : Rx) :
    (decodedRead v shift rx).toNat < 2 ^ (v.width - min shift v.width) := by
  have low : (truncW v rx.raw).toNat < 2 ^ v.width := by
    rw [truncW_toNat]
    exact Nat.mod_lt _ (Nat.two_pow_pos _)
  rw [decodedRead, BitVec.toNat_ushiftRight, Nat.shiftRight_eq_div_pow]
  obtain within | beyond := Nat.le_total shift v.width
  · rw [Nat.min_eq_left within, Nat.div_lt_iff_lt_mul (Nat.two_pow_pos _), ← pow_add, Nat.sub_add_cancel within]
    exact low
  · rw [Nat.min_eq_right beyond, Nat.sub_self, Nat.div_eq_of_lt (low.trans_le (Nat.pow_le_pow_right (by decide) beyond))]
    exact Nat.one_pos

/-! ## The eight frames -/

/-- Settles O11: on an idle bus the write is `started`. -/
theorem writeFrameStarts : Obligations.WriteFrameStarts := by
  intro i s write board fmt idle
  have run := runWire_write write s.f.board s
  rw [busWrite_of_wait (busWait_of_idle (s := s.setFrame (frameOf s.f.board i)) idle)] at run
  refine ⟨_, exec_of_fits board fmt, ?_⟩
  rw [run]
  refine ⟨rfl, rfl, rfl, rfl, rfl, rfl, lookD_putD_cs s.cs s.f.board true, ?_, rfl, rfl, sameBesidesBus_refl s, rfl, rfl, rfl⟩
  exact List.append_assoc (s.trace ++ muxTrace s) _ _

/-- Settles O12: on an idle bus the scripted answer is the one the read draws. -/
theorem readFrameCompletes : Obligations.ReadFrameCompletes := by
  intro i s rx rest read board fmt idle answers
  have run := runWire_read read s.f.board s
  have draw : drawRx (acquired s.f.board (encode i) (s.setFrame (frameOf s.f.board i)))
      = (some rx, { acquired s.f.board (encode i) (s.setFrame (frameOf s.f.board i)) with rxAnswers := rest }) := by
    have script : (acquired s.f.board (encode i) (s.setFrame (frameOf s.f.board i))).rxAnswers = some rx :: rest := answers
    rw [drawRx, script]
  rw [busRead_answered (busWait_of_idle (s := s.setFrame (frameOf s.f.board i)) idle) draw] at run
  refine ⟨_, _, exec_of_fits board fmt, rfl, ?_⟩
  rw [run]
  refine ⟨rfl, rfl, idle.1, rfl, rfl, rfl, rfl, fun b => ?_, ?_, rfl, rfl, sameBesidesBus_refl s, rfl, rfl, rfl⟩
  · refine (lookD_putD_cs (Store.putD false s.cs s.f.board true) s.f.board false b).trans ?_
    split
    · rfl
    · next other => exact (lookD_putD_cs s.cs _ _ b).trans (if_neg other)
  · exact List.append_assoc (s.trace ++ muxTrace s) _ _

/-- Settles O13: nothing is in flight when the recovery runs, so that it touches no register. -/
theorem readFrameTimesOut : Obligations.ReadFrameTimesOut := by
  intro i s rest read board fmt idle answers
  have run := runWire_read read s.f.board s
  have draw : drawRx (acquired s.f.board (encode i) (s.setFrame (frameOf s.f.board i)))
      = (none, { acquired s.f.board (encode i) (s.setFrame (frameOf s.f.board i)) with rxAnswers := rest }) := by
    have script : (acquired s.f.board (encode i) (s.setFrame (frameOf s.f.board i))).rxAnswers = none :: rest := answers
    rw [drawRx, script]
  rw [busRead_timedOut (busWait_of_idle (s := s.setFrame (frameOf s.f.board i)) idle) draw] at run
  refine ⟨_, exec_of_fits board fmt, ?_⟩
  rw [run]
  obtain ⟨la, dr, e | ⟨fl, flying, -⟩⟩ := recovery_eq (readTimedOut s.f.board (wireOf i).fmt (encode i)
    { acquired s.f.board (encode i) (s.setFrame (frameOf s.f.board i)) with rxAnswers := rest })
  · rw [e]
    refine ⟨rfl, rfl, rfl, fun _ => rfl, rfl, ?_, rfl, rfl, sameBesidesBus_refl s, rfl⟩
    exact congrArg (· ++ _) (List.append_assoc (s.trace ++ muxTrace s) _ _)
  · exact absurd (idle.1.symm.trans flying) nofun

/-- Settles O14, by the outcomes of the two transactions. -/
theorem frameAlwaysCompletes : Obligations.FrameAlwaysCompletes := by
  intro i s board fmt
  refine ⟨_, exec_of_fits board fmt, ?_⟩
  by_cases read : (wireOf i).mode = .singleRead
  · rw [runWire_read read]
    obtain ⟨t, -, none, ⟨rx, e⟩ | ⟨e, cs⟩⟩ := busRead_outcomes s.f.board (wireOf i).fmt (s.cfgOf s.f.board).shift (encode i)
      (s.setFrame (frameOf s.f.board i))
    · rw [answered_ok e]
      exact .inr (.inl ⟨read, _, rfl, none, decodedRead_lt _ _ rx⟩)
    · rw [answered_error e]
      exact .inr (.inr ⟨rfl, none, fun b => congrArg (Store.lookD false · b) cs⟩)
  · rw [runWire_write read]
    obtain ⟨t, -, ⟨e, flying⟩ | ⟨e, none, cs⟩⟩ := busWrite_outcomes s.f.board (wireOf i).fmt (encode i)
      (s.setFrame (frameOf s.f.board i))
    · rw [answered_ok e]
      exact .inl ⟨read, rfl, flying⟩
    · rw [answered_error e]
      exact .inr (.inr ⟨rfl, none, fun b => congrArg (Store.lookD false · b) cs⟩)

/-- Settles O18, by the outcomes of the two transactions. -/
theorem frameChangesOnlyBusState : Obligations.FrameChangesOnlyBusState := by
  intro i s t h
  obtain ⟨-, -, rfl⟩ := exec_next h
  by_cases read : (wireOf i).mode = .singleRead
  · rw [runWire_read read]
    obtain ⟨t, only, -, ⟨rx, e⟩ | ⟨e, -⟩⟩ := busRead_outcomes s.f.board (wireOf i).fmt (s.cfgOf s.f.board).shift (encode i)
      (s.setFrame (frameOf s.f.board i))
    · rw [answered_ok e]
      exact ⟨only.same, only.regs⟩
    · rw [answered_error e]
      exact ⟨only.same, only.regs⟩
  · rw [runWire_write read]
    obtain ⟨t, only, ⟨e, -⟩ | ⟨e, -⟩⟩ := busWrite_outcomes s.f.board (wireOf i).fmt (encode i)
      (s.setFrame (frameOf s.f.board i))
    · rw [answered_ok e]
      exact ⟨only.same, only.regs⟩
    · rw [answered_error e]
      exact ⟨only.same, only.regs⟩

/-- Settles O16: the wait answers no, so that either transaction is `Busy` in the state the recovery left. -/
theorem expiredBusWaitIsBusy : Obligations.ExpiredBusWaitIsBusy := by
  intro i s rest board fmt held answers
  have wait := busWait_of_held (s := s.setFrame (frameOf s.f.board i)) held answers
  rw [if_neg Bool.false_ne_true] at wait
  have run : runWire s.f.board i s
      = { recovery { s.setFrame (frameOf s.f.board i) with waitAnswers := rest } with result := .err raisedBusy } := by
    by_cases read : (wireOf i).mode = .singleRead
    · rw [runWire_read read, answered_error (busRead_of_expired wait ..)]
    · rw [runWire_write read, answered_error (busWrite_of_expired wait ..)]
  refine ⟨_, exec_of_fits board fmt, ?_⟩
  have frames := (recovery_frames { s.setFrame (frameOf s.f.board i) with waitAnswers := rest }).1
  rw [run]
  obtain ⟨la, dr, e | ⟨fl, flying, e⟩⟩ := recovery_eq { s.setFrame (frameOf s.f.board i) with waitAnswers := rest }
  · rw [e] at frames ⊢
    exact ⟨rfl, rfl, fun _ => rfl, rfl, rfl, rfl, rfl, rfl, frames, ⟨[], by rw [List.append_nil]; rfl, Nat.zero_le _⟩,
      .inl rfl, sameBesidesBus_refl s, rfl, rfl⟩
  · rw [e] at frames ⊢
    exact ⟨rfl, rfl, fun _ => rfl, rfl, rfl, rfl, rfl, rfl, frames, ⟨_, rfl, le_refl 1⟩, .inr ⟨fl, flying, rfl⟩,
      sameBesidesBus_refl s, rfl, rfl⟩

/-! ## The fields of a frame are remembered and not used -/

theorem land_setFrame (f : Frame) (s : State) : land (s.setFrame f) = (land s).setFrame f := by
  unfold land
  rw [State.setFrame_inflight]
  cases s.inflight <;> rfl

theorem abandon_setFrame (f : Frame) (s : State) : abandon (s.setFrame f) = (abandon s).setFrame f := by
  unfold abandon drawLand
  rw [State.setFrame_inflight, State.setFrame_landAnswers, State.setFrame_draws]
  cases s.inflight with
  | none => rfl
  | some fl =>
    cases s.landAnswers with
    | nil => cases Config.freeLand s.draws <;> rfl
    | cons a as => cases a <;> rfl

theorem recovery_setFrame (f : Frame) (s : State) : recovery (s.setFrame f) = (recovery s).setFrame f := by
  rw [recovery, abandon_setFrame]
  rfl

theorem busWait_setFrame (f : Frame) (s : State) : busWait (s.setFrame f) = ((busWait s).1, (busWait s).2.setFrame f) := by
  have held : (s.setFrame f).busHeld = s.busHeld := rfl
  have draw : drawWait (s.setFrame f) = ((drawWait s).1, (drawWait s).2.setFrame f) := by
    unfold drawWait
    rw [State.setFrame_waitAnswers]
    cases s.waitAnswers <;> rfl
  unfold busWait
  rw [held, draw]
  cases s.busHeld with
  | false => rfl
  | true =>
    dsimp only
    rw [land_setFrame, recovery_setFrame]
    cases (drawWait s).1 <;> rfl

theorem busWrite_setFrame (b : Nat) (v : Variant) (tx : List Byte) (f : Frame) (s : State) :
    busWrite b v tx (s.setFrame f) = ((busWrite b v tx s).1, (busWrite b v tx s).2.setFrame f) := by
  have wait := busWait_setFrame f s
  rcases e : busWait s with ⟨_ | _, t⟩ <;> rw [e] at wait
  · rw [busWrite_of_expired wait, busWrite_of_expired e]
  · rw [busWrite_of_wait wait, busWrite_of_wait e]
    rfl

/-- A read overwrites the data field alone. -/
theorem busRead_setFrame (b : Nat) (v : Variant) (shift : Nat) (tx : List Byte) (f : Frame) (s : State) :
    ∃ g, busRead b v shift tx (s.setFrame f) = ((busRead b v shift tx s).1, (busRead b v shift tx s).2.setFrame g) := by
  have wait := busWait_setFrame f s
  rcases e : busWait s with ⟨_ | _, t⟩ <;> rw [e] at wait
  · exact ⟨f, by rw [busRead_of_expired wait, busRead_of_expired e]⟩
  · have draw : drawRx (acquired b tx (t.setFrame f))
        = ((drawRx (acquired b tx t)).1, (drawRx (acquired b tx t)).2.setFrame f) := by
      have script : (acquired b tx (t.setFrame f)).rxAnswers = (acquired b tx t).rxAnswers := rfl
      unfold drawRx
      rw [script]
      cases (acquired b tx t).rxAnswers <;> rfl
    rcases answer : drawRx (acquired b tx t) with ⟨_ | rx, u⟩ <;> rw [answer] at draw
    · refine ⟨f, ?_⟩
      rw [busRead_timedOut wait draw, busRead_timedOut e answer, ← recovery_setFrame]
      rfl
    · refine ⟨{ f with data := (decodedRead v shift rx).toNat }, ?_⟩
      rw [busRead_answered wait draw, busRead_answered e answer]
      rfl

/-- States with the same bus transactions execute every frame alike. -/
theorem exec_congr {s t : State} (f : t.f = s.f) (par : t.par = s.par) (cal : t.cal = s.cal)
    (write : ∀ b v tx g, busWrite b v tx (s.setFrame g) = busWrite b v tx (t.setFrame g))
    (read : ∀ b v shift tx g, busRead b v shift tx (s.setFrame g) = busRead b v shift tx (t.setFrame g)) (i : Instr) :
    exec i s = exec i t := by
  have variant (b : Nat) : t.variantOf b = s.variantOf b := by
    rw [State.variantOf, State.variantOf, State.board, State.board, cal]
  have cfg (b : Nat) : t.cfgOf b = s.cfgOf b := by
    rw [State.cfgOf, State.cfgOf, par, variant]
  have run : runWire s.f.board i s = runWire s.f.board i t := by
    by_cases mode : (wireOf i).mode = .singleRead
    · rw [runWire_read mode, runWire_read mode, cfg, read]
    · rw [runWire_write mode, runWire_write mode, write]
  rw [exec_eq, exec_eq, execWire, execWire, f, par, variant, run]

/-- Settles O15: both transactions begin with the same wait, and after it with the same state. -/
theorem heldBusIsWaitedFor : Obligations.HeldBusIsWaitedFor := by
  intro i s rest held answers
  have after (g : Frame) : busWait (s.setFrame g)
      = (true, ({ land { s with waitAnswers := rest } with otherHolds := false } : State).setFrame g) := by
    rw [busWait_setFrame, busWait_of_held held answers, if_pos rfl]
  have idle (g : Frame) : busWait (({ land { s with waitAnswers := rest } with otherHolds := false } : State).setFrame g)
      = (true, ({ land { s with waitAnswers := rest } with otherHolds := false } : State).setFrame g) :=
    busWait_of_idle ⟨land_inflight _, rfl⟩
  obtain ⟨par, -, -, cal, -⟩ := (land_busOnly { s with waitAnswers := rest }).same
  refine exec_congr (s := s) (t := { land { s with waitAnswers := rest } with otherHolds := false })
    (land_frame { s with waitAnswers := rest }).f par cal (fun b v tx g => ?_) (fun b v shift tx g => ?_) i
  · rw [busWrite_of_wait (after g), busWrite_of_wait (idle g)]
  · rw [busRead, busRead, openBus_of_wait (after g), openBus_of_wait (idle g)]

/-- The same outcome, with different fields remembered, is the same result. -/
theorem answered_setFrame {α : Type} (r : Res α) (value : α → Option Word) (f g : Frame) :
    (answered (Res.andThen (r.1, r.2.setFrame f) fun a t => (.ok (value a), t)) .transferred).setFrame
        (answered (r.1, r.2.setFrame g) fun a => .transferred (value a)).f
      = answered (r.1, r.2.setFrame g) fun a => .transferred (value a) := by
  obtain ⟨e | a, s⟩ := r <;> rfl

/-- Settles O23: the assembled frame's bytes are those the command sends, and the fields remembered in `f` are no part of
the transaction. -/
theorem transferIsTheWireFrame : Obligations.TransferIsTheWireFrame := by
  intro raw f s typed board alone
  have fields := wireOf_assemble (s.variantOf f.board) (s.cfgOf f.board).shift f
  have fmt : (wireOf (assemble (s.variantOf f.board) (s.cfgOf f.board).shift f)).fmt = s.variantOf f.board := by rw [fields]
  have mode : (wireOf (assemble (s.variantOf f.board) (s.cfgOf f.board).shift f)).mode = f.mode := by rw [fields]
  refine ⟨_, _, (runCommand_transfer typed s).trans (if_neg (Nat.not_le.mpr board)),
    exec_of_fits (s := s.setFrame f) board fmt.symm, ?_⟩
  rw [transfer_eq]
  by_cases read : f.mode = .singleRead
  · obtain ⟨f', onCommand⟩ := busRead_setFrame f.board (s.variantOf f.board) (s.cfgOf f.board).shift (s.encodeFor f) f s
    obtain ⟨g', onWire⟩ := busRead_setFrame f.board (s.variantOf f.board) (s.cfgOf f.board).shift (s.encodeFor f)
      (frameOf f.board (assemble (s.variantOf f.board) (s.cfgOf f.board).shift f)) s
    rw [if_pos read, runWire_read (mode.trans read), transferRead, environment_idle s alone, onCommand, fmt]
    change State.setFrame _ (answered (busRead f.board _ (s.cfgOf f.board).shift (s.encodeFor f)
        (s.setFrame (frameOf f.board _))) _).f
      = answered (busRead f.board _ (s.cfgOf f.board).shift (s.encodeFor f) (s.setFrame (frameOf f.board _))) _
    rw [onWire]
    exact answered_setFrame _ some f' g'
  · rw [if_neg read, runWire_write (mode.trans_ne read), transferWrite, environment_idle s alone, busWrite_setFrame, fmt]
    change State.setFrame _ (answered (busWrite f.board _ (s.encodeFor f) (s.setFrame (frameOf f.board _))) _).f
      = answered (busWrite f.board _ (s.encodeFor f) (s.setFrame (frameOf f.board _))) _
    rw [busWrite_setFrame]
    exact answered_setFrame _ (fun _ => none) f _

end Sys2Proof
end

section
/-! Back-end completion (R149). One lemma says what a delivery makes of every register (`look_deliver`); a completed
frame, a stray one and a read after a write all follow from it. -/

namespace Sys2Proof

open Sys2Proof.Machine

/-! ## The registers a frame addresses (R61) -/

/-- The key of a register names its board, chip, core and address. -/
theorem regKey_inj {b c k r b' c' k' r' : Nat} (hc : c < 128) (hk : k < 256) (hr : r < 128) (hc' : c' < 128) (hk' : k' < 256)
    (hr' : r' < 128) : regKey b c k r = regKey b' c' k' r' ↔ b = b' ∧ c = c' ∧ k = k' ∧ r = r' := by
  unfold regKey
  omega

theorem mem_locations (p : Params) (w : Wire) (c k : Nat) : (c, k) ∈ locations p.plat.chips w ↔ addresses p w c k := by
  unfold locations addresses
  cases w.mode with
  | singleWrite | singleRead => simp
  | chipWideWrite => simp [and_comm, eq_comm]
  | multicastWrite => simp

/-- One value put under many keys. -/
theorem look_foldl_put {α β : Type} (l : List β) (key : β → Nat) (v : α) (m : Store α) (j : Nat) :
    Store.look (l.foldl (fun m x => Store.put m (key x) v) m) j
      = if ∃ x ∈ l, key x = j then some v else Store.look m j := by
  induction l generalizing m with
  | nil => simp
  | cons x l ih =>
    rw [List.foldl_cons, ih]
    by_cases here : key x = j
    · subst here
      simp
    · rw [Store.look_put_other m (key x) j v (Ne.symm here)]
      simp [here]

/-- What a delivered frame whose effect the spec gives makes of every register: those it addresses hold its data. -/
theorem look_deliver {p : Params} {w : Wire} (chips : p.plat.chips ≤ 128) (given : effectGiven p w = true) (b : Nat)
    (m : Store Word) {b' c k r : Nat} (hc : c < 128) (hk : k < 256) (hr : r < 128) :
    Store.look (deliver p b w m) (regKey b' c k r)
      = if b' = b ∧ (c, k) ∈ locations p.plat.chips w ∧ r = w.reg.toNat then some w.data
        else Store.look m (regKey b' c k r) := by
  have hit : (∃ ck ∈ locations p.plat.chips w, regKey b ck.1 ck.2 w.reg.toNat = regKey b' c k r)
      ↔ b' = b ∧ (c, k) ∈ locations p.plat.chips w ∧ r = w.reg.toNat := by
    constructor
    · rintro ⟨⟨c', k'⟩, mem, same⟩
      obtain ⟨hc', hk'⟩ := locations_bound p.plat.chips w chips _ mem
      obtain ⟨rfl, rfl, rfl, rfl⟩ := (regKey_inj hc' hk' w.reg.isLt hc hk hr).mp same
      exact ⟨rfl, mem, rfl⟩
    · rintro ⟨rfl, mem, rfl⟩
      exact ⟨(c, k), mem, rfl⟩
  rw [deliver, if_pos given, look_foldl_put]
  simp only [hit]

/-! ## The move of the back end -/

/-- A write in flight lands at the back end's move (R149). -/
theorem step_backendDone {s : State} {rest : List Event} {fl : InFlight}
    (move : s.pending = .move (.env .backendDone) :: rest) (flying : s.inflight = some fl) :
    step s = .next (land { s with pending := rest }) := by
  have enabled : ¬((EnvMove.backendDone = .backendDone ∨ EnvMove.backendDone = .backendLost) ∧ s.inflight = none) := by
    rw [flying]
    exact fun h => nomatch h.2
  rw [step_of_move move]
  exact if_neg enabled

/-- What landing does when a write is in flight. -/
theorem land_of_flying {s : State} {fl : InFlight} (flying : s.inflight = some fl) :
    land s = { s with
      regs := deliverBytes s fl
      cs := Store.putD false s.cs fl.board false
      inflight := none
      trace := s.trace ++ [.landed fl.board fl.bytes (s.reaches fl.board)] } := by
  obtain ⟨none, -⟩ | ⟨fl', flying', e⟩ := land_cases s
  · cases none.symm.trans flying
  · cases flying'.symm.trans flying
    exact e

/-- Settles O19: `look_deliver` at the board of the write in flight. -/
theorem landedWriteReachesItsRegisters : Obligations.LandedWriteReachesItsRegisters := by
  intro s rest fl i chips move flying decoded route supply given
  refine ⟨_, step_backendDone move flying, ?_⟩
  rw [land_of_flying (s := { s with pending := rest }) flying]
  refine ⟨rfl, rfl, lookD_putD_cs s.cs fl.board false, fun b c k r hc hk hr => ?_⟩
  have regs : deliverBytes { s with pending := rest } fl = deliver s.par fl.board (wireOf i) s.regs :=
    deliverBytes_reached _ fl i ((reaches_iff _ _).mpr ⟨route, supply⟩) decoded
  have look := look_deliver chips given fl.board s.regs (b' := b) hc hk hr
  rw [← regs] at look
  rw [← mem_locations]
  exact ⟨fun hit => look.trans (if_pos hit), fun miss => look.trans (if_neg miss)⟩

/-- Settles O20: a frame of no given effect makes its board forget, one that reaches nothing changes nothing. -/
theorem strayFramesTeachNothing : Obligations.StrayFramesTeachNothing := by
  intro s rest fl i move flying decoded
  refine ⟨_, step_backendDone move flying, ?_⟩
  rw [land_of_flying (s := { s with pending := rest }) flying]
  refine ⟨rfl, lookD_putD_cs s.cs fl.board false, fun away => ?_, fun route supply notGiven b c k r hc hk hr => ?_⟩
  · refine deliverBytes_unreached { s with pending := rest } fl (Bool.eq_false_iff.mpr fun reached => ?_)
    obtain ⟨route, supply⟩ := (reaches_iff _ _).mp reached
    obtain elsewhere | off := away
    · exact elsewhere route
    · exact Bool.false_ne_true (off.symm.trans supply)
  · have regs : deliverBytes { s with pending := rest } fl = deliver s.par fl.board (wireOf i) s.regs :=
      deliverBytes_reached _ fl i ((reaches_iff _ _).mpr ⟨route, supply⟩) decoded
    have look := look_forgetBoard fl.board s.regs (regKey b c k r)
    rw [regKey_board b c k r hc hk hr] at look
    refine Eq.trans ?_ look
    rw [deliver, if_neg (by rw [notGiven]; exact Bool.false_ne_true)] at regs
    exact congrArg (Store.look · _) regs

/-! ## A read after a write (R76, R77) -/

theorem truncW_idem (v : Variant) (x : Word) : truncW v (truncW v x) = truncW v x := by
  apply BitVec.eq_of_toNat_eq
  rw [truncW_toNat, truncW_toNat, Nat.mod_mod]

/-- The fields a single write is sent with. -/
theorem wireOf_writeFrame (v : Variant) (shift b : Nat) {c k : Nat} (r : BitVec 7) (x : Word) :
    wireOf (assemble v shift (writeFrame v b c k r x))
      = { fmt := v, mode := .singleWrite, chip := BitVec.ofNat 7 c, core := BitVec.ofNat 8 k, reg := r
          data := truncW v x } := by
  have keep : BitVec.ofNat 64 ((truncW v x).toNat % 2 ^ v.width) = truncW v x := by
    rw [truncW_toNat, Nat.mod_mod, ← truncW_toNat, BitVec.ofNat_toNat, BitVec.setWidth_eq]
  rw [wireOf_assemble]
  show Wire.mk v .singleWrite _ _ (BitVec.ofNat 7 r.toNat) (BitVec.ofNat 64 ((truncW v x).toNat % 2 ^ v.width)) = _
  rw [keep, BitVec.ofNat_toNat, BitVec.setWidth_eq]
  rfl

theorem mem_locations_writeFrame (p : Params) (v : Variant) (shift b : Nat) {c k : Nat} (r : BitVec 7) (x : Word)
    (hc : c < 128) (hk : k < 256) :
    (c, k) ∈ locations p.plat.chips (wireOf (assemble v shift (writeFrame v b c k r x))) := by
  rw [wireOf_writeFrame]
  simp [locations, Nat.mod_eq_of_lt hc, Nat.mod_eq_of_lt hk]

/-- A write that the wait lets through on a board with its supply on: the state it leaves, as far as the registers after
its landing go. -/
theorem memWrite_lands {s t : State} {b c k : Nat} {r : BitVec 7} {x : Word} {n : Nat} (chips : s.par.plat.chips ≤ 128)
    (alone : s.between = []) (waits : waitsEnd s (n + 1)) (memo : s.mux = .asic → s.route = .asic)
    (supply : (s.hwOf b).supplyOn = true) (hc : c < 128) (hk : k < 256)
    (given : effectGiven s.par (wireOf (assemble (s.variantOf b) (s.cfgOf b).shift (writeFrame (s.variantOf b) b c k r x)))
      = true)
    (written : memWrite b c k r x s = (.ok (), t)) :
    Sent s t [writeFrame (s.variantOf b) b c k r x] ∧ waitsEnd t n ∧ t.rxAnswers = s.rxAnswers
      ∧ (land t).trace
        = t.trace ++ [.landed b (s.encodeFor (writeFrame (s.variantOf b) b c k r x)) true]
      ∧ (land t).regAt b c k r.toNat = some (truncW (s.variantOf b) x) := by
  obtain ⟨t', ok, sent, waits', rx, -⟩ := transferWrite_ok (writeFrame (s.variantOf b) b c k r x) s n waits
  obtain rfl : t' = t := (Prod.ext_iff.mp (ok.symm.trans written)).2
  refine ⟨sent, waits', rx, ?_⟩
  obtain ⟨u, wait, -, -, inert, -, hw, -, -, -, -, -, mux, route, -, -⟩ :=
    busWait_ok (s.setFrame (writeFrame (s.variantOf b) b c k r x)) n waits
  rw [transferWrite, environment_idle s alone, busWrite_of_wait wait] at ok
  have left : started b (s.variantOf b) (s.encodeFor (writeFrame (s.variantOf b) b c k r x)) u = t' :=
    (Prod.ext_iff.mp ok).2
  have flying : t'.inflight = some ⟨b, s.encodeFor (writeFrame (s.variantOf b) b c k r x)⟩ := left ▸ rfl
  have asic : t'.route = .asic := by
    have opened : t'.route = if u.mux = .asic then u.route else .asic := left ▸ rfl
    rw [opened, mux, route]
    split
    · next asic => exact memo asic
    · rfl
  have reached : t'.reaches b = true :=
    (reaches_iff _ _).mpr ⟨asic, by rw [hwOf_congr sent.calm.hw b]; exact supply⟩
  have fields := wireOf_writeFrame (s.variantOf b) (s.cfgOf b).shift b r x (c := c) (k := k)
  have delivered := deliverBytes_reached t' ⟨b, s.encodeFor (writeFrame (s.variantOf b) b c k r x)⟩ _ reached
    (decode_encodeFrame (s.variantOf b) (s.cfgOf b).shift (writeFrame (s.variantOf b) b c k r x))
  have look := look_deliver chips given b t'.regs (b' := b) hc hk r.isLt
  rw [if_pos ⟨rfl, mem_locations_writeFrame _ _ _ _ _ _ hc hk, by rw [fields]⟩, fields] at look
  rw [sent.calm.inert.par, fields] at delivered
  rw [land_of_flying flying]
  exact ⟨congrArg (fun a => t'.trace ++ [.landed b (s.encodeFor (writeFrame (s.variantOf b) b c k r x)) a]) reached,
    (congrArg (Store.look · _) delivered).trans look⟩

/-- Settles O21: the storage premise at the write's landing says what the chip answers. -/
theorem readAfterWriteReturnsTheValue : Obligations.ReadAfterWriteReturnsTheValue := by
  intro s t b c k r x rx rest chips alone waits memo supply hc hk given answers written stores
  obtain ⟨sent, waits', rxAnswers, trace, reg⟩ :=
    memWrite_lands (n := 1) chips alone waits memo supply hc hk given written
  have landed := sent.calm.inert.trans (land_inert t)
  have fields := wireOf_writeFrame (s.variantOf b) (s.cfgOf b).shift b r x (c := c) (k := k)
  have drives := stores t.trace [] _ _ _ trace (decode_encodeFrame _ _ _)
    (mem_locations_writeFrame _ _ _ _ _ _ hc hk) (congrArg Wire.reg fields)
    (fun _ _ _ => trivial) reg
  rw [landed.variantOf, landed.cfgOf, readBack, truncW_idem] at drives
  obtain ⟨u, read, -⟩ := transferRead_ok (readFrame b c k r) t 0 rx [] waits' ⟨rest, rxAnswers.trans answers⟩
  have value : memRead b c k r t
      = (.ok (truncW (s.variantOf b) (truncW (s.variantOf b) x <<< (s.cfgOf b).shift) >>> (s.cfgOf b).shift), u) := by
    rw [← drives, ← sent.calm.inert.variantOf, ← sent.calm.inert.cfgOf]
    exact read
  refine ⟨u, value, fun noShift => ?_⟩
  rw [value, noShift, BitVec.shiftLeft_zero, BitVec.ushiftRight_zero, truncW_idem]

end Sys2Proof
end

section
/-! Preload: the sequence frame by frame (R161 to R171), a list of frames all of which are sent (`sendAll_ok`), and the
command around it (R182). -/

namespace Sys2Proof

open Sys2Proof.Machine

/-! ## The sequence (R171) -/

theorem admittedM_sc1 : admittedM .sc1 = [0, 1, 2, 3, 5, 6, 7, 8, 9] := by decide

theorem admittedM_dcr1 : admittedM .dcr1 = [0, 1, 2, 4, 5, 6, 7, 8, 9, 10, 11, 12] := by decide

/-- Settles O24: the admitted indices of either variant, each with its word. -/
theorem preloadFrameSequence : Obligations.PreloadFrameSequence := by
  intro c job t
  refine ⟨⟨?_, ?_⟩, ?_, ?_⟩
  · simp [preloadFrames, admittedM_sc1, mWord, Variant.mReserved, Variant.jobHasV, List.range_succ, addrV, ctlFrame]
  · simp [preloadFrames, admittedM_sc1, Variant.jobHasV]
  · simp [preloadFrames, admittedM_dcr1, mWord, Variant.mReserved, Variant.jobHasV, ctlFrame]
  · simp [preloadFrames, admittedM_dcr1, Variant.jobHasV]

/-! ## Frames that are all sent -/

/-- With a bus wait that ends in time for each, the frames of a list are sent in order. -/
theorem sendAll_ok (fs : List Frame) {s : State} {n : Nat} (waits : waitsEnd s (fs.length + n)) :
    ∃ t, sendAll fs s = (.ok (), t) ∧ Sent s t fs ∧ waitsEnd t n ∧ t.rxAnswers = s.rxAnswers := by
  induction fs generalizing s with
  | nil => exact ⟨s, rfl, Sent.refl s, by simpa using waits, rfl⟩
  | cons f fs ih =>
    obtain ⟨t, first, sent, waits', rx, -⟩ :=
      transferWrite_ok f s (fs.length + n) (by rwa [List.length_cons, Nat.add_right_comm] at waits)
    obtain ⟨u, rest, sent', waits'', rx'⟩ := ih waits'
    exact ⟨u, by rw [sendAll, first]; exact rest, sent.trans sent', waits'', rx'.trans rx⟩

/-! ## The command (R182, R303) -/

theorem checkTarget_of_inRange {s : State} {t : Target} (board : t.board < s.par.plat.boards)
    (present : (s.board t.board).present = true) (chip : t.chip < s.par.plat.chips)
    (core : t.core < (s.variantOf t.board).cores) : checkTarget s t = none := by
  rw [checkTarget, checkBoard_of_present board present]
  dsimp only
  rw [if_neg (Nat.not_le.mpr chip), if_neg (Nat.not_le.mpr core)]

/-- Settles O27: the machine latched first is the one moved on at the end, no frame touching it. -/
theorem preloadJobSucceeds : Obligations.PreloadJobSucceeds := by
  intro m job tgt s idle board present chip core waits
  have admitted : admits (.preloadJob m job tgt) s = true := by simp [admits, idle]
  obtain ⟨t, ok, sent, -⟩ := sendAll_ok (n := 0) (preloadFrames (s.variantOf tgt.board) (s.cfgOf tgt.board) job tgt)
    (s := s.setMachine m { s.machine m with tgt := tgt, job := job }) waits
  have run : preloadJobBody m job tgt s = { setJState m .preloaded t with result := .ok } := by
    rw [preloadJobBody, checkTarget_of_inRange board present chip core]
    exact congrArg (finishJob m · _) ok
  refine ⟨{ setJState m .preloaded t with result := .ok },
    by rw [runCommand_preloadJob, guarded_of_admits admitted, run], ?_, rfl, sent.frames, ?_, ?_, ?_⟩
  · rw [machine_result, setJState_machine, sent.calm.inert.machine, State.machine_setMachine_same]
  · exact sent.calm.inert.cal
  · exact sent.calm.hw
  · exact sent.calm.inert.par

/-- Settles O28: the checks of `checkTarget` in their order. -/
theorem preloadJobRangeErrors : Obligations.PreloadJobRangeErrors := by
  intro m job tgt s e idle range
  have admitted : admits (.preloadJob m job tgt) s = true := by simp [admits, idle]
  have check : checkTarget s tgt = some e := by
    obtain ⟨absent, rfl⟩ | ⟨board, present, chip, rfl⟩ | ⟨board, present, chip, core, rfl⟩ := range
    · rw [checkTarget, checkBoard_of_absent absent]
    · rw [checkTarget, checkBoard_of_present board present]
      exact if_pos chip
    · rw [checkTarget, checkBoard_of_present board present]
      exact (if_neg (Nat.not_le.mpr chip)).trans (if_pos core)
  rw [runCommand_preloadJob, guarded_of_admits admitted, preloadJobBody, check]
  rfl

end Sys2Proof
end

section
/-! Stretches of a command: what they leave alone and the frames they put on the bus (`Puts`), what they add to the trace
(`Grows`), and runs without other agents, where each bus wait takes a scripted answer exactly when a write is in flight
(`Lone`). -/

namespace Sys2Proof

open Sys2Proof.Machine

/-! ## Frames put on the bus -/

/-- `Still` steps that put exactly these frames on the bus. -/
structure Puts (s t : State) (fs : List Frame) : Prop extends Still s t where
  frames : sends s t fs

theorem Puts.refl (s : State) : Puts s s [] :=
  ⟨Still.refl s, sends_nil s⟩

theorem Puts.trans {s t u : State} {fs gs : List Frame} (h : Puts s t fs) (k : Puts t u gs) : Puts s u (fs ++ gs) :=
  ⟨h.toStill.trans k.toStill, sends_append h.inert h.frames k.frames⟩

theorem puts_of_sent {s t : State} {fs : List Frame} (h : Sent s t fs) : Puts s t fs :=
  ⟨⟨h.calm, h.settles⟩, h.frames⟩

theorem puts_of_silent {s t : State} (h : Silent s t) : Puts s t [] :=
  ⟨h.toStill, by rw [sends, h.frames]; exact (List.append_nil _).symm⟩

/-- Silent steps after a stretch put nothing more on the bus. -/
theorem Puts.silent {s t u : State} {fs : List Frame} (h : Puts s t fs) (k : Silent t u) : Puts s u fs :=
  List.append_nil fs ▸ h.trans (puts_of_silent k)

/-! ## The outcomes of a transfer -/

/-- A write is started, or `Busy` with the bus released and nothing sent. -/
theorem transferWrite_outcomes (f : Frame) (s : State) :
    ∃ u, (transferWrite f s = (.ok (), u) ∧ Puts s u [f])
      ∨ (transferWrite f s = (.error raisedBusy, u) ∧ Puts s u [] ∧ u.inflight = none ∧ u.cs = []) := by
  obtain ⟨t, calm, settles, ⟨ok, frames⟩ | ⟨busy, frames⟩⟩ := transferWrite_cases f s
  · exact ⟨t, .inl ⟨ok, ⟨calm, settles⟩, frames⟩⟩
  · obtain ⟨u, -, ⟨ok, -⟩ | ⟨busy', none, cs⟩⟩ :=
      busWrite_outcomes f.board (s.variantOf f.board) (s.encodeFor f) ((environment s).setFrame f)
    · cases (Prod.ext_iff.mp (busy.symm.trans ok)).1
    · obtain rfl : t = u := (Prod.ext_iff.mp (busy.symm.trans busy')).2
      exact ⟨t, .inr ⟨busy, ⟨⟨calm, settles⟩, frames⟩, none, cs⟩⟩

theorem transferRead_takes_one_wait (f : Frame) {s : State} {n : Nat} (waits : waitsEnd s (n + 1)) :
    waitsEnd (transferRead f s).2 n := by
  obtain ⟨t, wait, -, waits', -⟩ :=
    busWait_ok ((environment s).setFrame f) n (waitsEnd_congr waits (environment_frame s).wait)
  obtain ⟨rx | rx, answers, draws, draw⟩ := drawRx_eq (acquired f.board (s.encodeFor f) t)
  · rw [transferRead, busRead_timedOut wait draw]
    obtain ⟨la, dr, e | ⟨fl, -, e⟩⟩ := recovery_eq (readTimedOut f.board (s.variantOf f.board) (s.encodeFor f)
      { acquired f.board (s.encodeFor f) t with rxAnswers := answers, draws := draws }) <;> rw [e]
    · exact waits'
    · exact waits'
  · rw [transferRead, busRead_answered wait draw]
    exact waits'

/-- A read is answered, or `Busy` with its frame sent or not; it takes no more than one bus wait. -/
theorem transferRead_outcomes (f : Frame) (s : State) :
    ∃ u fs, Puts s u fs ∧ (∀ n, waitsEnd s (n + 1) → waitsEnd u n)
      ∧ ((∃ d, transferRead f s = (.ok d, u) ∧ fs = [f])
        ∨ (transferRead f s = (.error raisedBusy, u) ∧ (fs = [] ∨ fs = [f]))) := by
  have takes := fun n => transferRead_takes_one_wait f (s := s) (n := n)
  obtain ⟨t, calm, settles, ⟨d, ok, frames⟩ | ⟨busy, frames | frames⟩⟩ := transferRead_cases f s
  · rw [ok] at takes
    exact ⟨t, [f], ⟨⟨calm, settles⟩, frames⟩, takes, .inl ⟨d, ok, rfl⟩⟩
  · rw [busy] at takes
    exact ⟨t, [], ⟨⟨calm, settles⟩, frames⟩, takes, .inr ⟨busy, .inl rfl⟩⟩
  · rw [busy] at takes
    exact ⟨t, [f], ⟨⟨calm, settles⟩, frames⟩, takes, .inr ⟨busy, .inr rfl⟩⟩

/-! ## The trace grows -/

/-- What has happened is not taken back. -/
def Grows (s t : State) : Prop :=
  s.trace <+: t.trace

theorem grows_append {s t : State} {es : List Effect} (h : t.trace = s.trace ++ es) : Grows s t :=
  ⟨es, h.symm⟩

theorem grows_refl (s : State) : Grows s s :=
  List.prefix_refl _

theorem grows_trans {s t u : State} (h : Grows s t) (k : Grows t u) : Grows s u :=
  List.IsPrefix.trans h k

theorem mem_trace_of_grows {s t : State} {e : Effect} (h : Grows s t) (mem : e ∈ s.trace) : e ∈ t.trace :=
  h.subset mem

theorem land_grows (s : State) : Grows s (land s) := by
  obtain ⟨-, e⟩ | ⟨fl, -, e⟩ := land_cases s <;> rw [e]
  · exact grows_refl s
  · exact grows_append rfl

theorem lose_grows (s : State) : Grows s (lose s) := by
  obtain ⟨-, e⟩ | ⟨fl, -, e⟩ := lose_cases s <;> rw [e]
  · exact grows_refl s
  · exact grows_append rfl

theorem envMove_grows (m : EnvMove) (s : State) : Grows s (envMove m s) := by
  cases m with
  | backendDone => exact land_grows s
  | backendLost => exact lose_grows s
  | busUser holds => exact grows_refl s
  | muxUser t u =>
    unfold envMove
    dsimp only
    split <;> exact grows_refl s
  | engine b c k found => exact grows_append rfl
  | candidate b c k slot x => exact grows_append rfl

theorem envMoves_grow (ms : List EnvMove) (s : State) : Grows s (ms.foldl (fun s m => envMove m s) s) := by
  induction ms generalizing s with
  | nil => exact grows_refl s
  | cons m ms ih => exact grows_trans (envMove_grows m s) (ih _)

theorem environment_grows (s : State) : Grows s (environment s) := by
  unfold environment
  split
  · exact grows_refl s
  · next ms rest _ => exact envMoves_grow ms { s with between := rest }

theorem recovery_grows (s : State) : Grows s (recovery s) := by
  obtain ⟨la, dr, e | ⟨fl, -, e⟩⟩ := recovery_eq s <;> rw [e]
  · exact grows_append rfl
  · exact grows_append (List.append_assoc ..)

theorem busWait_grows (s : State) : Grows s (busWait s).2 := by
  have draw : Grows s (drawWait s).2 := grows_append (by rw [(drawWait_bus s).2.2.2.2.2, List.append_nil])
  obtain ⟨-, e⟩ | ⟨-, -, e⟩ | ⟨-, -, e⟩ := busWait_cases s <;> rw [e]
  · exact grows_refl s
  · exact grows_trans draw (land_grows _)
  · exact grows_trans draw (recovery_grows _)

theorem transferWrite_grows (f : Frame) (s : State) : Grows s (transferWrite f s).2 := by
  refine grows_trans (environment_grows s) ?_
  have wait := busWait_grows ((environment s).setFrame f)
  rcases e : busWait ((environment s).setFrame f) with ⟨_ | _, t⟩ <;> rw [e] at wait
  · rw [transferWrite, busWrite_of_expired e]
    exact wait
  · rw [transferWrite, busWrite_of_wait e]
    refine grows_trans wait (grows_append (es := muxTrace t ++ [.csAssert f.board] ++ [.xferStart f.board (s.encodeFor f)]) ?_)
    simp [started, acquired]

theorem delay_grows (d : Duration) (s : State) : Grows s (delay d s) :=
  grows_trans (environment_grows s) (grows_append rfl)

/-! ## Runs without other agents -/

/-- No other agent's move is scripted and no other user has the bus: whether a write is in flight, and the answers left
for the bus waits. -/
structure Lone (s : State) (flying : Bool) (answers : List Bool) : Prop where
  alone : s.between = []
  free : s.otherHolds = false
  flying : s.inflight.isSome = flying
  answers : s.waitAnswers = answers

section
variable {s : State} {l : List Bool} (f : Frame)

theorem lone_of_idle (alone : s.between = []) (idle : busIdle s) (answers : s.waitAnswers = l) : Lone s false l :=
  ⟨alone, idle.2, by rw [idle.1]; rfl, answers⟩

theorem lone_inflight (h : Lone s false l) : s.inflight = none :=
  Option.isSome_eq_false_iff.mp h.flying |> Option.isNone_iff_eq_none.mp

/-- An idle bus takes no answer. -/
theorem busWait_lone_idle (h : Lone s false l) : busWait (s.setFrame f) = (true, s.setFrame f) :=
  have none : s.inflight = none := lone_inflight h
  busWait_of_idle ⟨none, h.free⟩

/-- A held one takes the next answer: the write in flight lands. -/
theorem busWait_lone_ends (h : Lone s true (true :: l)) :
    ∃ t, busWait (s.setFrame f) = (true, t) ∧ Lone t false l := by
  have held : (s.setFrame f).busHeld = true := by
    show (s.inflight.isSome || s.otherHolds) = true
    rw [h.flying]
    rfl
  refine ⟨_, (busWait_of_held held h.answers).trans (if_pos rfl), ?_, rfl, ?_, (land_frame _).wait⟩
  · have between := (land_busOnly { s.setFrame f with waitAnswers := l }).same.2.2.2.2.2.1
    exact between.trans h.alone
  · exact congrArg Option.isSome (land_inflight { s.setFrame f with waitAnswers := l })

/-- Or it is abandoned. -/
theorem busWait_lone_expires (h : Lone s true (false :: l)) :
    ∃ t, busWait (s.setFrame f) = (false, t) ∧ Lone t false l := by
  have held : (s.setFrame f).busHeld = true := by
    show (s.inflight.isSome || s.otherHolds) = true
    rw [h.flying]
    rfl
  refine ⟨_, (busWait_of_held held h.answers).trans (if_neg Bool.false_ne_true), ?_⟩
  obtain ⟨la, dr, e | ⟨fl, -, e⟩⟩ := recovery_eq { s.setFrame f with waitAnswers := l } <;> rw [e]
  · exact ⟨h.alone, h.free, rfl, rfl⟩
  · exact ⟨h.alone, h.free, rfl, rfl⟩

/-- A write that the wait lets through is in flight. -/
theorem transferWrite_lone {t : State} (alone : s.between = []) (wait : busWait (s.setFrame f) = (true, t))
    (after : Lone t false l) : ∃ u, transferWrite f s = (.ok (), u) ∧ Puts s u [f] ∧ Lone u true l := by
  have ok : transferWrite f s = (.ok (), started f.board (s.variantOf f.board) (s.encodeFor f) t) := by
    rw [transferWrite, environment_idle s alone, busWrite_of_wait wait]
  obtain ⟨u, ⟨ok', puts⟩ | ⟨busy, -⟩⟩ := transferWrite_outcomes f s
  · obtain rfl : u = _ := (Prod.ext_iff.mp (ok'.symm.trans ok)).2
    exact ⟨_, ok, puts, after.alone, after.free, rfl, after.answers⟩
  · cases (Prod.ext_iff.mp (busy.symm.trans ok)).1

theorem transferWrite_idle (h : Lone s false l) :
    ∃ u, transferWrite f s = (.ok (), u) ∧ Puts s u [f] ∧ Lone u true l :=
  transferWrite_lone f h.alone (busWait_lone_idle f h) ⟨h.alone, h.free, h.flying, h.answers⟩

theorem transferWrite_held (h : Lone s true (true :: l)) :
    ∃ u, transferWrite f s = (.ok (), u) ∧ Puts s u [f] ∧ Lone u true l := by
  obtain ⟨t, wait, after⟩ := busWait_lone_ends f h
  exact transferWrite_lone f h.alone wait after

/-- A write whose wait expires leaves an idle bus. -/
theorem transferWrite_expires (h : Lone s true (false :: l)) :
    ∃ u, transferWrite f s = (.error raisedBusy, u) ∧ Puts s u [] ∧ Lone u false l ∧ u.cs = [] := by
  obtain ⟨t, wait, after⟩ := busWait_lone_expires f h
  have busy : transferWrite f s = (.error raisedBusy, t) := by
    rw [transferWrite, environment_idle s h.alone, busWrite_of_expired wait]
  obtain ⟨u, ⟨ok, -⟩ | ⟨busy', puts, -, cs⟩⟩ := transferWrite_outcomes f s
  · cases (Prod.ext_iff.mp (ok.symm.trans busy)).1
  · obtain rfl : u = t := (Prod.ext_iff.mp (busy'.symm.trans busy)).2
    exact ⟨u, busy, puts, after, cs⟩

/-- And so does a read, of which nothing was sent. -/
theorem transferRead_expires (h : Lone s true (false :: l)) :
    ∃ u, transferRead f s = (.error raisedBusy, u) ∧ Puts s u [] ∧ Lone u false l := by
  obtain ⟨t, wait, after⟩ := busWait_lone_expires f h
  have busy : transferRead f s = (.error raisedBusy, t) := by
    rw [transferRead, environment_idle s h.alone, busRead_of_expired wait]
  have frames := (busWait_calm (s.setFrame f)).2.1
  rw [wait] at frames
  have still := transferRead_still f s
  rw [busy] at still
  exact ⟨t, busy, ⟨still, frames.trans (List.append_nil _).symm⟩, after⟩

/-- A read on an idle bus leaves it idle. -/
theorem transferRead_idle {rx : Rx} {rs : List (Option Rx)} (h : Lone s false l) (answers : readsAnswer s (some rx :: rs)) :
    ∃ u, transferRead f s = (.ok (decodedRead (s.variantOf f.board) (s.cfgOf f.board).shift rx), u) ∧ Puts s u [f]
      ∧ Lone u false l ∧ readsAnswer u rs := by
  obtain ⟨rest, answers⟩ := answers
  have draw : drawRx (acquired f.board (s.encodeFor f) (s.setFrame f))
      = (some rx, { acquired f.board (s.encodeFor f) (s.setFrame f) with rxAnswers := rs ++ rest }) := by
    have script : (acquired f.board (s.encodeFor f) (s.setFrame f)).rxAnswers = some rx :: (rs ++ rest) := answers
    rw [drawRx, script]
  have run : transferRead f s
      = busRead f.board (s.variantOf f.board) (s.cfgOf f.board).shift (s.encodeFor f) (s.setFrame f) := by
    rw [transferRead, environment_idle s h.alone]
  have ok := run.trans (busRead_answered (busWait_lone_idle f h) draw (s.variantOf f.board) (s.cfgOf f.board).shift)
  obtain ⟨t, calm, settles, ⟨d, ok', frames⟩ | ⟨busy, -⟩⟩ := transferRead_cases f s
  · obtain rfl : t = _ := (Prod.ext_iff.mp (ok'.symm.trans ok)).2
    exact ⟨_, ok, ⟨⟨calm, settles⟩, frames⟩, ⟨h.alone, h.free, h.flying, h.answers⟩, ⟨rest, rfl⟩⟩
  · cases (Prod.ext_iff.mp (busy.symm.trans ok)).1

variable {flying : Bool}

theorem delay_lone (d : Duration) (h : Lone s flying l) : Lone (delay d s) flying l := by
  rw [delay, environment_idle s h.alone]
  exact ⟨h.alone, h.free, h.flying, h.answers⟩

theorem logMsg_lone (m : LogMsg) (h : Lone s flying l) : Lone (logMsg m s) flying l :=
  ⟨h.alone, h.free, h.flying, h.answers⟩

theorem drawLine_lone (line : Line) (h : Lone s flying l) : Lone (drawLine line s).2 flying l := by
  obtain ⟨alone, free, flying, answers⟩ := h
  cases line with
  | done =>
    cases e : s.doneAnswers <;> simp only [drawLine, e] <;> exact ⟨alone, free, flying, answers⟩
  | nonce =>
    cases e : s.nonceAnswers <;> simp only [drawLine, e] <;> exact ⟨alone, free, flying, answers⟩

theorem readLine_lone (line : Line) (b : Nat) (h : Lone s flying l) : Lone (readLine line b s).2 flying l := by
  obtain ⟨alone, free, flying, answers⟩ := drawLine_lone line h
  rw [readLine, environment_idle s h.alone]
  exact ⟨alone, free, flying, answers⟩

end

end Sys2Proof
end

section
/-! A start (R184 to R192): three writes (`startReset_eq`), the line check, then valid-data asserted, confirmed and cleared
(`startPulse`). With the bus waits ending in time the clearing write is sent after whatever the confirmation was
(`startSeq_clears`); without that it is one of the outcomes of `startSeq_outcomes`. -/

namespace Sys2Proof

open Sys2Proof.Machine

/-! ## The frames of a start -/

/-- The frame that clears valid-data (R191). -/
abbrev clearing (s : State) (t : Target) : Frame :=
  ctlFrame (s.variantOf t.board) t (s.cfgOf t.board).reg.ecr 0

/-- The frame that asserts it (R188). -/
abbrev asserting (s : State) (t : Target) : Frame :=
  ctlFrame (s.variantOf t.board) t (s.cfgOf t.board).reg.ecr (s.cfgOf t.board).ecrValidData

/-- One poll of engine-status (R189). -/
abbrev polling (s : State) (t : Target) : Frame :=
  ctlRead t (s.cfgOf t.board).reg.esr

/-- The four opening writes. -/
abbrev opening (s : State) (t : Target) : List Frame :=
  startOpening (s.variantOf t.board) (s.cfgOf t.board) t

section
variable {s u : State} {t : Target}

theorem clearing_congr (h : Inert s u) (t : Target) : clearing u t = clearing s t := by
  rw [clearing, h.variantOf, h.cfgOf]

theorem asserting_congr (h : Inert s u) (t : Target) : asserting u t = asserting s t := by
  rw [asserting, h.variantOf, h.cfgOf]

theorem polling_congr (h : Inert s u) (t : Target) : polling u t = polling s t := by
  rw [polling, h.cfgOf]

/-! ## The three writes of S1 and S2 (R185, R186) -/

theorem ctlWrite_inert (t : Target) (r : BitVec 7) (x : Word) (s : State) : Inert s (ctlWrite t r x s).2 :=
  memWrite_inert ..

/-- A control write later in a command is the frame its beginning would build. -/
theorem ctlWrite_eq (h : Inert s u) (t : Target) (r : BitVec 7) (x : Word) :
    ctlWrite t r x u = transferWrite (ctlFrame (s.variantOf t.board) t r x) u := by
  rw [ctlWrite, memWrite, h.variantOf]
  rfl

theorem andThen_ok (r : Res Unit) : (r.andThen fun _ u => (.ok (), u)) = r := by
  obtain ⟨e | ⟨⟩, u⟩ := r <;> rfl

theorem andThen_congr {α β : Type} {r : Res α} {k k' : α → State → Res β} (h : ∀ a, k a r.2 = k' a r.2) :
    r.andThen k = r.andThen k' := by
  obtain ⟨e | a, u⟩ := r
  · rfl
  · exact h a

theorem startReset_eq (t : Target) (s : State) : startReset t s = sendAll ((opening s t).take 3) s := by
  have first := ctlWrite_inert t (s.cfgOf t.board).reg.ecr (ecrReset (s.cfgOf t.board)) s
  have second := first.trans (ctlWrite_inert t (s.cfgOf t.board).reg.ecr 0 _)
  refine andThen_congr fun _ => ?_
  change (ctlWrite t (s.cfgOf t.board).reg.ecr 0 _).andThen _ = Res.andThen (transferWrite (ctlFrame _ t _ 0) _) _
  rw [← ctlWrite_eq first]
  refine andThen_congr fun _ => ?_
  change ctlWrite t (s.cfgOf t.board).reg.fcr 0 _ = Res.andThen (transferWrite (ctlFrame _ t _ 0) _) _
  rw [← ctlWrite_eq second]
  exact (andThen_ok _).symm

theorem startReset_ok {n : Nat} (t : Target) (waits : waitsEnd s (3 + n)) :
    ∃ u, startReset t s = (.ok (), u) ∧ Sent s u ((opening s t).take 3) ∧ waitsEnd u n ∧ u.rxAnswers = s.rxAnswers := by
  rw [startReset_eq]
  exact sendAll_ok ((opening s t).take 3) waits

/-! ## The line check S3 (R187) -/

/-- The state after the two samples of the check. -/
def checkedLines (t : Target) (s : State) : State :=
  (readLine .nonce t.board (readLine .done t.board s).2).2

theorem checkedLines_silent (t : Target) (s : State) : Silent s (checkedLines t s) :=
  (readLine_silent .done t.board s).trans (readLine_silent .nonce t.board _)

/-- What the check makes of two samples. -/
theorem startCheck_eq {d n : ChipBits} (made : s.par.plat.verifyPrestart = true)
    (done : (readLine .done t.board s).1 = d) (nonce : (readLine .nonce t.board (readLine .done t.board s).2).1 = n) :
    startCheck t s =
      if d.getLsbD t.chip = false ∧ n.getLsbD t.chip = false then (.ok (), checkedLines t s)
      else if (s.cfgOf t.board).shift = 0 then (.error ⟨.failure, .lines d n⟩, checkedLines t s)
      else (.ok (), logMsg (.prestartLines d n) (checkedLines t s)) := by
  subst done nonce
  rw [← (checkedLines_silent t s).inert.cfgOf, startCheck, if_pos made]
  rfl

theorem startCheck_unmade (unmade : s.par.plat.verifyPrestart = false) : startCheck t s = (.ok (), s) := by
  rw [startCheck, if_neg (by rw [unmade]; exact Bool.false_ne_true)]

/-- The check passes, logs, or is fatal; whichever, it sends nothing. -/
theorem startCheck_outcomes (t : Target) (s : State) :
    ∃ u, Silent s u ∧ (startCheck t s = (.ok (), u)
      ∨ ((s.cfgOf t.board).shift = 0 ∧ s.par.plat.verifyPrestart = true
          ∧ ∃ d n, startCheck t s = (.error ⟨.failure, .lines d n⟩, u))) := by
  cases made : s.par.plat.verifyPrestart with
  | false => exact ⟨s, Silent.refl s, .inl (startCheck_unmade made)⟩
  | true =>
    rw [startCheck_eq made rfl rfl]
    split
    · exact ⟨_, checkedLines_silent t s, .inl rfl⟩
    · split
      · next fatal => exact ⟨_, checkedLines_silent t s, .inr ⟨fatal, rfl, _, _, rfl⟩⟩
      · exact ⟨_, (checkedLines_silent t s).trans (logMsg_silent _ _), .inl rfl⟩

theorem startCheck_of_shift (t : Target) (erratum : (s.cfgOf t.board).shift ≠ 0) :
    ∃ u, startCheck t s = (.ok (), u) ∧ Silent s u := by
  obtain ⟨u, silent, passed | ⟨none, -⟩⟩ := startCheck_outcomes t s
  · exact ⟨u, passed, silent⟩
  · exact absurd none erratum

/-- A scripted sample of DONE, and the script of NONCE left for the next. -/
theorem readLine_done {d : ChipBits} {ds : List ChipBits} (b : Nat) (script : s.doneAnswers = d :: ds) :
    (readLine .done b s).1 = d &&& chipMask s.par.plat.chips ∧ (readLine .done b s).2.nonceAnswers = s.nonceAnswers := by
  have env := environment_frame s
  have par := (environment_inert s).par
  have draw : drawLine .done (environment s) = (d, { environment s with doneAnswers := ds }) := by
    simp only [drawLine, env.done, script]
  rw [readLine, draw]
  exact ⟨congrArg (fun p : Params => d &&& chipMask p.plat.chips) par, env.nonce⟩

theorem readLine_nonce {n : ChipBits} {ns : List ChipBits} (b : Nat) (script : s.nonceAnswers = n :: ns) :
    (readLine .nonce b s).1 = n &&& chipMask s.par.plat.chips ∧ (readLine .nonce b s).2.doneAnswers = s.doneAnswers := by
  have env := environment_frame s
  have par := (environment_inert s).par
  have draw : drawLine .nonce (environment s) = (n, { environment s with nonceAnswers := ns }) := by
    simp only [drawLine, env.nonce, script]
  rw [readLine, draw]
  exact ⟨congrArg (fun p : Params => n &&& chipMask p.plat.chips) par, env.done⟩

/-- The check on scripted samples. -/
theorem startCheck_scripted {d n : ChipBits} {ds ns : List ChipBits} (t : Target) (made : s.par.plat.verifyPrestart = true)
    (done : s.doneAnswers = d :: ds) (nonce : s.nonceAnswers = n :: ns) :
    startCheck t s =
      if (d &&& chipMask s.par.plat.chips).getLsbD t.chip = false ∧ (n &&& chipMask s.par.plat.chips).getLsbD t.chip = false
      then (.ok (), checkedLines t s)
      else if (s.cfgOf t.board).shift = 0
      then (.error ⟨.failure, .lines (d &&& chipMask s.par.plat.chips) (n &&& chipMask s.par.plat.chips)⟩, checkedLines t s)
      else (.ok (), logMsg (.prestartLines (d &&& chipMask s.par.plat.chips) (n &&& chipMask s.par.plat.chips))
        (checkedLines t s)) := by
  obtain ⟨first, left⟩ := readLine_done t.board done
  obtain ⟨second, -⟩ := readLine_nonce t.board (left.trans nonce)
  rw [(readLine_silent .done t.board s).inert.par] at second
  exact startCheck_eq made first second

theorem startCheck_of_clear (clear : prestartClear s t) : ∃ u, startCheck t s = (.ok (), u) ∧ Silent s u := by
  obtain unmade | ⟨d, ds, n, ns, done, nonce, quiet⟩ := clear
  · exact ⟨s, startCheck_unmade unmade, Silent.refl s⟩
  · cases made : s.par.plat.verifyPrestart with
    | false => exact ⟨s, startCheck_unmade made, Silent.refl s⟩
    | true => exact ⟨_, (startCheck_scripted t made done nonce).trans (if_pos quiet), checkedLines_silent t s⟩

theorem prestartClear_congr (clear : prestartClear s t) (par : u.par = s.par) (done : u.doneAnswers = s.doneAnswers)
    (nonce : u.nonceAnswers = s.nonceAnswers) : prestartClear u t := by
  rw [prestartClear, par, done, nonce]
  exact clear

theorem prestartClear_of_sent {fs : List Frame} (clear : prestartClear s t) (sent : Sent s u fs) : prestartClear u t :=
  prestartClear_congr clear sent.calm.inert.par sent.done sent.nonce

/-! ## The confirmation S5 (R189, R190) -/

/-- The polls that show neither bit use up one answer each. -/
theorem pollEsr_unseen (unseen : List Rx) {k n : Nat} {l : List (Option Rx)} (waits : waitsEnd s (unseen.length + n))
    (answers : readsAnswer s (unseen.map some ++ l))
    (blank : ∀ rx ∈ unseen,
      esrSeen (s.cfgOf t.board) (decodedRead (s.variantOf t.board) (s.cfgOf t.board).shift rx) = false) :
    ∃ u, pollEsr t (unseen.length + k) s = pollEsr t k u ∧ Puts s u (List.replicate unseen.length (polling s t))
      ∧ waitsEnd u n ∧ readsAnswer u l := by
  induction unseen generalizing s with
  | nil => exact ⟨s, by rw [List.length_nil, Nat.zero_add], Puts.refl s, by simpa using waits, answers⟩
  | cons rx unseen ih =>
    obtain ⟨v, read, sent, waits', answers', -⟩ := transferRead_ok (polling s t) s (unseen.length + n) rx
      (unseen.map some ++ l) (by rwa [List.length_cons, Nat.add_right_comm] at waits) answers
    have poll := delay_silent (d := .poll) (by decide) v
    have inert := sent.calm.inert.trans poll.inert
    obtain ⟨u, rest, puts, waits'', answers''⟩ := ih (s := delay .poll v) (waitsEnd_congr waits' poll.wait)
      (readsAnswer_congr answers' poll.rx)
      (fun rx mem => by rw [inert.cfgOf, inert.variantOf]; exact blank rx (List.mem_cons_of_mem _ mem))
    refine ⟨u, ?_, ?_, waits'', answers''⟩
    · have shown := blank rx List.mem_cons_self
      rw [← rest, List.length_cons, Nat.add_right_comm, pollEsr, memRead]
      change Res.andThen (transferRead (polling s t) s) _ = _
      rw [read]
      refine if_neg ?_
      rw [sent.calm.inert.cfgOf]
      exact fun h => Bool.false_ne_true (shown.symm.trans h)
    · rw [polling_congr inert] at puts
      exact ((puts_of_sent sent).silent poll).trans puts

/-- A poll that shows one of the bits ends them. -/
theorem pollEsr_seen {rx : Rx} {n k : Nat} (waits : waitsEnd s (n + 1)) (answers : readsAnswer s [some rx])
    (shown : esrSeen (s.cfgOf t.board) (decodedRead (s.variantOf t.board) (s.cfgOf t.board).shift rx) = true) :
    ∃ u, pollEsr t (k + 1) s = (.ok (), u) ∧ Puts s u [polling s t] ∧ waitsEnd u n := by
  obtain ⟨u, read, sent, waits', -, -⟩ := transferRead_ok (polling s t) s n rx [] waits answers
  refine ⟨u, ?_, puts_of_sent sent, waits'⟩
  rw [pollEsr, memRead]
  change Res.andThen (transferRead (polling s t) s) _ = _
  rw [read]
  refine if_pos ?_
  rw [sent.calm.inert.cfgOf]
  exact shown

/-- Whatever the polls end with, they are reads of engine-status, one bus wait each. -/
theorem pollEsr_outcomes (t : Target) (n : Nat) (s : State) :
    ∃ u k r, k ≤ n ∧ pollEsr t n s = (r, u) ∧ Puts s u (List.replicate k (polling s t))
      ∧ ∀ m, waitsEnd s (n + m) → waitsEnd u m := by
  induction n generalizing s with
  | zero => exact ⟨s, 0, _, le_refl 0, rfl, Puts.refl s, fun m waits => by simpa using waits⟩
  | succ n ih =>
    obtain ⟨v, fs, puts, takes, ⟨x, read, rfl⟩ | ⟨busy, sent⟩⟩ := transferRead_outcomes (polling s t) s
    · by_cases shown : esrSeen (v.cfgOf t.board) x = true
      · refine ⟨v, 1, .ok (), Nat.succ_pos n, ?_, puts, fun m waits =>
          waitsEnd_mono (takes (n + m) (by rwa [Nat.add_right_comm] at waits)) (Nat.le_add_left m n)⟩
        rw [pollEsr, memRead]
        change Res.andThen (transferRead (polling s t) s) _ = _
        rw [read]
        exact if_pos shown
      · have poll := delay_silent (d := .poll) (by decide) v
        have inert := puts.inert.trans poll.inert
        obtain ⟨u, k, r, fewer, rest, puts', takes'⟩ := ih (delay .poll v)
        refine ⟨u, k + 1, r, Nat.succ_le_succ fewer, ?_, ?_, fun m waits =>
          takes' m (waitsEnd_congr (takes (n + m) (by rwa [Nat.add_right_comm] at waits)) poll.wait)⟩
        · rw [← rest, pollEsr, memRead]
          change Res.andThen (transferRead (polling s t) s) _ = _
          rw [read]
          exact if_neg shown
        · rw [polling_congr inert] at puts'
          exact (puts.silent poll).trans puts'
    · have stops : pollEsr t (n + 1) s = (.error raisedBusy, v) := by
        rw [pollEsr, memRead]
        change Res.andThen (transferRead (polling s t) s) _ = _
        rw [busy]
        rfl
      have takes' (m : Nat) (waits : waitsEnd s (n + 1 + m)) : waitsEnd v m :=
        waitsEnd_mono (takes (n + m) (by rwa [Nat.add_right_comm] at waits)) (Nat.le_add_left m n)
      obtain rfl | rfl := sent
      · exact ⟨v, 0, _, Nat.zero_le _, stops, puts, takes'⟩
      · exact ⟨v, 1, _, Nat.succ_pos n, stops, puts, takes'⟩

theorem startConfirm_polls (t : Target) (noShift : (s.cfgOf t.board).shift = 0) :
    startConfirm t s = pollEsr t s.par.plat.nStartPolls s :=
  if_pos noShift

theorem startConfirm_waits (t : Target) (erratum : (s.cfgOf t.board).shift ≠ 0) :
    startConfirm t s = (.ok (), delay .validPulse s) :=
  if_neg erratum

theorem startConfirm_outcomes (t : Target) (s : State) :
    ∃ u k r, k ≤ s.par.plat.nStartPolls ∧ ((s.cfgOf t.board).shift ≠ 0 → k = 0) ∧ startConfirm t s = (r, u)
      ∧ Puts s u (List.replicate k (polling s t)) ∧ ∀ m, waitsEnd s (s.par.plat.nStartPolls + m) → waitsEnd u m := by
  by_cases noShift : (s.cfgOf t.board).shift = 0
  · rw [startConfirm_polls t noShift]
    obtain ⟨u, k, r, fewer, polls, puts, takes⟩ := pollEsr_outcomes t s.par.plat.nStartPolls s
    exact ⟨u, k, r, fewer, fun erratum => absurd noShift erratum, polls, puts, takes⟩
  · rw [startConfirm_waits t noShift]
    have pulse := delay_silent (d := .validPulse) (by decide) s
    exact ⟨_, 0, _, Nat.zero_le _, fun _ => rfl, rfl, puts_of_silent pulse, fun m waits =>
      waitsEnd_congr (waitsEnd_mono waits (Nat.le_add_left m _)) pulse.wait⟩

/-! ## The pulse S4 to S6 (R188 to R191) -/

/-- Valid-data asserted, confirmed with `r`, and cleared. -/
theorem startPulse_asserted {v : State} {r : Except Raised Unit} (assert : transferWrite (asserting s t) s = (.ok (), u))
    (confirm : startConfirm t u = (r, v)) : startPulse t s = firstError r (transferWrite (clearing s t) v) := by
  have inert : Inert s v := by
    have first := transferWrite_inert (asserting s t) s
    have second := (startConfirm_still t u).inert
    rw [assert] at first
    rw [confirm] at second
    exact first.trans second
  have run : (ctlWrite t (s.cfgOf t.board).reg.ecr (s.cfgOf t.board).ecrValidData s).andThen (fun _ w => startConfirm t w)
      = (r, v) := by
    rw [ctlWrite_eq (Inert.refl s), assert]
    exact confirm
  unfold startPulse
  dsimp only
  rw [run]
  exact congrArg (firstError r) (ctlWrite_eq inert ..)

/-- Valid-data not asserted, its write being `Busy`, and cleared all the same. -/
theorem startPulse_unasserted {e : Raised} (busy : transferWrite (asserting s t) s = (.error e, u)) :
    startPulse t s = firstError (.error e) (transferWrite (clearing s t) u) := by
  have inert := transferWrite_inert (asserting s t) s
  rw [busy] at inert
  have run : (ctlWrite t (s.cfgOf t.board).reg.ecr (s.cfgOf t.board).ecrValidData s).andThen (fun _ w => startConfirm t w)
      = (.error e, u) := by
    rw [ctlWrite_eq (Inert.refl s), busy]
    rfl
  unfold startPulse
  dsimp only
  rw [run]
  exact congrArg (firstError _) (ctlWrite_eq inert ..)

theorem startSeq_of_passed {v : State} (reset : startReset t s = (.ok (), u)) (check : startCheck t u = (.ok (), v)) :
    startSeq t s = startPulse t v := by
  rw [startSeq, reset]
  change (startCheck t u).andThen _ = _
  rw [check]
  rfl

theorem startSeq_of_fatal {v : State} {e : Raised} (reset : startReset t s = (.ok (), u))
    (check : startCheck t u = (.error e, v)) : startSeq t s = (.error e, v) := by
  rw [startSeq, reset]
  change (startCheck t u).andThen _ = _
  rw [check]
  rfl

/-- With the bus waits ending in time, valid-data is asserted after a check that passed, and cleared after whatever the
confirmation was. -/
theorem startSeq_clears {v : State} {n : Nat} (reset : startReset t s = (.ok (), u)) (sent : Sent s u ((opening s t).take 3))
    (waits : waitsEnd u (n + 1)) (check : startCheck t u = (.ok (), v)) (silent : Silent u v) :
    ∃ w, Puts s w (opening s t) ∧ Grows v w ∧ waitsEnd w n ∧ w.rxAnswers = u.rxAnswers
      ∧ ∀ r x gs, startConfirm t w = (r, x) → Puts w x gs → waitsEnd x 1 →
        ∃ y, startSeq t s = (r, y) ∧ Puts s y (opening s t ++ gs ++ [clearing s t]) ∧ Grows x y
          ∧ y.rxAnswers = x.rxAnswers := by
  have before := sent.calm.inert.trans silent.inert
  obtain ⟨w, assert, sent', waits', rx, -⟩ :=
    transferWrite_ok (asserting v t) v n (waitsEnd_congr waits silent.wait)
  have grows := transferWrite_grows (asserting v t) v
  rw [assert] at grows
  have opened : Puts s w (opening s t) := by
    have puts := ((puts_of_sent sent).silent silent).trans (puts_of_sent sent')
    rw [asserting_congr before] at puts
    exact puts
  refine ⟨w, opened, grows, waits', rx.trans silent.rx, fun r x gs confirm puts last => ?_⟩
  obtain ⟨y, clear, sent'', -, rx', -⟩ := transferWrite_ok (clearing v t) x 0 last
  have grows' := transferWrite_grows (clearing v t) x
  rw [clear] at grows'
  refine ⟨y, ?_, ?_, grows', rx'⟩
  · rw [startSeq_of_passed reset check, startPulse_asserted assert confirm, clear]
    cases r <;> rfl
  · have all := (opened.trans puts).trans (puts_of_sent sent'')
    rwa [clearing_congr before] at all

/-! ## The command (R192) -/

theorem startJob_eq {m : Nat} (preloaded : (s.machine m).jstate = .preloaded) :
    runCommand (.startJob m) s = .next (startBody m s) := by
  have admitted : admits (.startJob m) s = true := by simp [admits, preloaded]
  rw [runCommand_startJob, guarded_of_admits admitted]

/-- A start that succeeds. -/
theorem startJob_ok {m : Nat} {fs : List Frame} (preloaded : (s.machine m).jstate = .preloaded)
    (run : startSeq (s.machine m).tgt s = (.ok (), u)) (puts : Puts s u fs) :
    ∃ w, runCommand (.startJob m) s = .next w ∧ w.machine m = { s.machine m with jstate := .started } ∧ w.result = .ok
      ∧ sends s w fs ∧ w.cal = s.cal ∧ w.hw = s.hw ∧ w.trace = u.trace ∧ w.rxAnswers = u.rxAnswers := by
  have body : startBody m s = { setJState m .started u with result := .ok } := by
    rw [startBody, run]
    rfl
  refine ⟨{ setJState m .started u with result := .ok }, by rw [startJob_eq preloaded, body], ?_, rfl, puts.frames,
    puts.inert.cal, puts.hw, rfl, rfl⟩
  rw [machine_result, setJState_machine, puts.inert.machine]

/-- A start that fails. -/
theorem startJob_error {m : Nat} {fs : List Frame} {e : Raised} (preloaded : (s.machine m).jstate = .preloaded)
    (run : startSeq (s.machine m).tgt s = (.error e, u)) (puts : Puts s u fs) :
    ∃ w, runCommand (.startJob m) s = .next w ∧ w.machine m = { s.machine m with jstate := .error, jerr := e.err }
      ∧ w.result = .err e ∧ sends s w fs ∧ w.cal = s.cal ∧ w.hw = s.hw ∧ w.inflight = u.inflight ∧ w.cs = u.cs := by
  have body : startBody m s = enterError m e u := by
    rw [startBody, run]
    rfl
  refine ⟨enterError m e u, by rw [startJob_eq preloaded, body], ?_, rfl, puts.frames, puts.inert.cal, puts.hw, rfl, rfl⟩
  rw [enterError_machine, puts.inert.machine]

end

/-- Settles O29: the confirmation is the pulse's delay, which stays in the trace; so does what the check logged. -/
theorem startIsTimedOnTheErratumVariant : Obligations.StartIsTimedOnTheErratumVariant := by
  intro m s preloaded erratum waits
  obtain ⟨u, reset, sent, waits', rx⟩ := startReset_ok (n := 2) (s.machine m).tgt waits
  have erratum' : (u.cfgOf (s.machine m).tgt.board).shift ≠ 0 := by rwa [sent.calm.inert.cfgOf]
  obtain ⟨v, check, silent⟩ := startCheck_of_shift (s.machine m).tgt erratum'
  obtain ⟨w, opened, grows, waits'', rx', clears⟩ := startSeq_clears reset sent (n := 1) waits' check silent
  have pulse := delay_silent (d := .validPulse) (by decide) w
  obtain ⟨y, run, puts, grows', rx''⟩ := clears _ _ _
    (startConfirm_waits _ (by rwa [opened.inert.cfgOf])) (puts_of_silent pulse) (waitsEnd_congr waits'' pulse.wait)
  rw [List.append_nil] at puts
  obtain ⟨t, command, machine, result, frames, cal, hw, trace, rx'''⟩ := startJob_ok preloaded run puts
  refine ⟨t, command, machine, result, frames, ?_, ?_, cal, hw, fun d n ds ns made done nonce found => ?_⟩
  · rw [trace]
    exact mem_trace_of_grows grows' (List.mem_append_right _ List.mem_cons_self)
  · rw [rx''', rx'', pulse.rx, rx', rx]
  · have par := sent.calm.inert.par
    have logged := startCheck_scripted (s := u) (s.machine m).tgt (by rwa [par]) (sent.done.trans done)
      (sent.nonce.trans nonce)
    rw [check, par, if_neg, if_neg erratum'] at logged
    · obtain rfl := (Prod.ext_iff.mp logged).2
      rw [trace]
      refine mem_trace_of_grows (grows_trans grows (grows_trans (delay_grows _ w) grows')) ?_
      exact List.mem_append_right _ List.mem_cons_self
    · rintro ⟨noDone, noNonce⟩
      rw [noDone, noNonce] at found
      obtain h | h := found <;> cases h

/-- Settles O30: the blank polls, then the one that shows a bit. -/
theorem startPollsUntilStatusIsSeen : Obligations.StartPollsUntilStatusIsSeen := by
  intro m p unseen seen s preloaded noShift clear length fewer waits answers blank shown
  subst length
  obtain ⟨k, polls⟩ := Nat.exists_eq_add_of_lt fewer
  obtain ⟨u, reset, sent, waits', rx⟩ := startReset_ok (n := 3 + unseen.length) (s.machine m).tgt
    (by convert waits using 1; omega)
  obtain ⟨v, check, silent⟩ := startCheck_of_clear (prestartClear_of_sent clear sent)
  obtain ⟨w, opened, -, waits'', rx', clears⟩ := startSeq_clears reset sent (n := unseen.length + 2)
    (by convert waits' using 1; omega) check silent
  have cfg := opened.inert.cfgOf (s.machine m).tgt.board
  have variant := opened.inert.variantOf (s.machine m).tgt.board
  obtain ⟨x, unseenPolls, puts, waits3, answers'⟩ := pollEsr_unseen (t := (s.machine m).tgt) (s := w) unseen (k := k + 1) (n := 2)
    (l := [some seen]) waits'' (readsAnswer_congr answers (rx'.trans rx)) (fun rx mem => by
      rw [cfg, variant, noShift]
      exact decide_eq_false (not_not.mpr (blank rx mem)))
  have after := opened.inert.trans puts.inert
  obtain ⟨y, lastPoll, puts', waits4⟩ := pollEsr_seen (t := (s.machine m).tgt) (s := x) (k := k) (n := 1) waits3 answers' (by
    rw [after.cfgOf, after.variantOf, noShift]
    exact decide_eq_true shown)
  rw [polling_congr after] at puts'
  rw [polling_congr opened.inert] at puts
  have confirm : startConfirm (s.machine m).tgt w = (.ok (), y) := by
    rw [startConfirm_polls _ (by rwa [cfg]), opened.inert.par, polls, ← lastPoll, ← unseenPolls, Nat.add_assoc]
  obtain ⟨z, run, puts'', -, -⟩ := clears _ _ _ confirm (puts.trans puts') waits4
  obtain ⟨t, command, machine, result, frames, cal, hw, -, -⟩ := startJob_ok preloaded run puts''
  refine ⟨t, command, machine, result, ?_, cal, hw⟩
  rw [List.replicate_succ']
  exact frames

/-- Settles O31: all the polls are blank, and then none is left. -/
theorem startTimesOut : Obligations.StartTimesOut := by
  intro m unseen s preloaded noShift clear length waits answers blank
  rw [← length] at waits
  obtain ⟨u, reset, sent, waits', rx⟩ := startReset_ok (n := 2 + unseen.length) (s.machine m).tgt
    (by convert waits using 1; omega)
  obtain ⟨v, check, silent⟩ := startCheck_of_clear (prestartClear_of_sent clear sent)
  obtain ⟨w, opened, -, waits'', rx', clears⟩ := startSeq_clears reset sent (n := unseen.length + 1)
    (by convert waits' using 1; omega) check silent
  have cfg := opened.inert.cfgOf (s.machine m).tgt.board
  have variant := opened.inert.variantOf (s.machine m).tgt.board
  obtain ⟨x, unseenPolls, puts, waits3, -⟩ := pollEsr_unseen (t := (s.machine m).tgt) (s := w) unseen (k := 0) (n := 1) (l := [])
    waits'' (readsAnswer_congr (by rwa [List.append_nil]) (rx'.trans rx)) (fun rx mem => by
      rw [cfg, variant, noShift]
      exact decide_eq_false (not_not.mpr (blank rx mem)))
  rw [polling_congr opened.inert] at puts
  have confirm : startConfirm (s.machine m).tgt w = (.error ⟨.timeout, .nothing⟩, x) := by
    rw [startConfirm_polls _ (by rwa [cfg]), opened.inert.par, ← length]
    exact unseenPolls
  obtain ⟨z, run, puts', -, -⟩ := clears _ _ _ confirm puts waits3
  obtain ⟨t, command, machine, result, frames, cal, hw, -⟩ := startJob_error preloaded run puts'
  rw [length] at frames
  exact ⟨t, command, machine, result, frames, cal, hw⟩

/-- Settles O33: the check stops the sequence after its first three writes. -/
theorem prestartCheckIsFatal : Obligations.PrestartCheckIsFatal := by
  intro m d n ds ns s preloaded noShift made waits done nonce found
  obtain ⟨u, reset, sent, -, -⟩ := startReset_ok (n := 0) (s.machine m).tgt waits
  have par := sent.calm.inert.par
  have check := startCheck_scripted (s := u) (s.machine m).tgt (by rwa [par]) (sent.done.trans done) (sent.nonce.trans nonce)
  rw [par, if_neg, if_pos (by rwa [sent.calm.inert.cfgOf])] at check
  · have silent := checkedLines_silent (s.machine m).tgt u
    obtain ⟨t, command, machine, result, frames, -⟩ :=
      startJob_error preloaded (startSeq_of_fatal reset check) ((puts_of_sent sent).silent silent)
    exact ⟨t, command, machine, result, frames⟩
  · rintro ⟨noDone, noNonce⟩
    rw [noDone, noNonce] at found
    obtain h | h := found <;> cases h

end Sys2Proof
end

section
/-! Valid-data is cleared whenever it was attempted to assert it (R191): what a pulse can end with (`PulseEnd`), and the
runs in which a given bus wait expires. -/

namespace Sys2Proof

open Sys2Proof.Machine

/-! ## The ends of a start, whatever happens -/

/-- How the pulse S4 to S6 can end, `u` being the state after it, with which outcome and which frames on the bus. -/
inductive PulseEnd (s : State) (t : Target) (u : State) : Except Raised Unit → List Frame → Prop
  | cleared {r : Except Raised Unit} {k : Nat} (fewer : k ≤ s.par.plat.nStartPolls)
      (timed : (s.cfgOf t.board).shift ≠ 0 → k = 0) :
      PulseEnd s t u r ([asserting s t] ++ List.replicate k (polling s t) ++ [clearing s t])
  | unasserted {e : Raised} : PulseEnd s t u (.error e) [clearing s t]
  | uncleared {e : Raised} {k : Nat} (fewer : k ≤ s.par.plat.nStartPolls) (timed : (s.cfgOf t.board).shift ≠ 0 → k = 0)
      (inflight : u.inflight = none) (cs : u.cs = []) :
      PulseEnd s t u (.error e) ([asserting s t] ++ List.replicate k (polling s t))
  | nothing {e : Raised} : PulseEnd s t u (.error e) []

section
variable {s v : State} {t : Target}

/-- Two results, the second the clean-up's: where that is `Busy` too, it is logged, and the bus is as it left it. -/
theorem firstError_busy (r : Except Raised Unit) (u : State) :
    ∃ e w, firstError r (.error raisedBusy, u) = (.error e, w) ∧ Silent u w ∧ w.inflight = u.inflight ∧ w.cs = u.cs := by
  cases r with
  | ok => exact ⟨_, u, rfl, Silent.refl u, rfl, rfl⟩
  | error e => exact ⟨e, _, rfl, logMsg_silent _ u, rfl, rfl⟩

theorem firstError_ok (r : Except Raised Unit) (u : State) : firstError r (.ok (), u) = (r, u) := by
  cases r <;> rfl

theorem startPulse_ends (inert : Inert s v) :
    ∃ u r fs, startPulse t v = (r, u) ∧ Puts v u fs ∧ PulseEnd s t u r fs := by
  have clear := clearing_congr inert t
  have assert := asserting_congr inert t
  have poll := polling_congr inert t
  obtain ⟨w, ⟨ok, sent⟩ | ⟨busy, unsent, -, -⟩⟩ := transferWrite_outcomes (asserting v t) v
  · obtain ⟨x, k, r, fewer, timed, confirm, polls, -⟩ := startConfirm_outcomes t w
    have inert' := inert.trans sent.inert
    rw [inert'.par] at fewer
    rw [inert'.cfgOf] at timed
    rw [polling_congr sent.inert, poll] at polls
    rw [assert] at sent
    rw [startPulse_asserted ok confirm, clear]
    obtain ⟨y, ⟨ok', sent'⟩ | ⟨busy', unsent', none, cs⟩⟩ := transferWrite_outcomes (clearing s t) x
    · rw [ok', firstError_ok]
      exact ⟨y, r, _, rfl, (sent.trans polls).trans sent', .cleared fewer timed⟩
    · obtain ⟨e, z, e', silent, none', cs'⟩ := firstError_busy r y
      have all := ((sent.trans polls).trans unsent').silent silent
      rw [List.append_nil] at all
      rw [busy', e']
      exact ⟨z, _, _, rfl, all, .uncleared fewer timed (none'.trans none) (cs'.trans cs)⟩
  · rw [startPulse_unasserted busy, clear]
    obtain ⟨y, ⟨ok', sent'⟩ | ⟨busy', unsent', -, -⟩⟩ := transferWrite_outcomes (clearing s t) w
    · rw [ok', firstError_ok]
      exact ⟨y, _, _, rfl, unsent.trans sent', .unasserted⟩
    · obtain ⟨e, z, e', silent, -, -⟩ := firstError_busy (.error raisedBusy) y
      rw [busy', e']
      exact ⟨z, _, _, rfl, (unsent.trans unsent').silent silent, .nothing⟩

/-- A start sends no more than its three opening writes, or all three and a pulse. -/
theorem startSeq_ends (t : Target) (s : State) :
    ∃ u r fs, startSeq t s = (r, u) ∧ Puts s u fs
      ∧ ((∃ e, r = .error e ∧ fs <+: (opening s t).take 3)
        ∨ ∃ gs, fs = (opening s t).take 3 ++ gs ∧ PulseEnd s t u r gs) := by
  have still := startReset_still t s
  obtain ⟨u, n, calm, frames, ⟨ok, all⟩ | ⟨busy, -⟩⟩ := sendAll_cases ((opening s t).take 3) s
  · rw [← startReset_eq] at ok
    rw [ok] at still
    rw [all, List.take_length] at frames
    have sent : Puts s u ((opening s t).take 3) := ⟨still, frames⟩
    obtain ⟨w, silent, passed | ⟨-, -, d, l, fatal⟩⟩ := startCheck_outcomes t u
    · obtain ⟨x, r, gs, pulse, puts, ends⟩ := startPulse_ends (t := t) (sent.inert.trans silent.inert)
      rw [← startSeq_of_passed ok passed] at pulse
      exact ⟨x, r, _, pulse, (sent.silent silent).trans puts, .inr ⟨gs, rfl, ends⟩⟩
    · exact ⟨w, _, _, startSeq_of_fatal ok fatal, sent.silent silent, .inl ⟨_, rfl, List.prefix_refl _⟩⟩
  · rw [← startReset_eq] at busy
    rw [busy] at still
    have stops : startSeq t s = (.error raisedBusy, u) := by
      rw [startSeq, busy]
      rfl
    exact ⟨u, _, _, stops, ⟨still, frames⟩, .inl ⟨_, rfl, List.take_prefix _ _⟩⟩

/-- The command, whatever its sequence ends with. -/
theorem startJob_ends {m : Nat} {u : State} {r : Except Raised Unit} {fs : List Frame}
    (preloaded : (s.machine m).jstate = .preloaded) (run : startSeq (s.machine m).tgt s = (r, u)) (puts : Puts s u fs) :
    ∃ w, runCommand (.startJob m) s = .next w ∧ sends s w fs
      ∧ ((r = .ok () ∧ (w.machine m).jstate = .started)
        ∨ (∃ e, r = .error e ∧ (w.machine m).jstate = .error ∧ w.result = .err e ∧ w.inflight = u.inflight ∧ w.cs = u.cs)) := by
  cases r with
  | ok a =>
    obtain ⟨w, command, machine, -, frames, -⟩ := startJob_ok preloaded run puts
    exact ⟨w, command, frames, .inl ⟨rfl, by rw [machine]⟩⟩
  | error e =>
    obtain ⟨w, command, machine, result, frames, -, -, inflight, cs⟩ := startJob_error preloaded run puts
    exact ⟨w, command, frames, .inr ⟨e, rfl, by rw [machine], result, inflight, cs⟩⟩

/-! ## Runs without other agents -/

theorem transferWrite_lines (f : Frame) (s : State) :
    (transferWrite f s).2.doneAnswers = s.doneAnswers ∧ (transferWrite f s).2.nonceAnswers = s.nonceAnswers := by
  have env := environment_frame s
  obtain ⟨u, only, ⟨e, -⟩ | ⟨e, -⟩⟩ :=
    busWrite_outcomes f.board (s.variantOf f.board) (s.encodeFor f) ((environment s).setFrame f) <;>
  · obtain ⟨-, -, -, -, -, -, done, nonce, -⟩ := only.same
    rw [transferWrite, e]
    exact ⟨done.trans env.done, nonce.trans env.nonce⟩

/-- The three opening writes on an idle bus: the first takes no answer of the script, the others one each. -/
theorem startReset_lone {l : List Bool} (t : Target) (lone : Lone s false (true :: true :: l)) :
    ∃ u, startReset t s = (.ok (), u) ∧ Puts s u ((opening s t).take 3) ∧ Lone u true l
      ∧ u.doneAnswers = s.doneAnswers ∧ u.nonceAnswers = s.nonceAnswers := by
  rw [startReset_eq]
  obtain ⟨u, first, puts, lone⟩ := transferWrite_idle
    (ctlFrame (s.variantOf t.board) t (s.cfgOf t.board).reg.ecr (ecrReset (s.cfgOf t.board))) lone
  obtain ⟨v, second, puts', lone⟩ := transferWrite_held (ctlFrame (s.variantOf t.board) t (s.cfgOf t.board).reg.ecr 0) lone
  obtain ⟨w, third, puts'', lone⟩ := transferWrite_held (ctlFrame (s.variantOf t.board) t (s.cfgOf t.board).reg.fcr 0) lone
  have lines := transferWrite_lines (ctlFrame (s.variantOf t.board) t (s.cfgOf t.board).reg.ecr (ecrReset (s.cfgOf t.board))) s
  have lines' := transferWrite_lines (ctlFrame (s.variantOf t.board) t (s.cfgOf t.board).reg.ecr 0) u
  have lines'' := transferWrite_lines (ctlFrame (s.variantOf t.board) t (s.cfgOf t.board).reg.fcr 0) v
  rw [first] at lines
  rw [second] at lines'
  rw [third] at lines''
  refine ⟨w, ?_, (puts.trans puts').trans puts'', lone, lines''.1.trans (lines'.1.trans lines.1),
    lines''.2.trans (lines'.2.trans lines.2)⟩
  change (transferWrite _ s).andThen _ = _
  rw [first]
  change (transferWrite _ u).andThen _ = _
  rw [second]
  change (transferWrite _ v).andThen _ = _
  rw [third]
  rfl

theorem startCheck_lone {flying : Bool} {l : List Bool} (t : Target) (lone : Lone s flying l) :
    Lone (startCheck t s).2 flying l := by
  have lines : Lone (checkedLines t s) flying l := readLine_lone .nonce t.board (readLine_lone .done t.board lone)
  cases made : s.par.plat.verifyPrestart with
  | false =>
    rw [startCheck_unmade made]
    exact lone
  | true =>
    rw [startCheck_eq made rfl rfl]
    split
    · exact lines
    · split
      · exact lines
      · exact logMsg_lone _ lines

/-- The start up to the assert, without other agents, after a check that passes. -/
theorem startSeq_lone {l : List Bool} (t : Target) (lone : Lone s false (true :: true :: l))
    (passes : prestartClear s t ∨ (s.cfgOf t.board).shift ≠ 0) :
    ∃ v, Puts s v ((opening s t).take 3) ∧ Lone v true l ∧ startSeq t s = startPulse t v := by
  obtain ⟨u, reset, puts, lone, done, nonce⟩ := startReset_lone t lone
  have checked : ∃ v, startCheck t u = (.ok (), v) ∧ Silent u v := by
    obtain clear | erratum := passes
    · exact startCheck_of_clear (prestartClear_congr clear puts.inert.par done nonce)
    · exact startCheck_of_shift t (by rwa [puts.inert.cfgOf])
  obtain ⟨v, check, silent⟩ := checked
  have lone' := startCheck_lone t lone
  rw [check] at lone'
  exact ⟨v, puts.silent silent, lone', startSeq_of_passed reset check⟩

/-- The assert's wait expires. -/
theorem startSeq_assert_expires {l : List Bool} (t : Target) (lone : Lone s false (true :: true :: false :: l))
    (clear : prestartClear s t) :
    ∃ u, startSeq t s = (.error raisedBusy, u) ∧ Puts s u ((opening s t).take 3 ++ [clearing s t]) := by
  obtain ⟨v, puts, lone, run⟩ := startSeq_lone t lone (.inl clear)
  obtain ⟨w, busy, unsent, lone, -⟩ := transferWrite_expires (asserting v t) lone
  obtain ⟨x, ok, sent, -⟩ := transferWrite_idle (clearing v t) lone
  refine ⟨x, by rw [run, startPulse_unasserted busy, ok]; rfl, ?_⟩
  rw [← clearing_congr puts.inert]
  exact puts.trans (unsent.trans sent)

/-- The first poll's wait expires. -/
theorem startSeq_poll_expires {l : List Bool} (t : Target) (lone : Lone s false (true :: true :: true :: false :: l))
    (clear : prestartClear s t) (noShift : (s.cfgOf t.board).shift = 0) (polls : 0 < s.par.plat.nStartPolls) :
    ∃ u, startSeq t s = (.error raisedBusy, u) ∧ Puts s u (opening s t ++ [clearing s t]) := by
  obtain ⟨v, puts, lone, run⟩ := startSeq_lone t lone (.inl clear)
  obtain ⟨w, assert, sent, lone⟩ := transferWrite_held (asserting v t) lone
  obtain ⟨x, busy, unsent, lone⟩ := transferRead_expires (polling w t) lone
  obtain ⟨y, ok, sent', -⟩ := transferWrite_idle (clearing v t) lone
  have inert := puts.inert.trans sent.inert
  have confirm : startConfirm t w = (.error raisedBusy, x) := by
    obtain ⟨n, fuel⟩ := Nat.exists_eq_succ_of_ne_zero polls.ne'
    rw [startConfirm_polls t (by rwa [inert.cfgOf]), inert.par, fuel, pollEsr, memRead]
    change Res.andThen (transferRead (polling w t) w) _ = _
    rw [busy]
    rfl
  refine ⟨y, by rw [run, startPulse_asserted assert confirm, ok]; rfl, ?_⟩
  rw [clearing_congr puts.inert] at sent'
  rw [asserting_congr puts.inert] at sent
  exact (puts.trans sent).trans (unsent.trans sent')

/-- On the erratum-affected variant the next wait after the assert's is the clearing write's own. -/
theorem startSeq_clear_expires {l : List Bool} (t : Target) (lone : Lone s false (true :: true :: true :: false :: l))
    (erratum : (s.cfgOf t.board).shift ≠ 0) :
    ∃ u, startSeq t s = (.error raisedBusy, u) ∧ Puts s u (opening s t) ∧ u.inflight = none ∧ u.cs = [] := by
  obtain ⟨v, puts, lone, run⟩ := startSeq_lone t lone (.inr erratum)
  obtain ⟨w, assert, sent, lone⟩ := transferWrite_held (asserting v t) lone
  have pulse := delay_silent (d := .validPulse) (by decide) w
  obtain ⟨y, busy, unsent, lone, cs⟩ := transferWrite_expires (clearing v t) (delay_lone .validPulse lone)
  have confirm := startConfirm_waits (s := w) t (by rwa [(puts.inert.trans sent.inert).cfgOf])
  refine ⟨y, by rw [run, startPulse_asserted assert confirm, busy]; rfl, ?_, lone_inflight lone, cs⟩
  rw [asserting_congr puts.inert] at sent
  have all := ((puts.trans sent).silent pulse).trans unsent
  rwa [List.append_nil] at all

end

/-! ## The six clauses -/

theorem started_has_cleared {m : Nat} {s t : State} (h : runCommand (.startJob m) s = .next t)
    (started : (t.machine m).jstate = .started) :
    ∃ fs, sends s t (fs ++ [clearing s (s.machine m).tgt]) ∧ opening s (s.machine m).tgt <+: fs := by
  have preloaded : (s.machine m).jstate = .preloaded := by
    obtain ⟨admitted, -⟩ := guarded_next (runCommand_startJob m s ▸ h)
    simpa [admits] using admitted
  obtain ⟨u, r, fs, run, puts, ends⟩ := startSeq_ends (s.machine m).tgt s
  obtain ⟨w, command, frames, ⟨rfl, -⟩ | ⟨e, -, error, -⟩⟩ := startJob_ends preloaded run puts
  · cases h.symm.trans command
    obtain ⟨e, error, -⟩ | ⟨gs, rfl, cleared⟩ := ends
    · cases error
    · cases cleared with
      | cleared fewer timed => exact ⟨_, frames, List.prefix_append ..⟩
  · cases h.symm.trans command
    cases error.symm.trans started

/-- Settles O32: the first two clauses by the ends of a start, the third by its completed run, the last three by the runs in
which one wait expires. -/
theorem startedMeansDeasserted : Obligations.StartedMeansDeasserted := by
  refine ⟨fun m s t => started_has_cleared, fun m s preloaded => ?_, fun m s preloaded waits => ?_,
    fun m rest s preloaded alone idle clear answers => ?_,
    fun m rest s preloaded alone idle clear noShift polls answers => ?_,
    fun m rest s preloaded alone idle erratum answers => ?_⟩
  · obtain ⟨u, r, fs, run, puts, ends⟩ := startSeq_ends (s.machine m).tgt s
    obtain ⟨w, command, frames, outcome⟩ := startJob_ends preloaded run puts
    have failed {e : Raised} (error : r = .error e) : w.result ≠ .ok ∧ w.inflight = u.inflight ∧ w.cs = u.cs := by
      subst error
      obtain ⟨ok, -⟩ | ⟨e', -, -, result, bus⟩ := outcome
      · cases ok
      · exact ⟨by rw [result]; exact nofun, bus⟩
    obtain ⟨e, rfl, first⟩ | ⟨gs, rfl, pulse⟩ := ends
    · exact ⟨w, fs, 0, command, frames, Nat.zero_le _, fun _ => rfl, .inr (.inr ⟨(failed rfl).1, first⟩)⟩
    · cases pulse with
      | cleared fewer timed => exact ⟨w, _, _, command, frames, fewer, timed, .inl (.inl rfl)⟩
      | unasserted =>
        exact ⟨w, _, 0, command, frames, Nat.zero_le _, fun _ => rfl, .inl (.inr ⟨(failed rfl).1, rfl⟩)⟩
      | uncleared fewer timed inflight cs =>
        obtain ⟨result, inflight', cs'⟩ := failed rfl
        exact ⟨w, _, _, command, frames, fewer, timed, .inr (.inl ⟨result, inflight'.trans inflight,
          fun b => congrArg (Store.lookD false · b) (cs'.trans cs), rfl⟩)⟩
      | nothing =>
        exact ⟨w, _, 0, command, frames, Nat.zero_le _, fun _ => rfl,
          .inr (.inr ⟨(failed rfl).1, by rw [List.append_nil]⟩)⟩
  · obtain ⟨u, reset, sent, waits', -⟩ := startReset_ok (n := s.par.plat.nStartPolls + 2 + 1) (s.machine m).tgt
      (by convert waits using 1; omega)
    obtain ⟨v, silent, passed | ⟨noShift, made, d, n, fatal⟩⟩ := startCheck_outcomes (s.machine m).tgt u
    · obtain ⟨w, opened, -, waits'', -, clears⟩ := startSeq_clears reset sent waits' passed silent
      obtain ⟨x, k, r, fewer, timed, confirm, polls, takes⟩ := startConfirm_outcomes (s.machine m).tgt w
      rw [polling_congr opened.inert] at polls
      rw [opened.inert.par] at fewer takes
      rw [opened.inert.cfgOf] at timed
      obtain ⟨y, run, puts, -⟩ := clears r x _ confirm polls (waitsEnd_mono (takes 2 waits'') (by decide))
      obtain ⟨t, command, frames, -⟩ := startJob_ends preloaded run puts
      exact ⟨t, command, .inr ⟨k, fewer, timed, frames⟩⟩
    · obtain ⟨t, command, -, result, frames, -⟩ :=
        startJob_error preloaded (startSeq_of_fatal reset fatal) ((puts_of_sent sent).silent silent)
      rw [sent.calm.inert.cfgOf] at noShift
      rw [sent.calm.inert.par] at made
      exact ⟨t, command, .inl ⟨noShift, made, ⟨d, n, result⟩, frames⟩⟩
  · obtain ⟨u, run, puts⟩ := startSeq_assert_expires (s.machine m).tgt (lone_of_idle alone idle answers) clear
    obtain ⟨t, command, machine, result, frames, -⟩ := startJob_error preloaded run puts
    exact ⟨t, command, machine, result, frames⟩
  · obtain ⟨u, run, puts⟩ :=
      startSeq_poll_expires (s.machine m).tgt (lone_of_idle alone idle answers) clear noShift polls
    obtain ⟨t, command, machine, result, frames, -⟩ := startJob_error preloaded run puts
    exact ⟨t, command, machine, result, frames⟩
  · obtain ⟨u, run, puts, inflight, cs⟩ := startSeq_clear_expires (s.machine m).tgt (lone_of_idle alone idle answers) erratum
    obtain ⟨t, command, machine, result, frames, -, -, inflight', cs'⟩ := startJob_error preloaded run puts
    exact ⟨t, command, machine, result, inflight'.trans inflight,
      fun b => congrArg (Store.lookD false · b) (cs'.trans cs), frames⟩

end Sys2Proof
end

section
/-! A read of the solution (R194 to R203): the vector, the FIFO, and then, the value being latched, the acknowledge, the
read-complete pulse and the line check (`readTail`). -/

namespace Sys2Proof

open Sys2Proof.Machine

section
variable {s u v : State} {t : Target} {m : Nat}

/-! ## The interrupt vector RS1 (R195, R196) -/

/-- The read of the interrupt vector. -/
abbrev vectorRead (s : State) (t : Target) : Frame :=
  readFrame t.board t.chip (s.cfgOf t.board).chipCore (s.cfgOf t.board).reg.ivr

theorem readVector_eq {y : Word} (read : transferRead (vectorRead s t) s = (.ok y, u)) :
    readVector t s =
      if ivrExpected (s.cfgOf t.board) t.core y then (.ok (), u) else (.error ⟨.failure, .ivr y⟩, u) := by
  rw [readVector]
  change Res.andThen (transferRead (vectorRead s t) s) _ = _
  rw [read]
  rfl

/-! ## The latched value and what follows it (R198 to R201) -/

/-- RS3 to RS5: acknowledge, read-complete pulse and line check, the value `x` being read. -/
def readTail (t : Target) (x : Word) (s : State) : Res (Word × Bool) :=
  (ctlWrite t (s.cfgOf t.board).reg.fcr (s.cfgOf t.board).fcrMaskAll s).andThen fun _ u =>
  (readComplete t u).andThen fun _ v => (.ok (x, (residualCheck t v).1), (residualCheck t v).2)

/-- A machine with the value read latched. -/
def latched (m : Nat) (x : Word) (s : State) : State :=
  s.setMachine m { s.machine m with jnonce := x }

/-- The read of the first FIFO-data register (R198). -/
abbrev fifoRead (s : State) (t : Target) : Frame :=
  ctlRead t (addrFdr0 (s.cfgOf t.board))

theorem readSeq_eq {x : Word} (vector : readVector t s = (.ok (), u)) (same : Inert s u)
    (read : transferRead (fifoRead s t) u = (.ok x, v)) : readSeq m t s = readTail t x (latched m x v) := by
  rw [readSeq, vector]
  change Res.andThen (transferRead (ctlRead t (addrFdr0 (u.cfgOf t.board))) u) _ = _
  rw [same.cfgOf, read]
  rfl

theorem readSeq_of_mismatch {e : Raised} (vector : readVector t s = (.error e, u)) : readSeq m t s = (.error e, u) := by
  rw [readSeq, vector]
  rfl

theorem latched_par (m : Nat) (x : Word) (s : State) : (latched m x s).par = s.par := rfl

/-! ## The parts that succeed -/

theorem delay_sent {d : Duration} (h : d ≠ .settle) (s : State) : Sent s (delay d s) [] := by
  have env := environment_frame s
  have silent := delay_silent h s
  exact ⟨silent.toCalm, (puts_of_silent silent).frames, env.done, env.nonce, env.sane, silent.settles⟩

/-- The write that asserts read-complete (R200). -/
abbrev completing (s : State) (t : Target) : Frame :=
  ctlFrame (s.variantOf t.board) t (s.cfgOf t.board).reg.ecr (s.cfgOf t.board).ecrReadComplete

/-- The acknowledging write (R199). -/
abbrev acknowledging (s : State) (t : Target) : Frame :=
  ctlFrame (s.variantOf t.board) t (s.cfgOf t.board).reg.fcr (s.cfgOf t.board).fcrMaskAll

theorem acknowledging_congr (h : Inert s u) (t : Target) : acknowledging u t = acknowledging s t := by
  rw [acknowledging, h.variantOf, h.cfgOf]

theorem completing_congr (h : Inert s u) (t : Target) : completing u t = completing s t := by
  rw [completing, h.variantOf, h.cfgOf]

/-- The pulse asserted, and its clearing write after the delay. -/
theorem readComplete_asserted (assert : transferWrite (completing s t) s = (.ok (), u)) :
    readComplete t s = transferWrite (clearing s t) (delay .rcDelay u) := by
  have inert := transferWrite_inert (completing s t) s
  rw [assert] at inert
  have run : (ctlWrite t (s.cfgOf t.board).reg.ecr (s.cfgOf t.board).ecrReadComplete s).andThen
      (fun _ w => ((.ok (), delay .rcDelay w) : Res Unit)) = (.ok (), delay .rcDelay u) := by
    rw [ctlWrite_eq (Inert.refl s), assert]
    rfl
  unfold readComplete
  dsimp only
  rw [run]
  exact ctlWrite_eq (inert.trans (delay_inert .rcDelay u)) ..

/-- The pulse not asserted, its write being `Busy`, and cleared all the same. -/
theorem readComplete_unasserted {e : Raised} (busy : transferWrite (completing s t) s = (.error e, u)) :
    readComplete t s = firstError (.error e) (transferWrite (clearing s t) u) := by
  have inert := transferWrite_inert (completing s t) s
  rw [busy] at inert
  have run : (ctlWrite t (s.cfgOf t.board).reg.ecr (s.cfgOf t.board).ecrReadComplete s).andThen
      (fun _ w => ((.ok (), delay .rcDelay w) : Res Unit)) = (.error e, u) := by
    rw [ctlWrite_eq (Inert.refl s), busy]
    rfl
  unfold readComplete
  dsimp only
  rw [run]
  exact congrArg (firstError _) (ctlWrite_eq inert ..)

theorem readComplete_ok {n : Nat} (t : Target) (waits : waitsEnd s (n + 2)) :
    ∃ u, readComplete t s = (.ok (), u) ∧ Sent s u [completing s t, clearing s t] := by
  obtain ⟨u, assert, sent, waits', -⟩ := transferWrite_ok (completing s t) s (n + 1) waits
  have pulse := delay_sent (d := .rcDelay) (by decide) u
  obtain ⟨v, clear, sent', -⟩ := transferWrite_ok (clearing s t) (delay .rcDelay u) n
    (waitsEnd_congr waits' (delay_silent (by decide) u).wait)
  exact ⟨v, (readComplete_asserted assert).trans clear, sent.trans (pulse.trans sent')⟩

/-- The line check RS5 on scripted samples (R201). -/
theorem residualCheck_scripted {d n : ChipBits} {ds ns : List ChipBits} (t : Target) (done : s.doneAnswers = d :: ds)
    (nonce : s.nonceAnswers = n :: ns) :
    ∃ u, Silent s u ∧ residualCheck t s
      = (s.par.plat.verifyPostread && ((n &&& chipMask s.par.plat.chips).getLsbD t.chip
          || (d &&& chipMask s.par.plat.chips).getLsbD t.chip), u) := by
  obtain ⟨first, left⟩ := readLine_nonce t.board nonce
  obtain ⟨second, -⟩ := readLine_done t.board (left.trans done)
  have silent := readLine_silent .nonce t.board s
  rw [silent.inert.par] at second
  have lines := silent.trans (readLine_silent .done t.board (readLine .nonce t.board s).2)
  unfold residualCheck
  cases made : s.par.plat.verifyPostread with
  | false => exact ⟨s, Silent.refl s, rfl⟩
  | true =>
    dsimp only
    rw [first, second, if_pos rfl]
    split
    · next found => exact ⟨_, lines.trans (logMsg_silent _ _), Prod.ext (by simpa using found) rfl⟩
    · next clear => exact ⟨_, lines, Prod.ext (by simpa using clear) rfl⟩

/-- The three writes and the check after the value is latched. -/
theorem readTail_ok {d n : ChipBits} {ds ns : List ChipBits} (t : Target) (x : Word) (waits : waitsEnd s 3)
    (done : s.doneAnswers = d :: ds) (nonce : s.nonceAnswers = n :: ns) :
    ∃ u, readTail t x s
        = (.ok (x, s.par.plat.verifyPostread && ((n &&& chipMask s.par.plat.chips).getLsbD t.chip
            || (d &&& chipMask s.par.plat.chips).getLsbD t.chip)), u)
      ∧ Puts s u [acknowledging s t, completing s t, clearing s t] := by
  obtain ⟨v, acknowledge, sent, waits', -⟩ := transferWrite_ok (acknowledging s t) s 2 waits
  obtain ⟨w, complete, sent'⟩ := readComplete_ok (n := 0) t waits'
  obtain ⟨u, silent, residual⟩ := residualCheck_scripted t (sent'.done.trans (sent.done.trans done))
    (sent'.nonce.trans (sent.nonce.trans nonce))
  have both := sent.trans sent'
  rw [completing_congr sent.calm.inert, clearing_congr sent.calm.inert] at both
  rw [both.calm.inert.par] at residual
  refine ⟨u, ?_, (puts_of_sent both).silent silent⟩
  rw [readTail, ctlWrite_eq (Inert.refl s), acknowledge]
  change (readComplete t v).andThen _ = _
  rw [complete]
  change ((.ok (x, (residualCheck t w).1), (residualCheck t w).2) : Res (Word × Bool)) = _
  rw [residual]

/-- The read-complete write's wait expires, on a bus idle before the acknowledge. -/
theorem readTail_complete_expires {l : List Bool} (t : Target) (x : Word) (lone : Lone s false (false :: l)) :
    ∃ u, readTail t x s = (.error raisedBusy, u) ∧ Puts s u [acknowledging s t, clearing s t] := by
  obtain ⟨v, acknowledge, puts, lone⟩ := transferWrite_idle (acknowledging s t) lone
  obtain ⟨w, busy, unsent, lone, -⟩ := transferWrite_expires (completing v t) lone
  obtain ⟨u, clear, sent, -⟩ := transferWrite_idle (clearing v t) lone
  refine ⟨u, ?_, ?_⟩
  · rw [readTail, ctlWrite_eq (Inert.refl s), acknowledge]
    change (readComplete t v).andThen _ = _
    rw [readComplete_unasserted busy, clear]
    rfl
  · rw [clearing_congr puts.inert] at sent
    exact puts.trans (unsent.trans sent)

/-! ## The command (R202, R203) -/

theorem readSolution_eq (ready : (s.machine m).jstate = .solutionReady) :
    runCommand (.readSolution m) s = .next (readBody m s) := by
  have admitted : admits (.readSolution m) s = true := by simp [admits, ready]
  rw [runCommand_readSolution, guarded_of_admits admitted]

/-- Frames before the value is latched and frames after it. -/
theorem sends_latched {fs gs : List Frame} {x : Word} (before : Puts s u fs) (after : Puts (latched m x u) v gs) :
    sends s v (fs ++ gs) :=
  sends_append before.inert before.frames after.frames

theorem frames_latched (same : Inert s u) (m : Nat) (x : Word) (t : Target) :
    acknowledging (latched m x u) t = acknowledging s t ∧ completing (latched m x u) t = completing s t
      ∧ clearing (latched m x u) t = clearing s t :=
  ⟨acknowledging_congr same t, completing_congr same t, clearing_congr same t⟩

/-- The solution read (R202). -/
theorem readSolution_ok {a : Word × Bool} (ready : (s.machine m).jstate = .solutionReady)
    (run : readSeq m (s.machine m).tgt s = (.ok a, v)) :
    runCommand (.readSolution m) s = .next { setJState m .idle v with result := .solution a.1 a.2 } := by
  rw [readSolution_eq ready, readBody, run]
  rfl

theorem readSolution_error {e : Raised} (ready : (s.machine m).jstate = .solutionReady)
    (run : readSeq m (s.machine m).tgt s = (.error e, v)) : runCommand (.readSolution m) s = .next (enterError m e v) := by
  rw [readSolution_eq ready, readBody, run]
  rfl

theorem latched_machine {fs gs : List Frame} {x : Word} (before : Puts s u fs) (after : Puts (latched m x u) v gs) :
    v.machine m = { s.machine m with jnonce := x } := by
  rw [after.inert.machine, latched, State.machine_setMachine_same, before.inert.machine]

end

/-- Settles O35: the sequence ends at the vector. -/
theorem vectorMismatchIsFailure : Obligations.VectorMismatchIsFailure := by
  intro m rx x s ready waits answers value unexpected
  subst value
  obtain ⟨u, read, sent, -⟩ := transferRead_ok (vectorRead s (s.machine m).tgt) s 0 rx [] waits answers
  have mismatch : ¬ivrExpected (s.cfgOf (s.machine m).tgt.board) (s.machine m).tgt.core
      (decodedRead (s.variantOf (s.machine m).tgt.board) (s.cfgOf (s.machine m).tgt.board).shift rx) = true := by
    rw [ivrExpected, decide_eq_true_iff, not_and_or]
    exact unexpected
  have vector := (readVector_eq read).trans (if_neg mismatch)
  refine ⟨_, readSolution_error ready (readSeq_of_mismatch vector), ?_, rfl, sent.frames⟩
  · rw [enterError_machine, sent.calm.inert.machine]

/-- Settles O36: the two reads, then the rest with every wait ending, or with the one of the read-complete write expiring. -/
theorem readSolutionSucceeds : Obligations.ReadSolutionSucceeds := by
  refine ⟨fun m vec sol d n ds ns y x s ready waits answers done nonce hy core slot hx => ?_,
    fun m vec sol rest y x s ready alone idle waits answers hy core slot hx => ?_⟩
  · subst hy hx
    obtain ⟨u, first, sent, waits', answers', -⟩ :=
      transferRead_ok (vectorRead s (s.machine m).tgt) s 4 vec [some sol] waits answers
    have vector := (readVector_eq first).trans (if_pos (decide_eq_true ⟨core, slot⟩))
    obtain ⟨v, second, sent', waits'', -⟩ :=
      transferRead_ok (fifoRead s (s.machine m).tgt) u 3 sol [] waits' answers'
    rw [sent.calm.inert.variantOf, sent.calm.inert.cfgOf] at second
    have both := sent.trans sent'
    have same := both.calm.inert
    obtain ⟨w, tail, puts⟩ := readTail_ok (s := latched m _ v) (s.machine m).tgt _ waits'' (both.done.trans done)
      (both.nonce.trans nonce)
    obtain ⟨acknowledge, complete, clear⟩ := frames_latched same m
      (decodedRead (s.variantOf (s.machine m).tgt.board) (s.cfgOf (s.machine m).tgt.board).shift sol) (s.machine m).tgt
    rw [acknowledge, complete, clear] at puts
    rw [latched_par, same.par] at tail
    have run := (readSeq_eq (m := m) vector sent.calm.inert second).trans tail
    have frames := sends_latched (puts_of_sent both) puts
    refine ⟨_, readSolution_ok ready run, ?_, rfl, frames,
      puts.inert.cal.trans same.cal, puts.hw.trans both.calm.hw⟩
    rw [machine_result, setJState_machine, latched_machine (puts_of_sent both) puts]
  · subst hy hx
    obtain ⟨u, first, puts, lone, answers'⟩ :=
      transferRead_idle (vectorRead s (s.machine m).tgt) (lone_of_idle alone idle waits) answers
    have vector := (readVector_eq first).trans (if_pos (decide_eq_true ⟨core, slot⟩))
    obtain ⟨v, second, puts', lone, -⟩ := transferRead_idle (fifoRead s (s.machine m).tgt) lone answers'
    rw [puts.inert.variantOf, puts.inert.cfgOf] at second
    have both := puts.trans puts'
    obtain ⟨w, tail, puts''⟩ := readTail_complete_expires (s := latched m _ v) (s.machine m).tgt _
      ⟨lone.alone, lone.free, lone.flying, lone.answers⟩
    obtain ⟨acknowledge, -, clear⟩ := frames_latched both.inert m
      (decodedRead (s.variantOf (s.machine m).tgt.board) (s.cfgOf (s.machine m).tgt.board).shift sol) (s.machine m).tgt
    rw [acknowledge, clear] at puts''
    have run := (readSeq_eq (m := m) vector puts.inert second).trans tail
    have frames := sends_latched both puts''
    refine ⟨_, readSolution_error ready run, ?_, rfl, frames, puts''.inert.cal.trans both.inert.cal,
      puts''.hw.trans both.hw⟩
    rw [enterError_machine, latched_machine both puts'']
    rfl

end Sys2Proof
end

section
/-! The Oscillator Control Builder (R280 to R286). Under `ocrOk` the divide bits, the two runs and the core-enable mask
lie apart (`Apart`): the divide bit of a pattern is what it has in common with the mask of the four, and the run is the
rest. -/

namespace Sys2Proof

open Sys2Proof.Machine

/-! ## The words of a pattern (R284) -/

theorem width_le (v : Variant) : v.width ≤ 64 := by
  cases v <;> decide

theorem patternLo_toNat (v : Variant) (p : Pattern) : (patternLo v p).toNat = p.toNat % 2 ^ v.width := by
  rw [patternLo, truncW_toNat, BitVec.toNat_setWidth]
  exact Nat.mod_mod_of_dvd _ (Nat.pow_dvd_pow 2 (width_le v))

theorem patternHi_toNat (v : Variant) (p : Pattern) :
    (patternHi v p).toNat = p.toNat / 2 ^ v.width % 2 ^ v.width := by
  rw [patternHi, truncW_toNat, BitVec.toNat_setWidth, BitVec.toNat_ushiftRight, Nat.shiftRight_eq_div_pow]
  exact Nat.mod_mod_of_dvd _ (Nat.pow_dvd_pow 2 (width_le v))

/-! ## The domain (R280, R285) -/

theorem dividerOf?_of_mem {n : Nat} (h : n = 1 ∨ n = 2 ∨ n = 4 ∨ n = 8) : ∃ d, dividerOf? n = some d := by
  obtain rfl | rfl | rfl | rfl := h <;> exact ⟨_, rfl⟩

theorem dividerOf?_of_not_mem {n : Nat} (h : ¬(n = 1 ∨ n = 2 ∨ n = 4 ∨ n = 8)) : dividerOf? n = none := by
  obtain ⟨one, two, four, eight⟩ : n ≠ 1 ∧ n ≠ 2 ∧ n ≠ 4 ∧ n ≠ 8 := by simpa [not_or] using h
  rw [dividerOf?, if_neg one, if_neg two, if_neg four, if_neg eight]

theorem biasOf?_of_mem {x : Int} (low : -5 ≤ x) (high : x ≤ 5) : ∃ b, biasOf? x = some b ∧ biasInt b = x := by
  refine ⟨_, dif_pos ⟨low, high⟩, ?_⟩
  show (((x + 5).toNat : Nat) : Int) - 5 = x
  omega

theorem biasOf?_of_not_mem {x : Int} (h : ¬(-5 ≤ x ∧ x ≤ 5)) : biasOf? x = none :=
  dif_neg h

theorem buildPattern_none {divider : Nat} {bias : Int} (c : ChipVariant)
    (h : ¬((divider = 1 ∨ divider = 2 ∨ divider = 4 ∨ divider = 8) ∧ -5 ≤ bias ∧ bias ≤ 5)) :
    buildPattern c divider bias = none := by
  unfold buildPattern
  by_cases hd : divider = 1 ∨ divider = 2 ∨ divider = 4 ∨ divider = 8
  · rw [biasOf?_of_not_mem fun hb => h ⟨hd, hb⟩]
    cases dividerOf? divider <;> rfl
  · rw [dividerOf?_of_not_mem hd]

/-- The command answers what the pattern is (R111). -/
theorem runCommand_buildOscillator (v : Variant) (divider : Nat) (bias : Int) (s : State) :
    runCommand (.buildOscillatorRegister v divider bias) s
      = .next { s with result := oscResult v (s.par.chip v) divider bias } :=
  rfl

/-- Settles O56: on the domain both arguments name something, outside it one of them does not. -/
theorem builderDomain : Obligations.BuilderDomain := by
  intro v divider bias s
  refine ⟨fun hd low high => ?_, fun outside => ?_⟩
  · obtain ⟨d, divides⟩ := dividerOf?_of_mem hd
    obtain ⟨bi, biased, value⟩ := biasOf?_of_mem low high
    have built : buildPattern (s.par.chip v) divider bias = some (oscPattern (s.par.chip v) d bi) := by
      rw [buildPattern, divides, biased]
    refine ⟨d, bi, _, divides, value, built, rfl, fun whole => ?_, fun split => ?_⟩
    · refine ⟨(patternLo v (oscPattern (s.par.chip v) d bi)).setWidth 128, ?_, ?_⟩
      · rw [BitVec.toNat_setWidth_of_le (by decide), patternLo_toNat]
      · rw [runCommand_buildOscillator, oscResult, built]
        dsimp only
        rw [whole, if_neg Bool.false_ne_true]
    · refine ⟨_, _, patternLo_toNat v _, patternHi_toNat v _, ?_⟩
      rw [runCommand_buildOscillator, oscResult, built]
      dsimp only
      rw [split, if_pos rfl]
  · rw [runCommand_buildOscillator, oscResult, buildPattern_none _ outside]

/-! ## Runs of bits -/

/-- The bits of a shifted run. -/
theorem getLsbD_run {n pos i : Nat} (hi : i < 128) :
    (BitVec.ofNat 128 (2 ^ n - 1) <<< pos).getLsbD i = decide (pos ≤ i ∧ i < pos + n) := by
  rw [BitVec.getLsbD_shiftLeft, BitVec.getLsbD_ofNat, Nat.testBit_two_pow_sub_one]
  by_cases below : i < pos
  · simp [below]
  · have inside : i - pos < 128 := by omega
    simp only [below, hi, inside, decide_true, decide_false, Bool.not_false, Bool.true_and, decide_eq_decide]
    omega

/-- A run inside the pattern has as many bits as it is long. -/
theorem countP_run {n pos : Nat} (fits : pos + n ≤ 128) :
    (List.range 128).countP (fun i => (BitVec.ofNat 128 (2 ^ n - 1) <<< pos).getLsbD i) = n := by
  have bits : (List.range 128).countP (fun i => (BitVec.ofNat 128 (2 ^ n - 1) <<< pos).getLsbD i)
      = (List.range 128).countP fun i => decide (pos ≤ i ∧ i < pos + n) :=
    List.countP_congr fun i mem => by rw [getLsbD_run (List.mem_range.mp mem)]
  have ico : (Finset.range 128).filter (fun i => pos ≤ i ∧ i < pos + n) = Finset.Ico pos (pos + n) := by
    ext i
    simp only [Finset.mem_filter, Finset.mem_range, Finset.mem_Ico]
    omega
  have counted := Nat.count_eq_card_filter_range (fun i => pos ≤ i ∧ i < pos + n) 128
  rw [ico, Nat.card_Ico, Nat.add_sub_cancel_left] at counted
  exact bits.trans counted

/-! ## Bit fields -/

theorem and_eq_zero_of_and_eq {x y z : Pattern} (inside : x &&& y = x) (apart : y &&& z = 0) : x &&& z = 0 := by
  rw [← inside, BitVec.and_assoc, apart]
  exact BitVec.and_zero

theorem and_not_eq_self {x y : Pattern} (apart : x &&& y = 0) : x &&& ~~~y = x := by
  ext i hi
  have bit := congrArg (fun p : Pattern => p[i]) apart
  simp at bit ⊢
  exact bit

/-- What `ocrOk` says of the fields of a pattern. -/
structure Apart (c : ChipVariant) : Prop where
  divide : ∀ d d', d ≠ d' → (1#128 <<< divBit c d) &&& (1#128 <<< divBit c d') = 0
  divideSlow : ∀ d, (1#128 <<< divBit c d) &&& (0x1F#128 <<< c.ocrSlowPos) = 0
  divideFast : ∀ d, (1#128 <<< divBit c d) &&& (0x1F#128 <<< c.ocrFastPos) = 0
  divideEn : ∀ d, (1#128 <<< divBit c d) &&& c.ocrCoreEnMask = 0
  slowFast : (0x1F#128 <<< c.ocrSlowPos) &&& (0x1F#128 <<< c.ocrFastPos) = 0
  slowEn : (0x1F#128 <<< c.ocrSlowPos) &&& c.ocrCoreEnMask = 0
  fastEn : (0x1F#128 <<< c.ocrFastPos) &&& c.ocrCoreEnMask = 0
  divBitLt : ∀ d, divBit c d < 128
  slowFits : c.ocrSlowPos + 5 ≤ 128
  fastFits : c.ocrFastPos + 5 ≤ 128

theorem apart_of_ocrOk {v : Variant} {c : ChipVariant} (h : ocrOk v c = true) : Apart c := by
  have bits : patternBits v c ≤ 128 := by
    unfold patternBits
    split <;> cases v <;> decide
  simp only [ocrOk, decide_eq_true_eq, List.pairwise_cons, List.mem_cons, List.not_mem_nil, or_false, forall_eq_or_imp,
    forall_eq] at h
  obtain ⟨⟨⟨d12, d14, d18, d1s, d1f, d1e⟩, ⟨d24, d28, d2s, d2f, d2e⟩, ⟨d48, d4s, d4f, d4e⟩, ⟨d8s, d8f, d8e⟩, ⟨sf, se⟩, fe, -⟩,
    lt1, lt2, lt4, lt8, slow, fast, -⟩ := h
  have turned {x y : Pattern} (h : x &&& y = 0) : y &&& x = 0 := (BitVec.and_comm y x).trans h
  exact {
    divide := fun
      | .d1, .d1, ne | .d2, .d2, ne | .d4, .d4, ne | .d8, .d8, ne => absurd rfl ne
      | .d1, .d2, _ => d12
      | .d1, .d4, _ => d14
      | .d1, .d8, _ => d18
      | .d2, .d4, _ => d24
      | .d2, .d8, _ => d28
      | .d4, .d8, _ => d48
      | .d2, .d1, _ => turned d12
      | .d4, .d1, _ => turned d14
      | .d8, .d1, _ => turned d18
      | .d4, .d2, _ => turned d24
      | .d8, .d2, _ => turned d28
      | .d8, .d4, _ => turned d48
    divideSlow := fun | .d1 => d1s | .d2 => d2s | .d4 => d4s | .d8 => d8s
    divideFast := fun | .d1 => d1f | .d2 => d2f | .d4 => d4f | .d8 => d8f
    divideEn := fun | .d1 => d1e | .d2 => d2e | .d4 => d4e | .d8 => d8e
    slowFast := sf
    slowEn := se
    fastEn := fe
    divBitLt := fun
      | .d1 => lt1.trans_le bits
      | .d2 => lt2.trans_le bits
      | .d4 => lt4.trans_le bits
      | .d8 => lt8.trans_le bits
    slowFits := slow.trans bits
    fastFits := fast.trans bits }

/-! ## A pattern and its parts (R281 to R283) -/

/-- The mask of the four divide bits. -/
def divMask (c : ChipVariant) : Pattern :=
  1#128 <<< c.ocrDivBit1 ||| 1#128 <<< c.ocrDivBit2 ||| 1#128 <<< c.ocrDivBit4 ||| 1#128 <<< c.ocrDivBit8

/-- The run of a bias at its place. -/
def placedRun (c : ChipVariant) (bi : Bias) : Pattern :=
  biasRun bi <<< biasPos c bi

theorem natAbs_biasInt_le (bi : Bias) : (biasInt bi).natAbs ≤ 5 := by
  have := bi.isLt
  unfold biasInt
  omega

theorem biasInt_inj {bi bi' : Bias} (h : biasInt bi = biasInt bi') : bi = bi' := by
  unfold biasInt at h
  exact Fin.ext (by omega)

/-- A run lies in the five bits at its place. -/
theorem biasRun_inside (bi : Bias) (pos : Nat) : (biasRun bi <<< pos) &&& (0x1F#128 <<< pos) = biasRun bi <<< pos := by
  have five : (0x1F#128 : Pattern) = BitVec.ofNat 128 (2 ^ 5 - 1) := rfl
  have short := natAbs_biasInt_le bi
  apply BitVec.eq_of_getLsbD_eq
  intro i hi
  rw [BitVec.getLsbD_and, five, biasRun, getLsbD_run hi, getLsbD_run hi, ← Bool.decide_and, decide_eq_decide]
  omega

/-- A divide bit is in the mask. -/
theorem divBit_inside (c : ChipVariant) (d : Divider) : (1#128 <<< divBit c d) &&& divMask c = 1#128 <<< divBit c d := by
  apply BitVec.eq_of_getLsbD_eq
  intro i _
  simp only [divMask, BitVec.getLsbD_and, BitVec.getLsbD_or]
  cases d <;> simp only [divBit] <;> grind

theorem placedRun_of_neg (c : ChipVariant) {bi : Bias} (neg : biasInt bi < 0) :
    placedRun c bi = biasRun bi <<< c.ocrSlowPos := by
  rw [placedRun, biasPos, if_pos neg]

theorem placedRun_of_nonneg (c : ChipVariant) {bi : Bias} (nonneg : 0 ≤ biasInt bi) :
    placedRun c bi = biasRun bi <<< c.ocrFastPos := by
  rw [placedRun, biasPos, if_neg (not_lt.mpr nonneg)]

/-- A field apart from both places is apart from the run. -/
theorem placedRun_apart {c : ChipVariant} {z : Pattern} (bi : Bias) (slow : (0x1F#128 <<< c.ocrSlowPos) &&& z = 0)
    (fast : (0x1F#128 <<< c.ocrFastPos) &&& z = 0) : placedRun c bi &&& z = 0 := by
  unfold placedRun biasPos
  split
  · exact and_eq_zero_of_and_eq (biasRun_inside bi _) slow
  · exact and_eq_zero_of_and_eq (biasRun_inside bi _) fast

/-- A field apart from the divide bits and from the run is apart from the pattern. -/
theorem oscPattern_apart {c : ChipVariant} {z : Pattern} {d : Divider} {bi : Bias} (bit : (1#128 <<< divBit c d) &&& z = 0)
    (run : placedRun c bi &&& z = 0) : oscPattern c d bi &&& z = 0 := by
  have run : biasRun bi <<< biasPos c bi &&& z = 0 := run
  rw [oscPattern, BitVec.and_or_distrib_right, bit, run]
  rfl

section
variable {c : ChipVariant} (apart : Apart c)
include apart

theorem biasPos_fits (bi : Bias) : biasPos c bi + (biasInt bi).natAbs ≤ 128 := by
  have short := natAbs_biasInt_le bi
  have slow := apart.slowFits
  have fast := apart.fastFits
  unfold biasPos
  split <;> omega

/-- As many bits as the bias is large. -/
theorem countP_placedRun (bi : Bias) :
    (List.range 128).countP (fun i => (placedRun c bi).getLsbD i) = (biasInt bi).natAbs :=
  countP_run (biasPos_fits apart bi)

theorem countP_divBit (d : Divider) : (List.range 128).countP (fun i => (1#128 <<< divBit c d).getLsbD i) = 1 :=
  countP_run (n := 1) (apart.divBitLt d)

theorem placedRun_divMask (bi : Bias) : placedRun c bi &&& divMask c = 0 := by
  have bit (d : Divider) : placedRun c bi &&& (1#128 <<< divBit c d) = 0 :=
    placedRun_apart bi ((BitVec.and_comm ..).trans (apart.divideSlow d))
      ((BitVec.and_comm ..).trans (apart.divideFast d))
  have one := bit .d1
  have two := bit .d2
  have four := bit .d4
  have eight := bit .d8
  simp only [divBit] at one two four eight
  rw [divMask, BitVec.and_or_distrib_left, BitVec.and_or_distrib_left, BitVec.and_or_distrib_left, one, two, four, eight]
  rfl

/-- The divide bit is what a pattern has in common with the mask. -/
theorem oscPattern_and_divMask (d : Divider) (bi : Bias) : oscPattern c d bi &&& divMask c = 1#128 <<< divBit c d := by
  have run : biasRun bi <<< biasPos c bi &&& divMask c = 0 := placedRun_divMask apart bi
  rw [oscPattern, BitVec.and_or_distrib_right, divBit_inside, run]
  exact BitVec.or_zero

/-- The run is the rest. -/
theorem oscPattern_and_not_divMask (d : Divider) (bi : Bias) : oscPattern c d bi &&& ~~~divMask c = placedRun c bi := by
  have run : biasRun bi <<< biasPos c bi &&& divMask c = 0 := placedRun_divMask apart bi
  have bit : (1#128 <<< divBit c d) &&& ~~~divMask c = 0 := by
    rw [← divBit_inside c d, BitVec.and_assoc, BitVec.and_not_self]
    exact BitVec.and_zero
  rw [oscPattern, BitVec.and_or_distrib_right, bit, and_not_eq_self run]
  exact BitVec.zero_or

theorem divBit_inj {d d' : Divider} (same : 1#128 <<< divBit c d = (1#128 <<< divBit c d' : Pattern)) : d = d' := by
  by_contra ne
  have zero := apart.divide d d' ne
  rw [← same, BitVec.and_self] at zero
  have one := countP_divBit apart d
  rw [zero] at one
  simp at one

/-- Runs of different sign lie at different places. -/
theorem placedRun_sign {bi bi' : Bias} (neg : biasInt bi < 0) (same : placedRun c bi = placedRun c bi') :
    biasInt bi' < 0 := by
  by_contra nonneg
  have inside : placedRun c bi &&& (0x1F#128 <<< c.ocrFastPos) = placedRun c bi := by
    rw [same, placedRun_of_nonneg c (not_lt.mp nonneg)]
    exact biasRun_inside ..
  have zero : placedRun c bi &&& (0x1F#128 <<< c.ocrFastPos) = 0 := by
    rw [placedRun_of_neg c neg]
    exact and_eq_zero_of_and_eq (biasRun_inside ..) apart.slowFast
  have size := countP_placedRun apart bi
  rw [← inside, zero] at size
  simp at size
  omega

theorem placedRun_inj {bi bi' : Bias} (same : placedRun c bi = placedRun c bi') : bi = bi' := by
  have size := countP_placedRun apart bi
  rw [same, countP_placedRun apart bi'] at size
  have sign := placedRun_sign apart (bi := bi) (bi' := bi')
  have sign' := placedRun_sign apart (bi := bi') (bi' := bi)
  apply biasInt_inj
  by_cases neg : biasInt bi < 0
  · have := sign neg same
    omega
  · have : ¬biasInt bi' < 0 := fun h => neg (sign' h same.symm)
    omega

end

/-- Settles O55, part by part: the divide bit, the run, and the pair they determine. -/
theorem builderProperties : Obligations.BuilderProperties := by
  intro v c ok
  have apart := apart_of_ocrOk ok
  refine ⟨fun d bi p mask hp hmask => ?_, fun d d' bi bi' same => ⟨divBit_inj apart ?_, placedRun_inj apart ?_⟩⟩
  · obtain rfl : mask = divMask c := hmask
    subst hp
    refine ⟨?_, ?_, fun neg => ?_, fun nonneg => ?_, ?_⟩
    · rw [oscPattern_and_divMask apart]
      exact countP_divBit apart d
    · rw [oscPattern_and_not_divMask apart]
      exact countP_placedRun apart bi
    · refine oscPattern_apart (apart.divideFast d) ?_
      rw [placedRun_of_neg c neg]
      exact and_eq_zero_of_and_eq (biasRun_inside ..) apart.slowFast
    · refine oscPattern_apart (apart.divideSlow d) ?_
      rw [placedRun_of_nonneg c nonneg]
      exact and_eq_zero_of_and_eq (biasRun_inside ..) ((BitVec.and_comm ..).trans apart.slowFast)
    · exact oscPattern_apart (apart.divideEn d) (placedRun_apart bi apart.slowEn apart.fastEn)
  · rw [← oscPattern_and_divMask apart d bi, same, oscPattern_and_divMask apart]
  · rw [← oscPattern_and_not_divMask apart d bi, same, oscPattern_and_not_divMask apart]

end Sys2Proof
end

section
/-! What reset leaves (R56), and what detection and reset of a board write (R343, R344). -/

namespace Sys2Proof

open Sys2Proof.Machine

/-! ## Reset -/

/-- The invariant holds at reset: nothing is listed in any store, and every board reads as `BoardCal.initial`. -/
theorem machineInv_reset : MachineInv State.reset where
  platform := by decide
  memory := reset_memoryWf
  jobsCanon := Store.canon_nil _
  calCanon := Store.canon_nil _
  hwCanon := Store.canon_nil _
  csCanon := Store.canon_nil _
  calAgree := fun _ => calOk_of_cleared rfl rfl
  csDiscipline := fun _ set => nomatch set
  powered := fun _ mem => nomatch mem

/-- Settles O57: the stores of the reset state are empty. -/
theorem resetValues : Obligations.ResetValues :=
  ⟨fun _ => rfl, rfl, rfl, fun _ => rfl, fun _ => ⟨rfl, rfl, rfl, rfl, rfl⟩, fun _ _ _ _ => rfl, machineInv_reset⟩

/-! ## A board detected or reset -/

/-- Settles O58: the writes of the two commands, and the board check of the second. -/
theorem boardDetectAndReset : Obligations.BoardDetectAndReset := by
  intro b s
  refine ⟨fun present v inRange => ?_, fun inRange present => ?_, fun absent => ?_⟩
  · exact ⟨_, _, _, _, if_neg (Nat.not_le.mpr inRange)⟩
  · rw [runCommand_boardReset, checked_of_none (checkBoard_of_present inRange present)]
    rfl
  · rw [runCommand_boardReset, checked_of_some (checkBoard_of_absent absent)]

end Sys2Proof
end

section
/-! Device initialisation (R260 to R270) with every bus wait ending in time: the sequence of `initFrames`, the lines read
at the end, the hashing clock on after it. -/

namespace Sys2Proof

open Sys2Proof.Machine

/-! ## The frames (R262 to R268) -/

theorem oscFrames_length (v : Variant) (c : ChipVariant) (p : Pattern) (b chip : Nat) :
    (oscFrames v c p b chip).length = if c.ocrSplit then 2 else 1 := by
  unfold oscFrames
  split <;> rfl

theorem initOscFrames_length (s : State) (b : Nat) :
    (initOscFrames s b).length = (if (s.cfgOf b).ocrSplit then 2 else 1) * s.par.plat.chips := by
  simp only [initOscFrames, List.length_flatMap, oscFrames_length, List.map_const', List.sum_replicate, List.length_range,
    smul_eq_mul, Nat.mul_comm]

theorem initFrames_length (s : State) (b : Nat) :
    (initFrames s b).length = (match s.variantOf b with | .sc1 => 33 | .dcr1 => 36)
      + (if (s.cfgOf b).ocrSplit then 2 else 1) * s.par.plat.chips := by
  rw [initFrames, List.length_append, initOscFrames_length, List.length_append, initDefaults]
  cases s.variantOf b with
  | sc1 => rw [admittedM_sc1]; rfl
  | dcr1 => rw [admittedM_dcr1]; rfl

/-- The data of an oscillator frame is a word of the pattern. -/
theorem writeFrame_patternLo (v : Variant) (b chip k : Nat) (r : BitVec 7) (p : Pattern) :
    writeFrame v b chip k r (patternLo v p)
      = { mode := .singleWrite, board := b, chip := chip, core := k, reg := r.toNat, data := p.toNat % 2 ^ v.width } := by
  rw [writeFrame, truncW_toNat, patternLo_toNat, Nat.mod_mod]

theorem writeFrame_patternHi (v : Variant) (b chip k : Nat) (r : BitVec 7) (p : Pattern) :
    writeFrame v b chip k r (patternHi v p)
      = { mode := .singleWrite, board := b, chip := chip, core := k, reg := r.toNat
          data := p.toNat / 2 ^ v.width % 2 ^ v.width } := by
  rw [writeFrame, truncW_toNat, patternHi_toNat, Nat.mod_mod]

theorem oscFrames_eq (v : Variant) (c : ChipVariant) (p : Pattern) (b chip : Nat) :
    oscFrames v c p b chip =
      { mode := .singleWrite, board := b, chip := chip, core := c.coreChipReg.toNat, reg := c.reg.ocra.toNat
        data := p.toNat % 2 ^ v.width : Frame }
      :: if c.ocrSplit then
          [{ mode := .singleWrite, board := b, chip := chip, core := c.coreChipReg.toNat, reg := c.reg.ocrb.toNat
             data := p.toNat / 2 ^ v.width % 2 ^ v.width }]
        else [] := by
  rw [oscFrames, writeFrame_patternLo, writeFrame_patternHi]
  split <;> rfl

/-! ## The sequence -/

/-- `Supplied` steps that put exactly these frames on the bus and leave the scripts of the lines. -/
structure Runs (s t : State) (fs : List Frame) : Prop extends Supplied s t where
  frames : sends s t fs
  done : t.doneAnswers = s.doneAnswers
  nonce : t.nonceAnswers = s.nonceAnswers

theorem Runs.trans {s t u : State} {fs gs : List Frame} (h : Runs s t fs) (k : Runs t u gs) : Runs s u (fs ++ gs) :=
  ⟨h.toSupplied.trans k.toSupplied, sends_append h.inert h.frames k.frames, k.done.trans h.done, k.nonce.trans h.nonce⟩

theorem runs_of_sent {s t : State} {fs : List Frame} (h : Sent s t fs) : Runs s t fs :=
  ⟨supplied_of_still ⟨h.calm, h.settles⟩, h.frames, h.done, h.nonce⟩

theorem clockEnable_runs (b : Nat) (on : Bool) (s : State) : Runs s (clockEnable b on s) [] := by
  have env := environment_frame s
  refine ⟨clockEnable_supplied b on s, ?_, env.done, env.nonce⟩
  have frames : busFrames (clockEnable b on s).trace = busFrames (environment s).trace := by
    rw [clockEnable, State.emit_trace, busFrames_append]
    exact List.append_nil _
  exact frames.trans (env.frames.trans (List.append_nil _).symm)

theorem clockEnable_waits {n : Nat} (b : Nat) (on : Bool) {s : State} (waits : waitsEnd s n) :
    waitsEnd (clockEnable b on s) n :=
  waitsEnd_congr waits (environment_frame s).wait

/-- The two frames of the reset pulse (R266). -/
abbrev pulseFrames (s : State) (b : Nat) : List Frame :=
  [allFrame (s.variantOf b) b (s.cfgOf b).reg.ecr (ecrReset (s.cfgOf b)), allFrame (s.variantOf b) b (s.cfgOf b).reg.ecr 0]

theorem initResetPulse_ok {s : State} {n : Nat} (b : Nat) (waits : waitsEnd s (n + 2)) :
    ∃ u, initResetPulse b s = (.ok (), u) ∧ Runs s u (pulseFrames s b) ∧ waitsEnd u n := by
  have on := clockEnable_runs b true s
  obtain ⟨t, first, sent, waits', -⟩ := transferWrite_ok
    (allFrame (s.variantOf b) b (s.cfgOf b).reg.ecr (ecrReset (s.cfgOf b))) (clockEnable b true s) (n + 1)
    (clockEnable_waits b true waits)
  have pulse := delay_sent (d := .initClock) (by decide) t
  obtain ⟨u, second, sent', waits'', -⟩ := transferWrite_ok (allFrame (s.variantOf b) b (s.cfgOf b).reg.ecr 0)
    (delay .initClock t) n (waitsEnd_congr waits' (delay_silent (by decide) t).wait)
  have before := on.trans ((runs_of_sent sent).trans (runs_of_sent pulse))
  refine ⟨clockEnable b false u, ?_, before.trans ((runs_of_sent sent').trans (clockEnable_runs b false u)),
    clockEnable_waits b false waits''⟩
  unfold initResetPulse memWriteAll
  dsimp only
  rw [on.inert.variantOf, first]
  change Res.andThen (transferWrite (allFrame ((delay .initClock t).variantOf b) b _ 0) _) _ = _
  rw [before.inert.variantOf, second]
  rfl

/-- The line check on scripted samples (R269). -/
theorem initVerify_scripted {s : State} {d n : ChipBits} {ds ns : List ChipBits} (b : Nat) (done : s.doneAnswers = d :: ds)
    (nonce : s.nonceAnswers = n :: ns) :
    ∃ u, Silent s u ∧ initVerify b s =
      if d &&& chipMask s.par.plat.chips = 0 ∧ n &&& chipMask s.par.plat.chips = 0 then (.ok (), u)
      else (.error ⟨.failure, .lines (d &&& chipMask s.par.plat.chips) (n &&& chipMask s.par.plat.chips)⟩, u) := by
  obtain ⟨first, left⟩ := readLine_done b done
  obtain ⟨second, -⟩ := readLine_nonce b (left.trans nonce)
  have silent := readLine_silent .done b s
  rw [silent.inert.par] at second
  refine ⟨_, silent.trans (readLine_silent .nonce b _), ?_⟩
  unfold initVerify
  dsimp only
  rw [first, second]

theorem initOscFrames_congr {s t : State} (h : Inert s t) (b : Nat) : initOscFrames t b = initOscFrames s b := by
  unfold initOscFrames
  rw [h.par, h.variantOf, h.cfgOf, h.board]

theorem initFrames_congr {s t : State} (h : Inert s t) (b : Nat) : initFrames t b = initFrames s b := by
  unfold initFrames
  rw [h.variantOf, h.cfgOf, initOscFrames_congr h]

/-- All of the sequence is sent; the lines at its end decide (R260, R269). -/
theorem initSeq_scripted {s : State} {b : Nat} {d n : ChipBits} {ds ns : List ChipBits}
    (waits : waitsEnd s (initFrames s b).length) (done : s.doneAnswers = d :: ds) (nonce : s.nonceAnswers = n :: ns) :
    ∃ u, Supplied s u ∧ sends s u (initFrames s b) ∧ (u.hwOf b).clockOn = true ∧ initSeq b s =
      if d &&& chipMask s.par.plat.chips = 0 ∧ n &&& chipMask s.par.plat.chips = 0 then (.ok (), u)
      else (.error ⟨.failure, .lines (d &&& chipMask s.par.plat.chips) (n &&& chipMask s.par.plat.chips)⟩, u) := by
  rw [initFrames, List.length_append, List.length_append] at waits
  obtain ⟨t, defaults, sent, waits', -⟩ := sendAll_ok (initDefaults (s.variantOf b) (s.cfgOf b) b) (s := s)
    (n := (initOscFrames s b).length + 0 + 2) (by convert waits using 1; simp only [List.length_cons, List.length_nil]; omega)
  obtain ⟨v, pulse, runs, waits''⟩ := initResetPulse_ok b waits'
  have upTo := (runs_of_sent sent).trans runs
  obtain ⟨w, osc, sent', -, -⟩ := sendAll_ok (n := 0) (initOscFrames s b) waits''
  have all := (upTo.trans (runs_of_sent sent')).trans (clockEnable_runs b true w)
  obtain ⟨u, silent, verify⟩ := initVerify_scripted b (all.done.trans done) (all.nonce.trans nonce)
  rw [all.inert.par] at verify
  refine ⟨u, all.toSupplied.trans (supplied_of_still silent.toStill), ?_, ?_, ?_⟩
  · have frames := sends_append all.inert all.frames (puts_of_silent silent).frames
    rw [pulseFrames, sent.calm.inert.variantOf, sent.calm.inert.cfgOf, List.append_nil, List.append_nil] at frames
    exact frames
  · rw [hwOf_congr silent.hw, clockEnable_hwOf, if_pos rfl]
  · rw [initSeq, defaults, ← verify]
    change (initResetPulse b t).andThen _ = _
    rw [pulse]
    change (sendAll (initOscFrames v b) v).andThen _ = _
    rw [initOscFrames_congr upTo.inert, osc]
    rfl

/-! ## The command (R260, R270) -/

theorem initializeDevice_eq {s : State} {b : Nat} (board : b < s.par.plat.boards) (present : (s.board b).present = true)
    (admitted : initAdmitted (s.board b).state = true) : runCommand (.initializeDevice b) s = .next (initBody b s) := by
  have here := checkBoard_of_present board present
  have admits : admits (.initializeDevice b) s = true := by simp [admits, admitted]
  rw [runCommand_initializeDevice, guarded_of_admits admits, checked_of_none here]

theorem deviceInit_error {s u : State} {b : Nat} {e : Raised} (run : initSeq b s = (.error e, u)) :
    deviceInit b s = (.error e, clockEnable b false u) := by
  rw [deviceInit, run]

theorem deviceInit_ok {s u : State} {b : Nat} (run : initSeq b s = (.ok (), u)) : deviceInit b s = (.ok (), u) := by
  rw [deviceInit, run]

/-- The oscillator frames, their data as numbers. -/
theorem initOscFrames_eq {s : State} {b : Nat} {p : Nat → Pattern}
    (hp : ∀ k, p k = initPattern s.par.plat (s.cfgOf b) (s.board b) k) :
    initOscFrames s b = (List.range s.par.plat.chips).flatMap fun k =>
      { mode := .singleWrite, board := b, chip := k, core := (s.cfgOf b).coreChipReg.toNat, reg := (s.cfgOf b).reg.ocra.toNat
        data := (p k).toNat % 2 ^ (s.variantOf b).width : Frame }
      :: if (s.cfgOf b).ocrSplit then
          [{ mode := .singleWrite, board := b, chip := k, core := (s.cfgOf b).coreChipReg.toNat
             reg := (s.cfgOf b).reg.ocrb.toNat
             data := (p k).toNat / 2 ^ (s.variantOf b).width % 2 ^ (s.variantOf b).width }]
        else [] := by
  refine congrArg (List.flatMap · _) (funext fun k => ?_)
  rw [hp, oscFrames_eq]

/-- Settles O52: the sequence that passes its line check; and its frames, written out for either variant. -/
theorem initializeDeviceSucceeds : Obligations.InitializeDeviceSucceeds := by
  refine ⟨fun b d n ds ns s board present admitted waits done nonce noDone noNonce => ?_,
    fun b s c p osc hc hp hosc => ?_⟩
  · obtain ⟨u, supplied, frames, clock, run⟩ := initSeq_scripted waits done nonce
    rw [if_pos ⟨noDone, noNonce⟩] at run
    exact ⟨_, (initializeDevice_eq board present admitted).trans (congrArg _ (answered_ok (deviceInit_ok run) _)), rfl, frames,
      initFrames_length s b, clock, supplied.supplyOn b, supplied.inert.cal, supplied.inert.jobs⟩
  · subst hc
    have pattern (k : Nat) : p k = initPattern s.par.plat (s.cfgOf b) (s.board b) k := by
      rw [hp, initPattern]
      cases s.par.plat.initDivider <;> cases s.par.plat.initBias <;> rfl
    have oscillators : initOscFrames s b = osc := (initOscFrames_eq pattern).trans hosc.symm
    refine ⟨fun sc1 => ?_, fun dcr1 => ?_⟩
    · rw [initFrames, oscillators, sc1]
      simp [initDefaults, admittedM_sc1, mWord, Variant.mReserved, List.range_succ, addrV, ecrReset]
    · rw [initFrames, oscillators, dcr1]
      simp [initDefaults, admittedM_dcr1, mWord, Variant.mReserved, List.range_succ, addrV, ecrReset]

/-- Settles O53: the lines make the sequence fail, after which the clock is switched off. -/
theorem initializeDeviceChecksTheLines : Obligations.InitializeDeviceChecksTheLines := by
  intro b d n ds ns s board present admitted waits done nonce found
  obtain ⟨u, supplied, frames, -, run⟩ := initSeq_scripted waits done nonce
  rw [if_neg (not_and_or.mpr found)] at run
  have off := clockEnable_runs b false u
  refine ⟨_, (initializeDevice_eq board present admitted).trans (congrArg _ (answered_error (deviceInit_error run) _)), rfl, ?_, ?_, ?_, ?_, ?_⟩
  · have all := sends_append supplied.inert frames off.frames
    rw [List.append_nil] at all
    exact all
  · exact congrArg BoardHw.clockOn ((clockEnable_hwOf b false u b).trans (if_pos rfl))
  · exact (off.supplyOn b).trans (supplied.supplyOn b)
  · exact off.inert.cal.trans supplied.inert.cal
  · exact off.inert.jobs.trans supplied.inert.jobs

end Sys2Proof
end

section
/-! Initialising twice (R271). Without other agents the registers after a run of writes, the last of them landed, are the
registers before it with each write's delivery done in order (`Settled`). A delivery gives a register the same value
whatever was there, or leaves it alone (`Overwrites`); so does a sequence of them, and done twice it is done once. -/

namespace Sys2Proof

open Sys2Proof.Machine

/-! ## Deliveries done twice -/

/-- Each register gets a value that does not depend on what is known, or stays as it is. -/
def Overwrites (F : Store Word → Store Word) : Prop :=
  ∀ j, (∃ o, ∀ m, Store.look (F m) j = o) ∨ ∀ m, Store.look (F m) j = Store.look m j

theorem overwrites_id : Overwrites id :=
  fun _ => .inr fun _ => rfl

theorem overwrites_comp {F G : Store Word → Store Word} (hF : Overwrites F) (hG : Overwrites G) :
    Overwrites fun m => G (F m) := by
  intro j
  obtain ⟨o, const⟩ | keeps := hG j
  · exact .inl ⟨o, fun m => const (F m)⟩
  · obtain ⟨o, const⟩ | keeps' := hF j
    · exact .inl ⟨o, fun m => (keeps (F m)).trans (const m)⟩
    · exact .inr fun m => (keeps (F m)).trans (keeps' m)

theorem look_twice {F : Store Word → Store Word} (hF : Overwrites F) (m : Store Word) (j : Nat) :
    Store.look (F (F m)) j = Store.look (F m) j := by
  obtain ⟨o, const⟩ | keeps := hF j
  · rw [const, const]
  · exact keeps (F m)

theorem deliver_overwrites (p : Params) (b : Nat) (w : Wire) : Overwrites fun m => deliver p b w m := by
  intro j
  unfold deliver
  cases effectGiven p w with
  | true =>
    have look (m : Store Word) := look_foldl_put (locations p.plat.chips w)
      (fun ck => regKey b ck.1 ck.2 w.reg.toNat) w.data m j
    by_cases hit : ∃ ck ∈ locations p.plat.chips w, regKey b ck.1 ck.2 w.reg.toNat = j
    · exact .inl ⟨some w.data, fun m => (look m).trans (if_pos hit)⟩
    · exact .inr fun m => (look m).trans (if_neg hit)
  | false =>
    have look (m : Store Word) := look_forgetBoard b m j
    by_cases own : j / boardSpan = b
    · exact .inl ⟨none, fun m => (look m).trans (if_pos own)⟩
    · exact .inr fun m => (look m).trans (if_neg own)

/-! ## The registers after a run of writes -/

/-- What a written frame does to the registers when it lands: nothing on a board without supply. -/
def delivered (s : State) (m : Store Word) (f : Frame) : Store Word :=
  if (s.hwOf f.board).supplyOn then
    deliver s.par f.board (wireOf (assemble (s.variantOf f.board) (s.cfgOf f.board).shift f)) m
  else m

theorem delivered_overwrites (s : State) (f : Frame) : Overwrites fun m => delivered s m f := by
  unfold delivered
  split
  · exact deliver_overwrites _ _ _
  · exact overwrites_id

theorem foldl_delivered_overwrites (s : State) (fs : List Frame) : Overwrites fun m => fs.foldl (delivered s) m := by
  induction fs with
  | nil => exact overwrites_id
  | cons f fs ih => exact overwrites_comp (delivered_overwrites s f) ih

theorem delivered_congr {s u : State} (h : Supplied s u) : delivered u = delivered s := by
  funext m f
  rw [delivered, delivered, h.supplyOn, h.inert.par, h.inert.variantOf, h.inert.cfgOf]

theorem land_regs (s : State) :
    (land s).regs = match s.inflight with | none => s.regs | some fl => deliverBytes s fl := by
  unfold land
  cases s.inflight <;> rfl

/-- Landing looks at the write in flight, the registers, the far end of the multiplexer and the supply. -/
theorem land_regs_congr {s u : State} (supplied : Supplied s u) (inflight : u.inflight = s.inflight)
    (regs : u.regs = s.regs) (route : u.route = s.route) : (land u).regs = (land s).regs := by
  have deliver (fl : InFlight) : deliverBytes u fl = deliverBytes s fl := by
    rw [deliverBytes, deliverBytes, State.reaches, State.reaches, route, supplied.supplyOn, supplied.inert.par, regs]
  rw [land_regs, land_regs, inflight, regs]
  cases s.inflight with
  | none => rfl
  | some fl => exact deliver fl

/-- No other agent's move is scripted, and the memo is no wrong word for the multiplexer. -/
structure Tidy (s : State) : Prop where
  alone : s.between = []
  memo : s.mux = .asic → s.route = .asic

/-- From a tidy state to a tidy state, on board `b` alone, the registers being those that the frames leave. -/
structure Settled (b : Nat) (s u : State) (fs : List Frame) : Prop extends Supplied s u where
  tidy : Tidy u
  regs : (land u).regs = fs.foldl (delivered s) (land s).regs
  others : ∀ b', b' ≠ b → u.hwOf b' = s.hwOf b'

theorem Settled.trans {b : Nat} {s t u : State} {fs gs : List Frame} (h : Settled b s t fs) (k : Settled b t u gs) :
    Settled b s u (fs ++ gs) := by
  refine ⟨h.toSupplied.trans k.toSupplied, k.tidy, ?_, fun b' other => (k.others b' other).trans (h.others b' other)⟩
  rw [k.regs, h.regs, delivered_congr h.toSupplied, List.foldl_append]

section
variable {b : Nat} {s u : State}

/-- A step that leaves the bus alone. -/
theorem settled_of_bus (supplied : Supplied s u) (tidy : Tidy u) (inflight : u.inflight = s.inflight)
    (regs : u.regs = s.regs) (route : u.route = s.route) (others : ∀ b', b' ≠ b → u.hwOf b' = s.hwOf b') :
    Settled b s u [] :=
  ⟨supplied, tidy, land_regs_congr supplied inflight regs route, others⟩

theorem clockEnable_settled (on : Bool) (tidy : Tidy s) : Settled b s (clockEnable b on s) [] := by
  have others (b' : Nat) (other : b' ≠ b) : (clockEnable b on s).hwOf b' = s.hwOf b' := by
    rw [clockEnable_hwOf, if_neg other]
  have supplied := clockEnable_supplied b on s
  have same : clockEnable b on s = (s.setHw b { s.hwOf b with clockOn := on }).emit (.clockEnable b on) := by
    rw [clockEnable, environment_idle s tidy.alone]
  rw [same] at others supplied ⊢
  exact settled_of_bus supplied ⟨tidy.alone, tidy.memo⟩ rfl rfl rfl others

theorem delay_settled {d : Duration} (h : d ≠ .settle) (tidy : Tidy s) : Settled b s (delay d s) [] := by
  have still := delay_still h s
  have same : delay d s = s.emit (.delay d) := by
    rw [delay, environment_idle s tidy.alone]
  rw [same] at still ⊢
  exact settled_of_bus (supplied_of_still still) ⟨tidy.alone, tidy.memo⟩ rfl rfl rfl fun _ _ => rfl

theorem readLine_settled (l : Line) (tidy : Tidy s) : Settled b s (readLine l b s).2 [] := by
  have still := readLine_still l b s
  have bus : Tidy (readLine l b s).2 ∧ (readLine l b s).2.inflight = s.inflight ∧ (readLine l b s).2.regs = s.regs
      ∧ (readLine l b s).2.route = s.route := by
    rw [readLine, environment_idle s tidy.alone]
    cases l with
    | done => cases e : s.doneAnswers <;> simp only [drawLine, e] <;> exact ⟨⟨tidy.alone, tidy.memo⟩, rfl, rfl, rfl⟩
    | nonce => cases e : s.nonceAnswers <;> simp only [drawLine, e] <;> exact ⟨⟨tidy.alone, tidy.memo⟩, rfl, rfl, rfl⟩
  obtain ⟨tidy', inflight, regs, route⟩ := bus
  exact settled_of_bus (supplied_of_still still) tidy' inflight regs route fun b' _ => hwOf_congr still.hw b'

/-- The wait lands what is in flight. -/
theorem busWait_settles {t : State} (wait : busWait s = (true, t)) :
    t.regs = (land s).regs ∧ t.mux = s.mux ∧ t.route = s.route ∧ t.between = s.between := by
  obtain ⟨idle, e⟩ | ⟨-, -, e⟩ | ⟨-, -, e⟩ := busWait_cases s
  · obtain rfl : s = t := (Prod.ext_iff.mp (e.symm.trans wait)).2
    have none : s.inflight = none ∧ s.otherHolds = false := by simpa [State.busHeld] using idle
    exact ⟨by rw [land_regs, none.1], rfl, rfl, rfl⟩
  · obtain ⟨a, answers, draws, draw⟩ := drawWait_eq s
    rw [draw] at e
    obtain rfl := (Prod.ext_iff.mp (e.symm.trans wait)).2
    have landed : (land { s with waitAnswers := answers, draws := draws }).regs = (land s).regs := by
      rw [land_regs, land_regs]
      rfl
    obtain ⟨-, same⟩ | ⟨fl, -, same⟩ := land_cases { s with waitAnswers := answers, draws := draws } <;>
    · rw [same] at landed
      dsimp only
      rw [same]
      exact ⟨landed, rfl, rfl, rfl⟩
  · cases (Prod.ext_iff.mp (e.symm.trans wait)).1

theorem transferWrite_settled {f : Frame} (tidy : Tidy s) (ok : transferWrite f s = (.ok (), u)) :
    Settled b s u [f] := by
  have still := transferWrite_still f s
  rw [ok] at still
  rw [transferWrite, environment_idle s tidy.alone] at ok
  rcases wait : busWait (s.setFrame f) with ⟨_ | _, t⟩
  · rw [busWrite_of_expired wait] at ok
    cases (Prod.ext_iff.mp ok).1
  · rw [busWrite_of_wait wait] at ok
    obtain ⟨regs, mux, route, between⟩ := busWait_settles wait
    have left : started f.board (s.variantOf f.board) (s.encodeFor f) t = u := (Prod.ext_iff.mp ok).2
    have flying : u.inflight = some ⟨f.board, s.encodeFor f⟩ := left ▸ rfl
    have asic : u.route = .asic := by
      have opened : u.route = if t.mux = .asic then t.route else .asic := left ▸ rfl
      rw [opened, mux, route]
      split
      · next asic => exact tidy.memo asic
      · rfl
    have known : u.regs = (land s).regs := by
      have kept : u.regs = t.regs := left ▸ rfl
      rw [kept, regs, land_setFrame]
      rfl
    refine ⟨supplied_of_still still, ⟨(left ▸ between : u.between = s.between).trans tidy.alone, fun _ => asic⟩, ?_,
      fun b' _ => hwOf_congr still.hw b'⟩
    rw [land_regs, flying, List.foldl_cons, List.foldl_nil, delivered, ← known, ← hwOf_congr still.hw]
    dsimp only
    split
    · next supply =>
      rw [← still.inert.par]
      exact deliverBytes_reached u ⟨f.board, s.encodeFor f⟩ _ ((reaches_iff _ _).mpr ⟨asic, supply⟩)
        (decode_encodeFrame ..)
    · next off =>
      exact deliverBytes_unreached u ⟨f.board, s.encodeFor f⟩
        (Bool.eq_false_iff.mpr fun reached => off ((reaches_iff _ _).mp reached).2)

/-- A computation that ends well went well in both parts. -/
theorem andThen_eq_ok {α β : Type} {r : Res α} {k : α → State → Res β} {y : β} (h : r.andThen k = (.ok y, u)) :
    ∃ x t, r = (.ok x, t) ∧ k x t = (.ok y, u) := by
  obtain ⟨e | x, t⟩ := r
  · cases (Prod.ext_iff.mp h).1
  · exact ⟨x, t, rfl, h⟩

theorem sendAll_settled {fs : List Frame} (tidy : Tidy s) (ok : sendAll fs s = (.ok (), u)) :
    Settled b s u fs := by
  induction fs generalizing s with
  | nil =>
    obtain rfl := (Prod.ext_iff.mp ok).2
    exact settled_of_bus ⟨Inert.refl s, fun _ => rfl, fun _ => rfl, rfl⟩ tidy rfl rfl rfl fun _ _ => rfl
  | cons f fs ih =>
    obtain ⟨⟨⟩, t, first, rest⟩ := andThen_eq_ok ok
    have settled := transferWrite_settled (b := b) tidy first
    exact settled.trans (ih settled.tidy rest)

/-! ## The sequence of an initialisation -/

theorem initResetPulse_settled (tidy : Tidy s) (ok : initResetPulse b s = (.ok (), u)) : Settled b s u (pulseFrames s b) := by
  obtain ⟨⟨⟩, t, first, ok⟩ := andThen_eq_ok ok
  obtain ⟨⟨⟩, v, second, ok⟩ := andThen_eq_ok ok
  have on := clockEnable_settled (b := b) true tidy
  have reset := on.trans (transferWrite_settled on.tidy first)
  have waited := reset.trans (delay_settled (d := .initClock) (by decide) reset.tidy)
  have clear := waited.trans (transferWrite_settled waited.tidy second)
  have off := clear.trans (clockEnable_settled (b := b) false clear.tidy)
  rw [on.inert.variantOf, waited.inert.variantOf] at off
  obtain rfl : clockEnable b false v = u := (Prod.ext_iff.mp ok).2
  exact off

/-- The line check changes no clock. -/
theorem initVerify_settled (tidy : Tidy s) (ok : initVerify b s = (.ok (), u)) :
    Settled b s u [] ∧ u.hw = s.hw := by
  have first := readLine_settled (b := b) .done tidy
  have both := first.trans (readLine_settled (b := b) .nonce first.tidy)
  have still := twoLines_still .done .nonce b s
  unfold initVerify at ok
  dsimp only at ok
  split at ok
  · obtain rfl := (Prod.ext_iff.mp ok).2
    exact ⟨both, still.hw⟩
  · cases (Prod.ext_iff.mp ok).1

theorem initSeq_settled (tidy : Tidy s) (ok : initSeq b s = (.ok (), u)) :
    Settled b s u (initFrames s b) ∧ (u.hwOf b).clockOn = true := by
  obtain ⟨⟨⟩, t, first, ok⟩ := andThen_eq_ok ok
  obtain ⟨⟨⟩, v, second, ok⟩ := andThen_eq_ok ok
  obtain ⟨⟨⟩, w, third, ok⟩ := andThen_eq_ok ok
  have defaults := sendAll_settled (b := b) tidy first
  have pulse := defaults.trans (initResetPulse_settled defaults.tidy second)
  have osc := pulse.trans (sendAll_settled pulse.tidy third)
  have on := osc.trans (clockEnable_settled (b := b) true osc.tidy)
  obtain ⟨verify, hw⟩ := initVerify_settled on.tidy ok
  have all := on.trans verify
  rw [initOscFrames_congr pulse.inert, pulseFrames, defaults.inert.variantOf, defaults.inert.cfgOf, List.append_nil,
    List.append_nil] at all
  refine ⟨all, ?_⟩
  rw [hwOf_congr hw, clockEnable_hwOf, if_pos rfl]

/-- A command that answers `Ok` is a sequence that went well. -/
theorem initializeDevice_of_ok (command : runCommand (.initializeDevice b) s = .next u) (ok : u.result = .ok) :
    ∃ v, initSeq b s = (.ok (), v) ∧ u = { v with result := .ok } := by
  rw [runCommand_initializeDevice] at command
  obtain ⟨-, rfl⟩ := guarded_next command
  rcases here : checkBoard s b with - | e
  · rw [checked_of_none here] at ok ⊢
    rcases run : initSeq b s with ⟨e | ⟨⟩, v⟩
    · rw [initBody, answered_error (deviceInit_error run)] at ok
      cases ok
    · exact ⟨v, rfl, by rw [initBody, answered_ok (deviceInit_ok run)]⟩
  · rw [checked_of_some here] at ok
    cases ok

theorem land_regs_result (s : State) (r : CmdResult) : (land { s with result := r }).regs = (land s).regs := by
  rw [land_regs, land_regs]
  rfl

end

/-- A board's supply and clock are these three. -/
theorem hwOf_eq {s t : State} {b : Nat} (on : (t.hwOf b).supplyOn = (s.hwOf b).supplyOn)
    (level : (t.hwOf b).supplyLevel = (s.hwOf b).supplyLevel) (clock : (t.hwOf b).clockOn = (s.hwOf b).clockOn) :
    t.hwOf b = s.hwOf b :=
  calc t.hwOf b = ⟨(t.hwOf b).supplyOn, (t.hwOf b).supplyLevel, (t.hwOf b).clockOn⟩ := rfl
    _ = ⟨(s.hwOf b).supplyOn, (s.hwOf b).supplyLevel, (s.hwOf b).clockOn⟩ := by rw [on, level, clock]

/-- Settles O54: the second run delivers the same frames to what the first has left. -/
theorem initializeDeviceIsIdempotent : Obligations.InitializeDeviceIsIdempotent := by
  intro b s t u _ alone memo first firstOk second secondOk
  obtain ⟨v, run, rfl⟩ := initializeDevice_of_ok first firstOk
  obtain ⟨w, run', rfl⟩ := initializeDevice_of_ok second secondOk
  obtain ⟨settled, clock⟩ := initSeq_settled ⟨alone, memo⟩ run
  obtain ⟨settled', clock'⟩ := initSeq_settled (s := { v with result := .ok }) ⟨settled.tidy.alone, settled.tidy.memo⟩ run'
  have once : (land v).regs = (initFrames s b).foldl (delivered s) (land s).regs := settled.regs
  have twice : (land w).regs = (initFrames s b).foldl (delivered s) (land v).regs := by
    rw [← delivered_congr settled.toSupplied, ← initFrames_congr settled.inert, ← land_regs_result v .ok]
    exact settled'.regs
  refine ⟨fun b' c k r _ _ _ => ?_, fun b' => ?_, clock, settled'.inert.cal, settled'.inert.jobs⟩
  · rw [State.regAt, State.regAt, land_regs_result w, land_regs_result v, twice, once]
    exact look_twice (foldl_delivered_overwrites s (initFrames s b)) _ _
  · by_cases own : b' = b
    · subst own
      exact hwOf_eq (s := v) (t := w) (settled'.supplyOn b') (settled'.supplyLevel b') (clock'.trans clock.symm)
    · exact settled'.others b' own

end Sys2Proof
end
